-- ==== Sys2Proof/Word.lean ====
section
/-! DEFINITION. The word types of the block: 32-bit registers (R8, R50), 16-bit codes and samples (R8), header bytes
(R33) and 6-bit register addresses (R50). -/

namespace Sys2Proof

/-- One 32-bit register value (R8 "register width 32 bits"). An f32 value is held as its pattern (R11). -/
abbrev Word := BitVec 32

/-- One 16-bit code or u16 sample (R8 "code width 16 bits, unsigned"). -/
abbrev Half := BitVec 16

/-- One byte of the wire header or of a payload (R33, R78). -/
abbrev Byte := BitVec 8

/-- One register address: the byte offset `0x00..0x3F` of the register window (R50). -/
abbrev RegAddr := BitVec 6

end Sys2Proof
end

