-- ==== Sys2Proof/Syntax.lean ====
section
/-! DEFINITION. The block's commands: one constructor per row of spec/opcode_table.json (R73). -/

namespace Sys2Proof

/-- The eight commands (R73). A command word "carries no immediate and no register field" (R72), so no constructor has an
argument. -/
inductive Instr where
  | nop
  | select
  | derive
  | fwd
  | inv
  | henc
  | hdec
  | clrst
  deriving DecidableEq, Repr

end Sys2Proof
end

