-- ==== Sys2Proof/Decode.lean ====
section
/-! DEFINITION. Command-word decoding (R70, R71, R73, R74) and the encoder written from the same map. -/

namespace Sys2Proof

/-- Why a command word names no command. Both are IllegalCommand (R74); the names follow the order of R71's checks. -/
inductive DecodeError where
  /-- `w[31:8] != 0` (R71 step 1), "whatever OP holds". -/
  | reservedBitsSet
  /-- `w[7:0]` is in `0x08..0xFF` (R71 step 2). -/
  | unknownOpcode
  deriving DecidableEq, Repr

/-- The field OP of a command word (R70). -/
def opField (w : Word) : Byte := w.extractLsb' 0 8

/-- The field RSVD of a command word (R70). -/
def rsvdField (w : Word) : BitVec 24 := w.extractLsb' 8 24

/-- The opcode map (R73); `none` for a reserved opcode (R74). -/
def opcodeMap (op : Byte) : Option Instr :=
  match op.toNat with
  | 0 => some .nop
  | 1 => some .select
  | 2 => some .derive
  | 3 => some .fwd
  | 4 => some .inv
  | 5 => some .henc
  | 6 => some .hdec
  | 7 => some .clrst
  | _ => none

/-- Decoding, in the order of R71: RSVD first, then the opcode. Every word is a command word (R75), so this is total. -/
def decode (w : Word) : Except DecodeError Instr :=
  if rsvdField w ≠ 0 then .error .reservedBitsSet
  else
    match opcodeMap (opField w) with
    | some i => .ok i
    | none => .error .unknownOpcode

/-- The command word of a command (R73, column "word"). -/
def encode : Instr → Word
  | .nop => 0x00000000
  | .select => 0x00000001
  | .derive => 0x00000002
  | .fwd => 0x00000003
  | .inv => 0x00000004
  | .henc => 0x00000005
  | .hdec => 0x00000006
  | .clrst => 0x00000007

/-- The command the decoder reads from the word whose bits are `w`, numbered as spec/opcode_table.json numbers them. A
command is one 32-bit word (R70), so a number of more than 32 bits is none. Log entry 19. -/
def decodeTableWord (_nbits w : Nat) : Option Instr :=
  if w < 2 ^ 32 then
    match decode (BitVec.ofNat 32 w) with
    | .ok i => some i
    | .error _ => none
  else none

end Sys2Proof
end

