-- ==== Sys2Proof/Machine/Flags.lean ====
section
/-! DEFINITION. The block's only flags, the fields of STATUS (R36, R43), as reads and updates of a STATUS value, and the error
codes (R181). -/

namespace Sys2Proof.Machine

/-- The sticky bits of STATUS (R36). -/
inductive Sticky where
  | fallback | unsup | corrupt | illegal | clamped | nan
  deriving DecidableEq, Repr

/-- The bit position of a sticky bit (R36). -/
def Sticky.bit : Sticky → Nat
  | .fallback => 8
  | .unsup => 9
  | .corrupt => 10
  | .illegal => 11
  | .clamped => 12
  | .nan => 13

/-- The bits W1C applies to: 13:8 (R36, R37). -/
def stickyMask : Word := 0x00003F00

/-- `STATUS.ERR`, bits 3:0 (R36). -/
def statusErr (w : Word) : BitVec 4 := w.extractLsb' 0 4

/-- `STATUS.LAST_INV`, bit 4 (R36). -/
def statusLastInv (w : Word) : Bool := w.getLsbD 4

/-- One sticky bit of STATUS (R36). -/
def statusSticky (w : Word) (k : Sticky) : Bool := w.getLsbD k.bit

/-- STATUS with `ERR <- code`. -/
def withErr (w : Word) (code : BitVec 4) : Word := (w &&& 0xFFFFFFF0) ||| code.setWidth 32

/-- STATUS with `LAST_INV <- v`. -/
def withLastInv (w : Word) (v : Bool) : Word := (w &&& 0xFFFFFFEF) ||| (if v then 0x00000010 else 0x00000000)

/-- STATUS with a sticky bit set. -/
def withSticky (w : Word) (k : Sticky) : Word := w ||| ((1 : Word) <<< k.bit)

/-- STATUS after a host write of `v`: every sticky bit `k` with `v[k] = 1` cleared, nothing else changed (R37). -/
def w1c (w v : Word) : Word := w &&& ~~~(v &&& stickyMask)

/-! Errors (R181, R182). -/

/-- The error outcomes `code` in `{2, 3, 4}` of R182. -/
inductive ErrorKind where
  | unsupportedFormat | payloadCorrupt | illegalCommand
  deriving DecidableEq, Repr

/-- The code of an error (R181). -/
def ErrorKind.code : ErrorKind → BitVec 4
  | .unsupportedFormat => 2
  | .payloadCorrupt => 3
  | .illegalCommand => 4

/-- The sticky bit of an error (R182). -/
def ErrorKind.sticky : ErrorKind → Sticky
  | .unsupportedFormat => .unsup
  | .payloadCorrupt => .corrupt
  | .illegalCommand => .illegal

/-- The code of success (R181). -/
def errOk : BitVec 4 := 0

/-- The advisory code InvalidParameters (R181, R183). -/
def errInvalidParameters : BitVec 4 := 1

end Sys2Proof.Machine
end

