-- ==== Sys2Proof/Config.lean ====
section
/-! DEFINITION. What the spec leaves to the implementation or the platform. The open parameters are opaque constants: no
proof can see a value of theirs. -/

namespace Sys2Proof.Config

/-- `derive_params` (R7, R100): from the patterns (DEPTH_MAX, DEPTH_QUANT) to the patterns (A, B), total, deterministic,
reading no other state. OPEN: no rule fixes its values. The properties a conforming function must have are the named
hypotheses of Machine/Conformance.lean (R101). Log entry 1. -/
opaque deriveParams : Word → Word → Word × Word

/-- `compress_grid(grid, width, height, effort)` (R160): the host's external container codec. OPEN. Log entry 2. -/
opaque compressGrid : List Half → Nat → Nat → Nat → Option (List Byte)

/-- `decompress_grid(bytes)` (R160): the host's external container codec. OPEN. Log entry 2. -/
opaque decompressGrid : List Byte → Option (Nat × Nat × List Half)

/-- The part of `dims_ok(w, h)` that is the host's own choice (R168, decision D31). OPEN. Log entry 3. -/
opaque hostBounds : Nat → Nat → Bool

/-- What the host is given from outside the block (R160, R168): the container codec's two operations and its own bounds on
the dimensions of a decoded grid. -/
structure Codec where
  /-- `compress_grid(grid, width, height, effort)`. -/
  compress : List Half → Nat → Nat → Nat → Option (List Byte)
  /-- `decompress_grid(bytes)`. -/
  decompress : List Byte → Option (Nat × Nat × List Half)
  /-- The free part of `dims_ok(width, height)`. -/
  bounds : Nat → Nat → Bool

/-- The codec and bounds of this host: the open parameters above. -/
def codec : Codec := { compress := compressGrid, decompress := decompressGrid, bounds := hostBounds }

/-- The two orders in which the four bytes of A and of B can stand on the wire (R58, decision D5). -/
inductive ByteOrder where
  | little
  | big
  deriving DecidableEq, Repr

/-- `header_byte_order` (R58, decision D5): "default little-endian"; the layout of R81, R130 and R135. Log entry 4. -/
def headerByteOrder : ByteOrder := .little

end Sys2Proof.Config
end

