-- ==== Sys2Proof/Machine/HostTypes.lean ====
section
/-! DEFINITION. The data of the register port and of the host agent: accesses (R52, R76), frames and their encodings
(R16, R17), the host's configuration (R161), the calls the host makes and what they return (R162, R166), and where the host
stands inside a call. -/

namespace Sys2Proof.Machine

/-- The sixteen registers of the window (R51). -/
inductive RegName where
  | id | ctrl | depthMax | depthQuant | paramA | paramB | law | din | dout
  | hdrW0 | hdrW1 | hdrW2 | hdrLen | hdrAvail | status | cmd
  deriving DecidableEq, Repr

/-- How many bits a host access moves. The block gives a meaning to 32-bit accesses only (R52). -/
inductive Width where
  | byte
  | half
  | word
  deriving DecidableEq, Repr

/-- One bus transaction of the host (R76): a read or a write at a byte offset of the register window. -/
inductive Access where
  | read (width : Width) (addr : RegAddr)
  | write (width : Width) (addr : RegAddr) (data : Word)
  deriving DecidableEq, Repr

/-- The decimal `x` of an f32 literal `f:x` (R76): a sign, and `digits / 10^places`. So `-1.25` is `⟨true, 125, 2⟩`. -/
structure Decimal where
  negative : Bool
  digits : Nat
  places : Nat
  deriving DecidableEq, Repr

/-- The two depth sample formats (R8, R16). -/
inductive SampleFmt where
  | f32
  | u16
  deriving DecidableEq, Repr

/-- The samples of a frame, row-major (R17), with the frame's declared encoding (R162, R169). -/
inductive FrameData where
  /-- 32-bit float samples, each as its pattern. -/
  | f32 (samples : List Word)
  /-- 16-bit unsigned samples. -/
  | u16 (samples : List Half)
  /-- A declared encoding that is neither (R169): the block is not driven for it. Log entry 17. -/
  | other
  deriving DecidableEq, Repr

/-- A DepthFrame (R17). -/
structure Frame where
  width : Nat
  height : Nat
  data : FrameData
  deriving DecidableEq, Repr

/-- The host's configuration (R161). `png_level` is an integer `0..9`. -/
structure HostConfig where
  pngLevel : Fin 10
  depthMax : Word
  depthQuant : Word
  deriving DecidableEq, Repr

/-- One thing the host sets out to do on this instance: run a host program (R76), encode a frame (R162), decode a payload
(R166). -/
inductive Call where
  | program (accesses : List Access)
  | encode (frame : Frame) (cfg : HostConfig)
  | decode (payload : List Byte) (rawOutFmt : SampleFmt)
  deriving DecidableEq, Repr

/-- The typed decode errors the caller gets (R166, R167). -/
inductive DecodeFailure where
  | unsupportedFormat
  | payloadCorrupt
  deriving DecidableEq, Repr

/-- What a call returns (R172). -/
inductive CallResult where
  /-- The values a host program read, oldest first. -/
  | readValues (values : List Word)
  /-- ENCODE_FRAME returned `None`: "no result" (R163). -/
  | noResult
  /-- ENCODE_FRAME returned the payload; the host hands it on with the frame's source encoding and "the logical content type"
  (R164). The spec gives the content type no value, so this constructor itself stands for it and there is no field: the model's
  choice (DESIGN CHOICE), log entry 26. -/
  | encoded (payload : List Byte) (source : SampleFmt)
  /-- DECODE_FRAME returned `Err` (R167). -/
  | decodeFailed (error : DecodeFailure)
  /-- DECODE_FRAME returned `Ok(frame)` (R166). -/
  | decoded (frame : Frame)
  deriving DecidableEq, Repr

/-- Where the host agent stands inside its current call: what it will do once every access it has issued is done. -/
inductive Phase where
  /-- No call is open on this instance. -/
  | idle
  /-- A host program's accesses are running. -/
  | program
  /-- ENCODE_FRAME: configuration, SELECT, DERIVE and the samples are running; next is `compress_grid`. -/
  | encodeGrid (source : SampleFmt) (width height : Nat)
  /-- ENCODE_FRAME: HENC and the header reads are running; `bytes` is what `compress_grid` gave. -/
  | encodeHeader (source : SampleFmt) (bytes : List Byte)
  /-- DECODE_FRAME: the header is loaded, HDEC and the read of STATUS are running. -/
  | decodeHeader (payload : List Byte) (rawOutFmt : SampleFmt)
  /-- DECODE_FRAME: the header was accepted, the read of HDR_LEN is running; next is `decompress_grid`. -/
  | decodeLength (payload : List Byte) (rawOutFmt : SampleFmt)
  /-- DECODE_FRAME: the codes are running through INV. -/
  | decodeGrid (rawOutFmt : SampleFmt) (width height : Nat)
  deriving DecidableEq, Repr

end Sys2Proof.Machine
end

