-- ==== Sys2Proof/Machine/State.lean ====
section
/-! DEFINITION. The state: the block's register file (R20: "The block's whole state is the register file") and the host
agent that drives its port (R20: "Two agents take steps"); the reasons a step can stop; the state after reset (R42, R200). -/

namespace Sys2Proof.Machine

/-- The block's register file: every register of R51 that stores something. ID is a constant (R21) and CMD "stores
nothing" (R38), so neither is a field; Machine/Ops.lean gives both their reads and writes. -/
structure Block where
  ctrl : Word
  depthMax : Word
  depthQuant : Word
  paramA : Word
  paramB : Word
  law : Word
  din : Word
  dout : Word
  hdrW0 : Word
  hdrW1 : Word
  hdrW2 : Word
  hdrLen : Word
  hdrAvail : Word
  status : Word
  deriving DecidableEq, Repr

/-- The host agent on this instance's port (R20, R61: one port, one host, one access at a time). The MODEL's own record of
what the host has issued and got back; the spec gives the host no registers. Log entry 5. -/
structure HostAgent where
  /-- Accesses issued and not yet performed, oldest first. -/
  port : List Access
  /-- Values read back in the current call, oldest first. -/
  reads : List Word
  phase : Phase
  /-- Calls not yet begun, oldest first. -/
  calls : List Call
  /-- What finished calls returned, oldest first. -/
  results : List CallResult
  deriving DecidableEq, Repr

structure State where
  block : Block
  host : HostAgent
  deriving DecidableEq, Repr

/-- A step never ends in a fault: "The block has no traps, no exception vector, no handler and no saved context" (R180);
an error is an outcome recorded in STATUS, and the machine goes on. The type is empty. -/
inductive Fault where
  deriving DecidableEq, Repr

/-- Why a step has no meaning. -/
inductive Refusal where
  /-- Raised by `exec` for a command that has no meaning yet (safe). -/
  | notModelled (mnemonic : String)
  /-- Raised by the port for an 8-bit or 16-bit access: "A model refuses such an access" (R52). Safe. -/
  | narrowAccess
  /-- Raised by the port for an address with `addr[1:0] != 00`: "A model refuses such an access" (R52). Safe. -/
  | misalignedAccess
  /-- Raised by the host agent for a frame whose sample count is not `width * height`, which is no frame (R17). Safe. Log entry 8. -/
  | illFormedFrame
  deriving DecidableEq, Repr

/-- The register file after reset (R42). -/
def Block.reset : Block where
  ctrl := 0x00000090
  depthMax := 0x41200000
  depthQuant := 0x42C80000
  paramA := 0x00000000
  paramB := 0x00000000
  law := 0x00000000
  din := 0x00000000
  dout := 0x00000000
  hdrW0 := 0x00000000
  hdrW1 := 0x00000000
  hdrW2 := 0x00000000
  hdrLen := 0x00000000
  hdrAvail := 0x00000000
  status := 0x00000000

/-- The host agent of a new instance has issued nothing. Log entry 6 (DESIGN CHOICE). -/
def HostAgent.reset : HostAgent where
  port := []
  reads := []
  phase := .idle
  calls := []
  results := []

/-- The machine right after reset (R42, R200): "No command is in progress after reset." -/
def State.reset : State where
  block := Block.reset
  host := HostAgent.reset

end Sys2Proof.Machine
end

