-- ==== Sys2Proof/Machine/Ops.lean ====
section
/-! DEFINITION. The named operations over the registers: the address map (R51), `reg[NAME]` and `reg[NAME] <- v` (R10), host
writes (R54), the header buffer's bytes (R33), writes of the STATUS fields (R36) and the error outcome (R182), which is all this
hardware has for taking an exception (R187). -/

namespace Sys2Proof.Machine

/-- The identifier value (R2, R21). -/
def idValue : Word := 0x44510007

/-- The byte offset of a register (R51). -/
def RegName.addr : RegName → RegAddr
  | .id => 0x00
  | .ctrl => 0x04
  | .depthMax => 0x08
  | .depthQuant => 0x0C
  | .paramA => 0x10
  | .paramB => 0x14
  | .law => 0x18
  | .din => 0x1C
  | .dout => 0x20
  | .hdrW0 => 0x24
  | .hdrW1 => 0x28
  | .hdrW2 => 0x2C
  | .hdrLen => 0x30
  | .hdrAvail => 0x34
  | .status => 0x38
  | .cmd => 0x3C

/-- The register at a word offset (R51, "Every word offset is mapped", R50); `none` at an address with `addr[1:0] != 00`. -/
def regAt (a : RegAddr) : Option RegName :=
  match a.toNat with
  | 0x00 => some .id
  | 0x04 => some .ctrl
  | 0x08 => some .depthMax
  | 0x0C => some .depthQuant
  | 0x10 => some .paramA
  | 0x14 => some .paramB
  | 0x18 => some .law
  | 0x1C => some .din
  | 0x20 => some .dout
  | 0x24 => some .hdrW0
  | 0x28 => some .hdrW1
  | 0x2C => some .hdrW2
  | 0x30 => some .hdrLen
  | 0x34 => some .hdrAvail
  | 0x38 => some .status
  | 0x3C => some .cmd
  | _ => none

/-- The bits of a register that are not reserved (R23, R29, R32, R34, R36). A reserved bit reads 0 and is never stored (R39).
Log entry 21. -/
def RegName.implemented : RegName → Word
  | .ctrl => 0x000000F3
  | .law => 0x000000FF
  | .hdrW2 => 0x000000FF
  | .hdrLen => 0x0000000F
  | .status => 0x00003F1F
  | .id | .depthMax | .depthQuant | .paramA | .paramB | .din | .dout | .hdrW0 | .hdrW1 | .hdrAvail | .cmd => 0xFFFFFFFF

/-- Does the register store anything? ID is a constant (R21); CMD stores nothing (R38). -/
def RegName.stored : RegName → Bool
  | .id | .cmd => false
  | .ctrl | .depthMax | .depthQuant | .paramA | .paramB | .law | .din | .dout | .hdrW0 | .hdrW1 | .hdrW2 | .hdrLen
  | .hdrAvail | .status => true

/-- `reg[NAME]`: the 32-bit value of a register "with its reserved bits as 0" (R10, R53). ID reads its constant (R21), CMD
reads 0 (R38). -/
def Block.get (b : Block) : RegName → Word
  | .id => idValue
  | .ctrl => b.ctrl &&& RegName.implemented .ctrl
  | .depthMax => b.depthMax
  | .depthQuant => b.depthQuant
  | .paramA => b.paramA
  | .paramB => b.paramB
  | .law => b.law &&& RegName.implemented .law
  | .din => b.din
  | .dout => b.dout
  | .hdrW0 => b.hdrW0
  | .hdrW1 => b.hdrW1
  | .hdrW2 => b.hdrW2 &&& RegName.implemented .hdrW2
  | .hdrLen => b.hdrLen &&& RegName.implemented .hdrLen
  | .hdrAvail => b.hdrAvail
  | .status => b.status &&& RegName.implemented .status
  | .cmd => 0x00000000

/-- `reg[NAME] <- v` (R10): the block's own write of a register. Reserved bits stay 0 (R39); ID and CMD store nothing. -/
def Block.put (b : Block) (r : RegName) (v : Word) : Block :=
  match r with
  | .id => b
  | .ctrl => { b with ctrl := v &&& RegName.implemented .ctrl }
  | .depthMax => { b with depthMax := v }
  | .depthQuant => { b with depthQuant := v }
  | .paramA => { b with paramA := v }
  | .paramB => { b with paramB := v }
  | .law => { b with law := v &&& RegName.implemented .law }
  | .din => { b with din := v }
  | .dout => { b with dout := v }
  | .hdrW0 => { b with hdrW0 := v }
  | .hdrW1 => { b with hdrW1 := v }
  | .hdrW2 => { b with hdrW2 := v &&& RegName.implemented .hdrW2 }
  | .hdrLen => { b with hdrLen := v &&& RegName.implemented .hdrLen }
  | .hdrAvail => { b with hdrAvail := v }
  | .status => { b with status := v &&& RegName.implemented .status }
  | .cmd => b

/-- The machine with another register file. -/
def State.withBlock (s : State) (b : Block) : State := { s with block := b }

/-! Writes of the STATUS fields (Machine/Flags.lean). -/

/-- `reg[STATUS].ERR` (R36). -/
def Block.err (b : Block) : BitVec 4 := statusErr (b.get .status)

/-- `reg[STATUS].LAST_INV` (R36). -/
def Block.lastInv (b : Block) : Bool := statusLastInv (b.get .status)

/-- `reg[STATUS].<sticky>` (R36). -/
def Block.sticky (b : Block) (k : Sticky) : Bool := statusSticky (b.get .status) k

/-- `reg[STATUS].ERR <- code`. -/
def Block.setErr (b : Block) (code : BitVec 4) : Block := b.put .status (withErr (b.get .status) code)

/-- `reg[STATUS].LAST_INV <- v`. -/
def Block.setLastInv (b : Block) (v : Bool) : Block := b.put .status (withLastInv (b.get .status) v)

/-- `reg[STATUS].<sticky> <- 1`. -/
def Block.setSticky (b : Block) (k : Sticky) : Block := b.put .status (withSticky (b.get .status) k)

/-- `if c: reg[STATUS].<sticky> <- 1`. -/
def Block.setStickyIf (b : Block) (c : Bool) (k : Sticky) : Block := if c then b.setSticky k else b

/-! The error outcome (R182). -/

/-- `raise Error(code)` (R182): ERR and the error's sticky bit; "No other register changes". There is no entry (R187) and no
return (R188) beside it. -/
def raiseError (k : ErrorKind) (b : Block) : Block := (b.setErr k.code).setSticky k.sticky

/-! Host register writes (R54). -/

/-- R24: EFFORT as stored from a host write's `v[7:4]`. -/
def effortStored (e : BitVec 4) : BitVec 4 := if e.toNat ≤ 9 then e else 9

/-- CTRL as stored from a host write of `v` (R23, R24, R39). -/
def ctrlStored (v : Word) : Word :=
  (v &&& 0x00000003) ||| ((effortStored (v.extractLsb' 4 4)).setWidth 32 <<< 4)

/-- A host write of `v` to a register other than CMD (R54): read-write registers store `v` less their reserved bits, CTRL
with EFFORT's rule (R24), STATUS by W1C (R37); ID, LAW, DOUT and HDR_LEN ignore the write (R39). CMD is the port's
(`runCommand`, Machine/Port.lean); here it stores nothing. -/
def hostWrite (r : RegName) (v : Word) (b : Block) : Block :=
  match r with
  | .ctrl => b.put .ctrl (ctrlStored v)
  | .depthMax => b.put .depthMax v
  | .depthQuant => b.put .depthQuant v
  | .paramA => b.put .paramA v
  | .paramB => b.put .paramB v
  | .din => b.put .din v
  | .hdrW0 => b.put .hdrW0 v
  | .hdrW1 => b.put .hdrW1 v
  | .hdrW2 => b.put .hdrW2 v
  | .hdrAvail => b.put .hdrAvail v
  | .status => b.put .status (w1c (b.get .status) v)
  | .id | .law | .dout | .hdrLen | .cmd => b

/-! The header buffer's bytes (R33, R57). -/

/-- Byte `j` (0 the least significant) of a word. -/
def wordByte (w : Word) (j : Nat) : Byte := w.extractLsb' (8 * j) 8

/-- `HdrByte(i)`, `i` in `0..8`: byte `i mod 4` of `HDR_W(i div 4)` (R33, R57). Log entry 18. -/
def Block.hdrByte (b : Block) (i : Nat) : Byte :=
  match i / 4 with
  | 0 => wordByte (b.get .hdrW0) (i % 4)
  | 1 => wordByte (b.get .hdrW1) (i % 4)
  | _ => wordByte (b.get .hdrW2) (i % 4)

/-- Four bytes as a little-endian word: the first byte in bits 7:0 (R33). -/
def packWord (b0 b1 b2 b3 : Byte) : Word := b3 ++ b2 ++ b1 ++ b0

/-- The bytes of a word in reverse order. -/
def byteSwap (w : Word) : Word := packWord (wordByte w 3) (wordByte w 2) (wordByte w 1) (wordByte w 0)

/-- The word whose little-endian bytes are the wire bytes of a parameter under a byte order (R58). Its own inverse. -/
def wireWord : Config.ByteOrder → Word → Word
  | .little, w => w
  | .big, w => byteSwap w

end Sys2Proof.Machine
end

