-- ==== Sys2Proof/Machine/Operands.lean ====
section
/-! DEFINITION. The operands the commands read from fixed registers (R72): the fields of CTRL and LAW, and the parts of DIN. -/

namespace Sys2Proof.Machine

/-- `CTRL.SRC_FMT`, bit 0: 0 = F32, 1 = U16 (R23). -/
def Block.srcFmt (b : Block) : SampleFmt := if (b.get .ctrl).getLsbD 0 then .u16 else .f32

/-- `CTRL.RAW_OUT_FMT`, bit 1: 0 = U16, 1 = F32 (R23). -/
def Block.rawOutFmt (b : Block) : SampleFmt := if (b.get .ctrl).getLsbD 1 then .f32 else .u16

/-- `CTRL.EFFORT`, bits 7:4 (R23). -/
def Block.effort (b : Block) : Nat := ((b.get .ctrl).extractLsb' 4 4).toNat

/-- `reg[LAW][7:0]`, the active format tag (R29). -/
def Block.lawTag (b : Block) : Byte := (b.get .law).extractLsb' 0 8

/-- `reg[DIN][15:0]`: the u16 sample of FWD and the code of INV (R30). -/
def Block.dinHalf (b : Block) : Half := (b.get .din).extractLsb' 0 16

end Sys2Proof.Machine
end

