-- ==== Sys2Proof/Machine/Control.lean ====
section
/-! DEFINITION. The control commands: NOP (R150) and CLRST (R151). -/

namespace Sys2Proof.Machine

/-- The register effect of NOP (R150). -/
def nopBlock (b : Block) : Block := b.setErr errOk

/-- NOP (R150). -/
def execNop (s : State) : Host.Outcome State Fault Refusal := .next (s.withBlock (nopBlock s.block))

/-- The register effect of CLRST (R151). -/
def clrstBlock (b : Block) : Block := (b.put .status 0x00000000).put .hdrLen 0x00000000

/-- CLRST (R151). -/
def execClrst (s : State) : Host.Outcome State Fault Refusal := .next (s.withBlock (clrstBlock s.block))

end Sys2Proof.Machine
end

