-- ==== Sys2Proof/Machine/Header.lean ====
section
/-! DEFINITION. The header units: HENC (R130) and HDEC (R135, R136), over the wire layout of R78 to R82. -/

namespace Sys2Proof.Machine

/-- The register effect of HENC (R130) under a byte order of the parameters (R58). -/
def hencBlock (order : Config.ByteOrder) (b : Block) : Block :=
  if b.lawTag = 0 then
    ((((b.put .hdrW0 0x00000000).put .hdrW1 0x00000000).put .hdrW2 0x00000000).put .hdrLen 1).setErr errOk
  else
    let pa := wireWord order (b.get .paramA)
    let pb := wireWord order (b.get .paramB)
    ((((b.put .hdrW0 (pa.extractLsb' 0 24 ++ (0x01 : Byte))).put .hdrW1
      (pb.extractLsb' 0 24 ++ pa.extractLsb' 24 8)).put .hdrW2 ((pb.extractLsb' 24 8).setWidth 32)).put .hdrLen 9).setErr errOk

/-- HENC (R130). -/
def execHenc (s : State) : Host.Outcome State Fault Refusal :=
  .next (s.withBlock (hencBlock Config.headerByteOrder s.block))

/-- What HDEC finds in the header buffer. -/
inductive HeaderVerdict where
  | error (k : ErrorKind)
  | raw
  | quantized
  deriving DecidableEq, Repr

/-- HDEC's checks, in the order of R136. -/
def headerVerdict (avail : Nat) (tag : Byte) : HeaderVerdict :=
  if avail = 0 then .error .payloadCorrupt
  else if tag ≠ 0 ∧ tag ≠ 1 then .error .unsupportedFormat
  else if tag = 0 then .raw
  else if avail < 9 then .error .payloadCorrupt
  else .quantized

/-- The register effect of HDEC (R135) under a byte order of the parameters (R58). -/
def hdecBlock (order : Config.ByteOrder) (b : Block) : Block :=
  match headerVerdict (b.get .hdrAvail).toNat (b.hdrByte 0) with
  | .error k => raiseError k b
  | .raw => ((((b.put .law 0x00000000).put .paramA 0x00000000).put .paramB 0x00000000).put .hdrLen 1).setErr errOk
  | .quantized =>
    ((((b.put .law 0x00000001).put .paramA
      (wireWord order (packWord (b.hdrByte 1) (b.hdrByte 2) (b.hdrByte 3) (b.hdrByte 4)))).put .paramB
      (wireWord order (packWord (b.hdrByte 5) (b.hdrByte 6) (b.hdrByte 7) (b.hdrByte 8)))).put .hdrLen 9).setErr errOk

/-- HDEC (R135). -/
def execHdec (s : State) : Host.Outcome State Fault Refusal :=
  .next (s.withBlock (hdecBlock Config.headerByteOrder s.block))

end Sys2Proof.Machine
end

