-- ==== Sys2Proof/Machine/Float32.lean ====
section
/-! DEFINITION. IEEE-754 binary32 as R11 gives it: patterns, the NaN test, the ordered comparisons, the four operations with
roundTiesToEven and subnormals kept, the conversion of `0..65535`; roundHalfAway (R12), clampInt (R13), QNAN (R14). Log entry
24 (PRESUMED, as R11 itself says).

Every finite binary32 value is an integer number of UNITS of 2^-149 (the smallest subnormal). The operations compute the
exact result as a ratio of two natural numbers in those units and round once. -/

namespace Sys2Proof.Machine

/-- The invalid f32 output (R14); and the NaN an operation gives, which is not observable (R11). Log entry 9. -/
def qnan : Word := 0x7FC00000

/-- The pattern of 1000.0, the raw law's codes per metre (R8). -/
def f32Thousand : Word := 0x447A0000

/-- The pattern of `+inf`. -/
def f32Inf : Word := 0x7F800000

/-- The pattern of `-0.0`. -/
def f32NegZero : Word := 0x80000000

/-- Bit 31 (R11): true for a negative sign. -/
def f32Sign (u : Word) : Bool := u.getLsbD 31

/-- Bits 30:23 (R11). -/
def f32Exp (u : Word) : Nat := (u.extractLsb' 23 8).toNat

/-- Bits 22:0 (R11). -/
def f32Frac (u : Word) : Nat := (u.extractLsb' 0 23).toNat

/-- Bits 30:0, the magnitude's pattern. Among non-NaN patterns it grows with the magnitude. -/
def f32Mag (u : Word) : Nat := (u.extractLsb' 0 31).toNat

/-- `isNaN(f)`: exponent `0xFF` and a non-zero fraction (R11). -/
def f32IsNaN (u : Word) : Bool := f32Exp u == 0xFF && f32Frac u != 0

/-- An infinity of either sign. -/
def f32IsInf (u : Word) : Bool := f32Exp u == 0xFF && f32Frac u == 0

/-- Neither a NaN nor an infinity. -/
def f32IsFinite (u : Word) : Bool := f32Exp u != 0xFF

/-- `+0.0` or `-0.0`. -/
def f32IsZero (u : Word) : Bool := f32Mag u == 0

/-- The integer significand: the fraction, with the hidden bit for a normal value. -/
def f32Sig (u : Word) : Nat := if f32Exp u = 0 then f32Frac u else f32Frac u + 2 ^ 23

/-- The power of two that scales the significand, in units of 2^-149. -/
def f32Scale (u : Word) : Nat := f32Exp u - 1

/-- The magnitude of a finite value, in units of 2^-149. -/
def f32Units (u : Word) : Nat := f32Sig u * 2 ^ f32Scale u

/-- A finite value with its sign, in units of 2^-149. -/
def f32SUnits (u : Word) : Int := if f32Sign u then -(f32Units u : Int) else (f32Units u : Int)

/-- The order of the non-NaN values as an integer: the signed magnitude of the pattern. Both zeros are 0. -/
def f32Key (u : Word) : Int := if f32Sign u then -(f32Mag u : Int) else (f32Mag u : Int)

/-- `a < b` (R11): "Any comparison with a NaN operand is false". -/
def f32Lt (a b : Word) : Bool := !f32IsNaN a && !f32IsNaN b && decide (f32Key a < f32Key b)

/-- `a > b` (R11). -/
def f32Gt (a b : Word) : Bool := f32Lt b a

/-- `a <= b` (R11). -/
def f32Le (a b : Word) : Bool := !f32IsNaN a && !f32IsNaN b && decide (f32Key a ≤ f32Key b)

/-- `a == b` (R11): "`+0.0 == -0.0` is true". -/
def f32Eq (a b : Word) : Bool := !f32IsNaN a && !f32IsNaN b && decide (f32Key a = f32Key b)

/-- The value with the other sign. -/
def f32Neg (u : Word) : Word := u ^^^ 0x80000000

/-- A pattern from a sign and a magnitude pattern below 2^31. -/
def f32WithSign (neg : Bool) (mag : Nat) : Word := BitVec.ofNat 32 (mag + if neg then 2 ^ 31 else 0)

/-- The power of two at which a magnitude of `n / d` units is rounded: 0 below 2^24 units, else such that the quotient has
24 bits. -/
def roundScale (n d : Nat) : Nat := Nat.log2 (n / d) - 23

/-- Division rounded to the nearest integer, ties to even. -/
def divNearestEven (n d : Nat) : Nat :=
  if 2 * (n % d) > d ∨ (2 * (n % d) = d ∧ n / d % 2 = 1) then n / d + 1 else n / d

/-- The magnitude pattern of `n / d` units (`d > 0`) rounded to binary32 with roundTiesToEven (R11). The significand with
its hidden bit is added to the scaled exponent, so a carry out of the significand moves to the next exponent by itself, and
a result past the largest finite value becomes the infinity. -/
def roundMag (n d : Nat) : Nat :=
  let e := roundScale n d
  min (e * 2 ^ 23 + divNearestEven n (d * 2 ^ e)) 0x7F800000

/-- `n / d` units with a sign, rounded. -/
def roundPack (neg : Bool) (n d : Nat) : Word := f32WithSign neg (roundMag n d)

/-- `f32(n)` for `n` in `0..65535` (R11). -/
def f32OfNat (n : Nat) : Word := roundPack false (n * 2 ^ 149) 1

/-- `fadd32` (R11). A zero sum of operands of unlike sign is `+0.0`, as IEEE-754 has it under roundTiesToEven. Log entry 12
(PRESUMED). -/
def fadd32 (a b : Word) : Word :=
  if f32IsNaN a || f32IsNaN b then qnan
  else if f32IsInf a then (if f32IsInf b && f32Sign a != f32Sign b then qnan else a)
  else if f32IsInf b then b
  else if f32SUnits a + f32SUnits b = 0 then (if f32Sign a && f32Sign b then f32NegZero else 0)
  else roundPack (decide (f32SUnits a + f32SUnits b < 0)) (f32SUnits a + f32SUnits b).natAbs 1

/-- `fsub32` (R11): the sum with the other operand negated. -/
def fsub32 (a b : Word) : Word := fadd32 a (f32Neg b)

/-- `fmul32` (R11). A product of units counts units of 2^-298. -/
def fmul32 (a b : Word) : Word :=
  let neg := f32Sign a != f32Sign b
  if f32IsNaN a || f32IsNaN b then qnan
  else if f32IsInf a || f32IsInf b then
    (if f32IsZero a || f32IsZero b then qnan else f32WithSign neg 0x7F800000)
  else roundPack neg (f32Units a * f32Units b) (2 ^ 149)

/-- `fdiv32` (R11): "Division of a non-zero finite value by zero gives an infinity with the XOR of the operand signs";
`0/0` and `inf/inf` give a NaN. -/
def fdiv32 (a b : Word) : Word :=
  let neg := f32Sign a != f32Sign b
  if f32IsNaN a || f32IsNaN b then qnan
  else if f32IsInf a then (if f32IsInf b then qnan else f32WithSign neg 0x7F800000)
  else if f32IsInf b then f32WithSign neg 0
  else if f32IsZero b then (if f32IsZero a then qnan else f32WithSign neg 0x7F800000)
  else roundPack neg (f32Units a * 2 ^ 149) (f32Units b)

/-- "a mathematical integer or an infinity" (R12). -/
inductive ExtInt where
  | negInf
  | int (value : Int)
  | posInf
  deriving DecidableEq, Repr

/-- `roundHalfAway(t)` for a non-NaN `t` (R12): `sign(t) * floor(|t| + 1/2)` on the exact value. It is never applied to a NaN
(R106 and R107 test first), and there it answers 0. Log entry 15. -/
def roundHalfAway (t : Word) : ExtInt :=
  if f32IsNaN t then .int 0
  else if f32IsInf t then (if f32Sign t then .negInf else .posInf)
  else
    let m : Nat := (2 * f32Units t + 2 ^ 149) / 2 ^ 150
    .int (if f32Sign t then -(m : Int) else (m : Int))

/-- `clampInt(c, lo, hi)` (R13). -/
def clampInt (c : ExtInt) (lo hi : Int) : Int :=
  match c with
  | .negInf => lo
  | .posInf => hi
  | .int v => if v < lo then lo else if v > hi then hi else v

end Sys2Proof.Machine
end

