-- ==== Sys2Proof/Machine/Quant.lean ====
section
/-! DEFINITION. The quantization unit: SELECT (R91), DERIVE (R95), FWD (R105 to R111) and INV (R113 to R118). -/

namespace Sys2Proof.Machine

/-! SELECT. -/

/-- The register effect of SELECT (R91). -/
def selectBlock (b : Block) : Block :=
  match b.srcFmt with
  | .f32 =>
    if f32Gt (b.get .depthMax) 0 && f32Gt (b.get .depthQuant) 0 then (b.put .law 0x00000001).setErr errOk
    else ((b.put .law 0x00000000).setSticky .fallback).setErr errInvalidParameters
  | .u16 => (b.put .law 0x00000000).setErr errOk

/-- SELECT (R91). -/
def execSelect (s : State) : Host.Outcome State Fault Refusal := .next (s.withBlock (selectBlock s.block))

/-! DERIVE. -/

/-- The register effect of DERIVE for a given `derive_params` (R95, R100). -/
def deriveBlock (deriveParams : Word → Word → Word × Word) (b : Block) : Block :=
  let p := if b.lawTag = 1 then deriveParams (b.get .depthMax) (b.get .depthQuant) else (0x00000000, 0x00000000)
  ((b.put .paramA p.1).put .paramB p.2).setErr errOk

/-- DERIVE (R95), with the open parameter function of this implementation. -/
def execDerive (s : State) : Host.Outcome State Fault Refusal :=
  .next (s.withBlock (deriveBlock Config.deriveParams s.block))

/-! FWD. -/

/-- What a forward path returns: the code, "clamped" and "nan" (R105). -/
structure ForwardResult where
  code : Half
  clamped : Bool
  nan : Bool
  deriving DecidableEq, Repr

/-- `clampInt(c, 1, 65535)` as a code, and whether it changed `c` (R106, R107). -/
def saturateCode (c : ExtInt) (clamped : Bool) : ForwardResult :=
  let code := clampInt c 1 65535
  { code := BitVec.ofInt 16 code, clamped := clamped || c != .int code, nan := false }

/-- Does the upper clamp apply to `x`? "the upper clamp applies only when `M > 0`" (R106, R114, decision D10). -/
def clampsAbove (x m : Word) : Bool := f32Gt m 0 && f32Gt x m

/-- The end of R106: the NaN intermediate (R109; log entry 11), or the rounded and saturated code. -/
def forwardCode (t : Word) (clamped : Bool) : ForwardResult :=
  if f32IsNaN t then ⟨0, clamped, true⟩ else saturateCode (roundHalfAway t) clamped

/-- R106 after the upper clamp: a negative `x` is clamped to `+0.0`, and `+0.0` is invalid; else the law. -/
def forwardFrom (x a b : Word) (clamped : Bool) : ForwardResult :=
  if f32Lt x 0 then ⟨0, true, false⟩
  else if f32Eq x 0 then ⟨0, clamped, false⟩
  else forwardCode (fsub32 (fdiv32 a x) b) clamped

/-- `FwdQuant(x, A, B, M)` (R106). -/
def fwdQuant (x a b m : Word) : ForwardResult :=
  if f32IsNaN x || f32Eq x 0 then ⟨0, false, false⟩
  else if clampsAbove x m then forwardFrom m a b true
  else forwardFrom x a b false

/-- `FwdRawF32(x)` (R107). -/
def fwdRawF32 (x : Word) : ForwardResult :=
  if f32IsNaN x || f32Eq x 0 then ⟨0, false, false⟩
  else if f32Lt x 0 then ⟨0, true, false⟩
  else saturateCode (roundHalfAway (fmul32 x f32Thousand)) false

/-- `FwdRawU16(s)` (R108). -/
def fwdRawU16 (s : Half) : ForwardResult := ⟨s, false, false⟩

/-- The results of a successful FWD (R105, R110). -/
def fwdCommit (b : Block) (r : ForwardResult) : Block :=
  (((((b.put .dout (r.code.setWidth 32)).setLastInv (r.code == 0)).setStickyIf r.clamped .clamped).setStickyIf r.nan .nan)).setErr
    errOk

/-- The register effect of FWD (R105): IllegalCommand for the quantized law on a U16 source (R111), else the path the law and
the format select. -/
def fwdBlock (b : Block) : Block :=
  if b.lawTag = 1 then
    match b.srcFmt with
    | .u16 => raiseError .illegalCommand b
    | .f32 => fwdCommit b (fwdQuant (b.get .din) (b.get .paramA) (b.get .paramB) (b.get .depthMax))
  else
    match b.srcFmt with
    | .f32 => fwdCommit b (fwdRawF32 (b.get .din))
    | .u16 => fwdCommit b (fwdRawU16 b.dinHalf)

/-- FWD (R105). -/
def execFwd (s : State) : Host.Outcome State Fault Refusal := .next (s.withBlock (fwdBlock s.block))

/-! INV. -/

/-- What an inverse path returns: the output, "invalid", "clamped" and "nan" (R113). -/
structure InverseResult where
  out : Word
  invalid : Bool
  clamped : Bool
  nan : Bool
  deriving DecidableEq, Repr

/-- The lower clamp of R114: a negative quotient and `-0.0` give `+0.0`. -/
def depthFloor (q : Word) : Word := if f32Lt q 0 || f32Eq q 0 then 0 else q

/-- R114 from the quotient on: the NaN quotient (R115), the lower clamp, the upper clamp. Only the clamps are flagged, not the
normalised `-0.0`. -/
def inverseFrom (q m : Word) : InverseResult :=
  if f32IsNaN q then ⟨qnan, true, false, true⟩
  else if clampsAbove (depthFloor q) m then ⟨m, false, true, false⟩
  else ⟨depthFloor q, false, f32Lt q 0, false⟩

/-- `InvQuant(k, A, B, M)` (R114). -/
def invQuant (k : Half) (a b m : Word) : InverseResult :=
  if k = 0 then ⟨qnan, true, false, false⟩ else inverseFrom (fdiv32 a (fadd32 (f32OfNat k.toNat) b)) m

/-- `InvRawU16(k)` (R116). -/
def invRawU16 (k : Half) : InverseResult := ⟨k.setWidth 32, k == 0, false, false⟩

/-- `InvRawF32(k)` (R117). -/
def invRawF32 (k : Half) : InverseResult :=
  if k = 0 then ⟨qnan, true, false, false⟩ else ⟨fdiv32 (f32OfNat k.toNat) f32Thousand, false, false, false⟩

/-- The results of INV (R113, R118). -/
def invCommit (b : Block) (r : InverseResult) : Block :=
  (((((b.put .dout r.out).setLastInv r.invalid).setStickyIf r.clamped .clamped).setStickyIf r.nan .nan)).setErr errOk

/-- The register effect of INV (R113). -/
def invBlock (b : Block) : Block :=
  if b.lawTag = 1 then
    invCommit b (invQuant b.dinHalf (b.get .paramA) (b.get .paramB) (b.get .depthMax))
  else
    match b.rawOutFmt with
    | .u16 => invCommit b (invRawU16 b.dinHalf)
    | .f32 => invCommit b (invRawF32 b.dinHalf)

/-- INV (R113). -/
def execInv (s : State) : Host.Outcome State Fault Refusal := .next (s.withBlock (invBlock s.block))

end Sys2Proof.Machine
end

