-- ==== Sys2Proof/Machine/Dispatch.lean ====
section
/-! DEFINITION. One arm per command of the opcode map (R73). -/

namespace Sys2Proof.Machine

def exec (i : Instr) (s : State) : Host.Outcome State Fault Refusal :=
  match i with
  | .nop => Sys2Proof.Machine.execNop s
  | .select => Sys2Proof.Machine.execSelect s
  | .derive => Sys2Proof.Machine.execDerive s
  | .fwd => Sys2Proof.Machine.execFwd s
  | .inv => Sys2Proof.Machine.execInv s
  | .henc => Sys2Proof.Machine.execHenc s
  | .hdec => Sys2Proof.Machine.execHdec s
  | .clrst => Sys2Proof.Machine.execClrst s

end Sys2Proof.Machine
end

