-- ==== Sys2Proof/Machine/Port.lean ====
section
/-! DEFINITION. The register port (R38, R52 to R54): what one host access does to the machine. -/

namespace Sys2Proof.Machine

/-- A write of `w` to CMD (R38): the command `w` encodes, or the error outcome IllegalCommand when it encodes none (R71,
R74). -/
def runCommand (w : Word) (s : State) : Host.Outcome State Fault Refusal :=
  match decode w with
  | .ok i => exec i s
  | .error _ => .next (s.withBlock (raiseError .illegalCommand s.block))

/-- The host takes the value a read gave. -/
def State.record (s : State) (v : Word) : State := { s with host := { s.host with reads := s.host.reads ++ [v] } }

/-- The host has one access less to issue. -/
def State.withPort (s : State) (port : List Access) : State := { s with host := { s.host with port := port } }

/-- A 32-bit write of `v` to the register `r` (R54): CMD executes `v`, any other register is written. -/
def performWrite (r : RegName) (v : Word) (s : State) : Host.Outcome State Fault Refusal :=
  match r with
  | .cmd => runCommand v s
  | r => .next (s.withBlock (hostWrite r v s.block))

/-- One host access (R52, R53, R54). An 8-bit or 16-bit access and an address with `addr[1:0] != 00` are refused (R52). A read
has no side effect on the block (R53). -/
def performAccess (a : Access) (s : State) : Host.Outcome State Fault Refusal :=
  match a with
  | .read .word addr =>
    match regAt addr with
    | some r => .next (s.record (s.block.get r))
    | none => .refused .misalignedAccess
  | .write .word addr v =>
    match regAt addr with
    | some r => performWrite r v s
    | none => .refused .misalignedAccess
  | .read .byte _ | .read .half _ | .write .byte _ _ | .write .half _ _ => .refused .narrowAccess

end Sys2Proof.Machine
end

