-- ==== Sys2Proof/WellFormed.lean ====
section
/-! DEFINITION. Well-formedness: of a command (nothing to check, R72), of a bus access (R52), of a frame (R17) and of a
call. -/

namespace Sys2Proof

/-- A command carries no immediate and no register field (R72), so every command is well formed. -/
def Instr.wf : Instr → Bool
  | .nop | .select | .derive | .fwd | .inv | .henc | .hdec | .clrst => true

namespace Machine

/-- R52: "Every host access moves exactly 32 bits at a word offset: the address has `addr[1:0] = 00`." -/
def Access.wf : Access → Bool
  | .read width addr => width == .word && addr.extractLsb' 0 2 == 0#2
  | .write width addr _ => width == .word && addr.extractLsb' 0 2 == 0#2

/-- R17: a frame is a grid of `width * height` samples. A frame of another encoding holds nothing the model looks at. -/
def Frame.wf (f : Frame) : Bool :=
  match f.data with
  | .f32 samples => samples.length == f.width * f.height
  | .u16 samples => samples.length == f.width * f.height
  | .other => true

/-- A call is well formed when its accesses and its frame are. Every list of bytes is a payload (R170). -/
def Call.wf : Call → Bool
  | .program accesses => accesses.all Access.wf
  | .encode frame _ => frame.wf
  | .decode _ _ => true

end Machine

end Sys2Proof
end

