-- ==== Sys2Proof/Machine/HostProc.lean ====
section
/-! DEFINITION. The host agent (R20): the host procedures ENCODE_FRAME (R162) and DECODE_FRAME (R166) as a script of bus
accesses between decisions the host takes by itself. -/

namespace Sys2Proof.Machine

/-! Host assembler (R76, R77). -/

/-- `wr NAME, v` (R76). -/
def wr (r : RegName) (v : Word) : Access := .write .word r.addr v

/-- `bitsOf` of an f32 literal (R76): "the binary32 value nearest the decimal, ties to even". Log entry 27: the sign of a zero
literal and a decimal past the largest finite value. -/
def bitsOfLiteral (x : Decimal) : Word := roundPack x.negative (x.digits * 2 ^ 149) (10 ^ x.places)

/-- `wrf NAME, f:x` (R77): `wr NAME, bitsOf(x)`. -/
def wrf (r : RegName) (x : Decimal) : Access := wr r (bitsOfLiteral x)

/-- `rd NAME` (R76). -/
def rd (r : RegName) : Access := .read .word r.addr

/-- `cmd MNEMONIC` (R76, R77): `wr CMD, <word>`. -/
def cmd (i : Instr) : Access := wr .cmd (encode i)

/-- `clrsticky` (R77). -/
def clrsticky : Access := wr .status 0x00003F00

/-- The defaults of the host's configuration (R161). -/
def hostConfigDefault : HostConfig where
  pngLevel := 9
  depthMax := 0x41200000
  depthQuant := 0x42C80000

/-! Moves of the host agent. -/

/-- The host opens the next phase of a call: it forgets the values it has used and issues the phase's accesses. -/
def State.openPhase (s : State) (phase : Phase) (port : List Access) : State :=
  { s with host := { s.host with phase := phase, port := port, reads := [] } }

/-- The call returns its value and ends (R172). -/
def State.finish (s : State) (r : CallResult) : State :=
  { s with host := { s.host with phase := .idle, reads := [], results := s.host.results ++ [r] } }

/-- The call at the head of the list is taken. -/
def State.dropCall (s : State) : State := { s with host := { s.host with calls := s.host.calls.tail } }

/-! ENCODE_FRAME (R162). -/

/-- `CTRL` as ENCODE_FRAME writes it: `(cfg.png_level << 4) | fmt` (R162). -/
def encodeCtrl (cfg : HostConfig) (fmt : SampleFmt) : Word :=
  (BitVec.ofNat 32 cfg.pngLevel.val <<< 4) ||| (match fmt with | .f32 => 0 | .u16 => 1)

/-- The accesses before the samples (R162). -/
def encodeSetup (cfg : HostConfig) (fmt : SampleFmt) : List Access :=
  [wr .ctrl (encodeCtrl cfg fmt), wr .depthMax cfg.depthMax, wr .depthQuant cfg.depthQuant, cmd .select, cmd .derive]

/-- The accesses of one sample, whose DIN word is `x` (R162). -/
def encodeSample (x : Word) : List Access := [wr .din x, cmd .fwd, rd .dout]

/-- The format and the DIN words of a frame's samples (R162, R169); `none` for another encoding. -/
def frameWords (d : FrameData) : Option (SampleFmt × List Word) :=
  match d with
  | .f32 samples => some (.f32, samples)
  | .u16 samples => some (.u16, samples.map (·.setWidth 32))
  | .other => none

/-- `DOUT[15:0]` of a read value. -/
def lowHalf (w : Word) : Half := w.extractLsb' 0 16

/-- The accesses that make and fetch the header (R162). -/
def headerReads : List Access := [cmd .henc, rd .hdrLen, rd .hdrW0, rd .hdrW1, rd .hdrW2]

/-- The bytes of a word, least significant first (R33). -/
def wordBytes (w : Word) : List Byte := [wordByte w 0, wordByte w 1, wordByte w 2, wordByte w 3]

/-- `HdrByte(0 .. HDR_LEN-1)` from the values read by `headerReads` (R131, R164). -/
def headerFromReads (reads : List Word) : List Byte :=
  (wordBytes (reads.getD 1 0) ++ wordBytes (reads.getD 2 0) ++ wordBytes (reads.getD 3 0)).take (reads.getD 0 0).toNat

/-! DECODE_FRAME (R166). -/

/-- Four payload bytes from index `i` as a header-buffer word; bytes past the end are `0x00` (R166). -/
def payloadWord (payload : List Byte) (i : Nat) : Word :=
  packWord (payload.getD i 0) (payload.getD (i + 1) 0) (payload.getD (i + 2) 0) (payload.getD (i + 3) 0)

/-- `CTRL` as DECODE_FRAME writes it: `(reg[CTRL] & ~0x2) | (raw_out_fmt << 1)` (R166). -/
def decodeCtrl (ctrl : Word) (fmt : SampleFmt) : Word :=
  (ctrl &&& ~~~(0x00000002 : Word)) ||| (match fmt with | .u16 => 0 | .f32 => 2)

/-- The accesses up to the read of STATUS (R166). -/
def decodeSetup (payload : List Byte) (fmt : SampleFmt) (ctrl : Word) : List Access :=
  [wr .hdrW0 (payloadWord payload 0), wr .hdrW1 (payloadWord payload 4), wr .hdrW2 ((payload.getD 8 0).setWidth 32),
    wr .hdrAvail (BitVec.ofNat 32 (min payload.length 0xFFFFFFFF)), wr .ctrl (decodeCtrl ctrl fmt), cmd .hdec, rd .status]

/-- The accesses of one code (R166). -/
def decodeSample (code : Half) : List Access := [wr .din (code.setWidth 32), cmd .inv, rd .dout]

/-- `dims_ok(w, h)` (R168): it rejects a grid whose `w*h` differs from its number of samples; the rest is the host's. -/
def dimsOk (c : Config.Codec) (w h : Nat) (grid : List Half) : Bool := w * h == grid.length && c.bounds w h

/-- The samples of a decoded frame from the values read: "f32 pattern if LAW = 1 or raw_out_fmt = F32; else DOUT[15:0]"
(R166). -/
def decodedData (law : Byte) (fmt : SampleFmt) (reads : List Word) : FrameData :=
  if law = 1 ∨ fmt = .f32 then .f32 reads else .u16 (reads.map lowHalf)

/-! The host's own steps. -/

/-- The host begins a call (R162, R166). A frame of another encoding gives "no result" and the block is not driven (R169). -/
def startCall (c : Call) (s : State) : Host.Outcome State Fault Refusal :=
  match c with
  | .program accesses => .next (s.openPhase .program accesses)
  | .encode frame cfg =>
    if frame.wf then
      match frameWords frame.data with
      | none => .next (s.finish .noResult)
      | some (fmt, words) =>
        .next (s.openPhase (.encodeGrid fmt frame.width frame.height) (encodeSetup cfg fmt ++ words.flatMap encodeSample))
    else .refused .illFormedFrame
  | .decode payload fmt => .next (s.openPhase (.decodeHeader payload fmt) (decodeSetup payload fmt (s.block.get .ctrl)))

/-- ENCODE_FRAME after the samples: `compress_grid` with `reg[CTRL].EFFORT` (log entry 13), then "no result" (R163) or
the header. -/
def hostCompress (fmt : SampleFmt) (w h : Nat) (s : State) : State :=
  match Config.codec.compress (s.host.reads.map lowHalf) w h s.block.effort with
  | none => s.finish .noResult
  | some bytes => s.openPhase (.encodeHeader fmt bytes) headerReads

/-- DECODE_FRAME after HDEC: the typed errors of `STATUS.ERR` 2 and 3, else the read of HDR_LEN (R166, R167). -/
def hostJudgeHeader (payload : List Byte) (fmt : SampleFmt) (s : State) : State :=
  if statusErr (s.host.reads.getD 0 0) = 2 then s.finish (.decodeFailed .unsupportedFormat)
  else if statusErr (s.host.reads.getD 0 0) = 3 then s.finish (.decodeFailed .payloadCorrupt)
  else s.openPhase (.decodeLength payload fmt) [rd .hdrLen]

/-- DECODE_FRAME after the header: `decompress_grid` and `dims_ok`, each failing with PayloadCorrupt (R166, R194), then the
codes. -/
def hostDecompress (payload : List Byte) (fmt : SampleFmt) (s : State) : State :=
  match Config.codec.decompress (payload.drop (s.host.reads.getD 0 0).toNat) with
  | none => s.finish (.decodeFailed .payloadCorrupt)
  | some (w, h, grid) =>
    if dimsOk Config.codec w h grid then s.openPhase (.decodeGrid fmt w h) (grid.flatMap decodeSample)
    else s.finish (.decodeFailed .payloadCorrupt)

/-- The host's step when every access it issued is done: the next phase of the open call, or the next call, or nothing (R195
"Between commands it is idle and keeps all its state"; log entry 22). Calls never interleave on an instance (R171; log entry
14). -/
def hostAdvance (s : State) : Host.Outcome State Fault Refusal :=
  match s.host.phase with
  | .idle =>
    match s.host.calls with
    | [] => .next s
    | c :: _ => startCall c s.dropCall
  | .program => .next (s.finish (.readValues s.host.reads))
  | .encodeGrid fmt w h => .next (hostCompress fmt w h s)
  | .encodeHeader fmt bytes => .next (s.finish (.encoded (headerFromReads s.host.reads ++ bytes) fmt))
  | .decodeHeader payload fmt => .next (hostJudgeHeader payload fmt s)
  | .decodeLength payload fmt => .next (hostDecompress payload fmt s)
  | .decodeGrid fmt w h => .next (s.finish (.decoded ⟨w, h, decodedData s.block.lawTag fmt s.host.reads⟩))

/-- The machine's next step: the oldest access the host has issued (R61), else the host's own step. -/
def nextStep (s : State) : Host.Outcome State Fault Refusal :=
  match s.host.port with
  | a :: rest => performAccess a (s.withPort rest)
  | [] => hostAdvance s

end Sys2Proof.Machine
end

