-- ==== Sys2Proof/Machine/Step.lean ====
section
/-! DEFINITION. The step, and the placing of a command word where the step takes its next one. -/

namespace Sys2Proof.Machine

/-- One step of the machine: one host access with the whole command it may start (R6, R38, R56), or one step of the host's
own. -/
def step (s : State) : Host.Outcome State Fault Refusal := nextStep s

/-- The machine with a write of the word `w` to CMD as the next access of the host: the block fetches nothing (R22, R64), and
a command runs because the host writes it. Log entry 7. -/
def State.withFetchWord (s : State) (_nbits w : Nat) : State :=
  s.withPort (wr .cmd (BitVec.ofNat 32 w) :: s.host.port)

end Sys2Proof.Machine
end

