-- ==== Sys2Proof/Machine/FrameSpec.lean ====
section
/-! DEFINITION. What the host procedures return, as functions of their arguments (R162 to R169): the clear definition that
the host agent's run over the register port is measured against. `derive_params`, the byte order and the container codec are
arguments here, so that a claim may assume the named hypotheses of R160 and R101 of them. -/

namespace Sys2Proof.Machine

/-- The law SELECT chooses for a frame (R91). -/
def frameLaw (fmt : SampleFmt) (m q : Word) : Byte :=
  match fmt with
  | .f32 => if f32Gt m 0 && f32Gt q 0 then 1 else 0
  | .u16 => 0

/-- The parameters DERIVE gives under a law (R95). -/
def frameParams (deriveParams : Word → Word → Word × Word) (law : Byte) (m q : Word) : Word × Word :=
  if law = 1 then deriveParams m q else (0, 0)

/-- The code of one sample, given as its DIN word (R105). -/
def frameCode (law : Byte) (fmt : SampleFmt) (a b m x : Word) : Half :=
  if law = 1 then (fwdQuant x a b m).code
  else
    match fmt with
    | .f32 => (fwdRawF32 x).code
    | .u16 => (fwdRawU16 (lowHalf x)).code

/-- The wire header (R78 to R81). -/
def wireHeader (order : Config.ByteOrder) (law : Byte) (a b : Word) : List Byte :=
  if law = 0 then [0x00] else 0x01 :: (wordBytes (wireWord order a) ++ wordBytes (wireWord order b))

/-- ENCODE_FRAME (R162, R163, R164, R169). -/
def encodeFrame (deriveParams : Word → Word → Word × Word) (order : Config.ByteOrder) (codec : Config.Codec) (frame : Frame)
    (cfg : HostConfig) : CallResult :=
  match frameWords frame.data with
  | none => .noResult
  | some (fmt, words) =>
    let law := frameLaw fmt cfg.depthMax cfg.depthQuant
    let p := frameParams deriveParams law cfg.depthMax cfg.depthQuant
    match codec.compress (words.map (frameCode law fmt p.1 p.2 cfg.depthMax)) frame.width frame.height cfg.pngLevel.val with
    | none => .noResult
    | some bytes => .encoded (wireHeader order law p.1 p.2 ++ bytes) fmt

/-- What HDEC takes from a payload (R82, R135, R136): law, A, B and the header's length, or the typed error. -/
def readHeader (order : Config.ByteOrder) (payload : List Byte) : Except DecodeFailure (Byte × Word × Word × Nat) :=
  match payload with
  | [] => .error .payloadCorrupt
  | tag :: _ =>
    if tag = 0 then .ok (0, 0, 0, 1)
    else if tag = 1 then
      if payload.length < 9 then .error .payloadCorrupt
      else .ok (1, wireWord order (payloadWord payload 1), wireWord order (payloadWord payload 5), 9)
    else .error .unsupportedFormat

/-- The depth of one code (R113). -/
def frameDepth (law : Byte) (fmt : SampleFmt) (a b m : Word) (k : Half) : Word :=
  if law = 1 then (invQuant k a b m).out
  else
    match fmt with
    | .u16 => (invRawU16 k).out
    | .f32 => (invRawF32 k).out

/-- DECODE_FRAME (R166, R167, R168) on an instance whose DEPTH_MAX holds `m`. -/
def decodeFrame (order : Config.ByteOrder) (codec : Config.Codec) (m : Word) (payload : List Byte) (fmt : SampleFmt) :
    CallResult :=
  match readHeader order payload with
  | .error e => .decodeFailed e
  | .ok (law, a, b, len) =>
    match codec.decompress (payload.drop len) with
    | none => .decodeFailed .payloadCorrupt
    | some (w, h, grid) =>
      if dimsOk codec w h grid then .decoded ⟨w, h, decodedData law fmt (grid.map (frameDepth law fmt a b m))⟩
      else .decodeFailed .payloadCorrupt

end Sys2Proof.Machine
end

