-- ==== Sys2Proof/Machine/Conformance.lean ====
section
/-! DEFINITION. The named hypotheses a claim may assume of the open parameters: of `derive_params` (R101), of the container
codec (R160). The block checks none of them. -/

namespace Sys2Proof.Machine

/-- The exact value of a finite binary32 pattern (R11). -/
def f32Rat (u : Word) : ℚ := (f32SUnits u : ℚ) / 2 ^ 149

/-- The exact value of a decimal (R76). -/
def Decimal.value (x : Decimal) : ℚ := (if x.negative then -1 else 1) * (x.digits : ℚ) / 10 ^ x.places

/-- `r` is the exact value `x` rounded to binary32 with roundTiesToEven (R11): a nearest finite value, the one with the even
pattern if another is as near, and an infinity of the sign of `x` exactly from half a unit in the last place above the
largest finite value, `2^128 - 2^103`, on. -/
def IsRoundedToEven (x : ℚ) (r : Word) : Prop :=
  f32IsNaN r = false ∧
    (f32IsInf r = true ↔ 2 ^ 128 - 2 ^ 103 ≤ |x|) ∧
    (f32IsInf r = true → (f32Sign r = true ↔ x < 0)) ∧
    (f32IsFinite r = true → ∀ c : Word, f32IsFinite c = true →
      |f32Rat r - x| ≤ |f32Rat c - x| ∧ (|f32Rat r - x| = |f32Rat c - x| → f32Rat c ≠ f32Rat r → f32Mag r % 2 = 0))

/-- `k = A/d - B` in exact arithmetic (R102). Log entry 23. -/
def exactCode (a b d : ℚ) : ℚ := a / d - b

/-- `d = A/(k + B)` in exact arithmetic (R102). When `k + B = 0` there is no such value, and this is 0, as the division of the
rationals has it: the model's choice (DESIGN CHOICE), log entry 28. -/
def exactDepth (a b k : ℚ) : ℚ := a / (k + b)

/-- `fwd(d)` of R101: the code R106 gives with `(A, B) = derive_params(M, Q)` and DEPTH_MAX = M. -/
def conformFwd (dp : Word → Word → Word × Word) (m q d : Word) : Half := (fwdQuant d (dp m q).1 (dp m q).2 m).code

/-- `inv(k)` of R101: the f32 result R114 gives for code `k`. -/
def conformInv (dp : Word → Word → Word × Word) (m q : Word) (k : Half) : Word := (invQuant k (dp m q).1 (dp m q).2 m).out

/-- The unrounded code of R101: `fsub32(fdiv32(A, d), B)`. -/
def unroundedCode (dp : Word → Word → Word × Word) (m q d : Word) : Word := fsub32 (fdiv32 (dp m q).1 d) (dp m q).2

/-- H_range (R101). -/
def HRange (dp : Word → Word → Word × Word) (m q : Word) : Prop :=
  ∀ d : Word, f32Le q d = true → f32Le d m = true →
    f32IsNaN (unroundedCode dp m q d) = false ∧
      ∃ c : Int, roundHalfAway (unroundedCode dp m q d) = .int c ∧ 1 ≤ c ∧ c ≤ 65535

/-- H_ends(k_lo, k_hi) (R101). -/
def HEnds (dp : Word → Word → Word × Word) (m q : Word) (kLo kHi : Half) : Prop :=
  1 ≤ kLo.toNat ∧ kLo.toNat < kHi.toNat ∧ conformFwd dp m q m = kLo ∧ conformFwd dp m q q = kHi

/-- H_mutual (R101). The source says it "for all in-range depth", and R101 that it holds vacuously when `[Q, M]` is empty, so it
is asked only when `Q <= M`. Log entry 10. -/
def HMutual (dp : Word → Word → Word × Word) (m q : Word) : Prop :=
  f32Le q m = true → ∀ k : Half, (conformFwd dp m q m).toNat ≤ k.toNat → k.toNat ≤ (conformFwd dp m q q).toNat →
    conformFwd dp m q (conformInv dp m q k) = k

/-- The exact real step between the codes `k` and `k + 1` (R101). Where `k + B = 0` or `k + 1 + B = 0`: log entry 28. -/
def exactStep (dp : Word → Word → Word × Word) (m q : Word) (k : Nat) : ℚ :=
  exactDepth (f32Rat (dp m q).1) (f32Rat (dp m q).2) k - exactDepth (f32Rat (dp m q).1) (f32Rat (dp m q).2) (k + 1)

/-- H_step (R101): for consecutive codes in `fwd(M)..fwd(Q)` the f32 step is positive, at most Q at the near end, and the
exact step does not increase. It speaks of the real values of A and B, so both are finite; and an infinite near-end step is not
at most Q, so the farther of its two depths is finite. Log entry 20. The f32 step is the exact difference of the two f32 depths,
not `fsub32` of them: the model's choice (DESIGN CHOICE), log entry 25. -/
def HStep (dp : Word → Word → Word × Word) (m q : Word) : Prop :=
  f32IsFinite (dp m q).1 = true ∧ f32IsFinite (dp m q).2 = true ∧
    (∀ k : Nat, (conformFwd dp m q m).toNat ≤ k → k + 1 ≤ (conformFwd dp m q q).toNat →
      f32Lt (conformInv dp m q (BitVec.ofNat 16 (k + 1))) (conformInv dp m q (BitVec.ofNat 16 k)) = true ∧
        (k + 1 = (conformFwd dp m q q).toNat → f32IsFinite (conformInv dp m q (BitVec.ofNat 16 k)) = true ∧
          f32Rat (conformInv dp m q (BitVec.ofNat 16 k)) - f32Rat (conformInv dp m q (BitVec.ofNat 16 (k + 1))) ≤ f32Rat q)) ∧
    (∀ k : Nat, (conformFwd dp m q m).toNat ≤ k → k + 2 ≤ (conformFwd dp m q q).toNat →
      exactStep dp m q (k + 1) ≤ exactStep dp m q k)

/-- H_roundtrip(step_bound) (R101), `step_bound` being a function "that does not decrease in `d`". R101 gives neither its type
nor the depths over which it must not decrease: here it is a function of rationals that does not decrease over all of them,
negative ones too, the model's choice (DESIGN CHOICE, log entry 29). The error is the exact difference of the two f32 depths
(DESIGN CHOICE, log entry 25). -/
def HRoundtrip (dp : Word → Word → Word × Word) (m q : Word) (stepBound : ℚ → ℚ) : Prop :=
  Monotone stepBound ∧
    ∀ d : Word, f32Lt q d = true → f32Lt d m = true →
      f32IsFinite (conformInv dp m q (conformFwd dp m q d)) = true ∧
        |f32Rat (conformInv dp m q (conformFwd dp m q d)) - f32Rat d| ≤ stepBound (f32Rat d)

/-- The codec is lossless (R160). Its determinism is in its type: a function of its arguments. -/
def CodecLossless (c : Config.Codec) : Prop :=
  ∀ grid w h effort bytes, c.compress grid w h effort = some bytes → c.decompress bytes = some (w, h, grid)

/-- The codec fails on a malformed grid and on zero dimensions (R160). -/
def CodecRejectsMalformed (c : Config.Codec) : Prop :=
  ∀ grid w h effort, w * h = 0 ∨ grid.length ≠ w * h → c.compress grid w h effort = none

end Sys2Proof.Machine
end

