-- ==== Sys2Proof/Machine/System.lean ====
section
/-! DEFINITION. Any number of block instances, each with its own register file and its own host thread (R66, R171, R193). Log
entry 16. -/

namespace Sys2Proof.Machine

/-- The instances; an instance is told apart by its place, "by port" (R193). -/
abbrev System := List State

/-- A new instance "starts from reset" (R193, R200). -/
def System.create (sys : System) : System := sys ++ [State.reset]

/-- The instance at place `i` takes a step; a place with no instance leaves the system as it is. -/
def System.stepAt (sys : System) (i : Nat) : Host.Outcome System Fault Refusal :=
  match sys[i]? with
  | none => .next sys
  | some s =>
    match step s with
    | .next t => .next (sys.set i t)
    | .fault f => .fault f
    | .refused r => .refused r

end Sys2Proof.Machine
end

