-- ==== Sys2Proof/Safety.lean ====
section
/-! DEFINITION. The terms the claims use: the legal register files, what a command leaves alone, what becomes of STATUS, and
runs. -/

namespace Sys2Proof.Machine

/-- A register file as the spec lets it be: reserved bits 0 (R39), EFFORT at most 9 (R24), LAW 0 or 1 (R29), HDR_LEN 0, 1 or 9
(R34), ERR at most 4 (R36). -/
abbrev Block.Legal (b : Block) : Prop :=
  b.ctrl &&& RegName.implemented .ctrl = b.ctrl ∧
  b.law &&& RegName.implemented .law = b.law ∧
  b.hdrW2 &&& RegName.implemented .hdrW2 = b.hdrW2 ∧
  b.hdrLen &&& RegName.implemented .hdrLen = b.hdrLen ∧
  b.status &&& RegName.implemented .status = b.status ∧
  b.effort ≤ 9 ∧
  (b.get .law = 0 ∨ b.get .law = 1) ∧
  (b.get .hdrLen = 0 ∨ b.get .hdrLen = 1 ∨ b.get .hdrLen = 9) ∧
  b.err.toNat ≤ 4

/-- Every register but those listed reads as before. -/
abbrev OnlyWrites (written : List RegName) (b c : Block) : Prop := ∀ r, r ∉ written → c.get r = b.get r

/-- STATUS afterwards, field by field (R36): ERR and LAST_INV as given, each sticky bit set if it was set or is listed. -/
abbrev StatusBecomes (b c : Block) (err : BitVec 4) (lastInv : Bool) (raised : List Sticky) : Prop :=
  c.err = err ∧ c.lastInv = lastInv ∧ ∀ k, c.sticky k = (b.sticky k || decide (k ∈ raised))

/-- The registers a command may write (R72, column "writes"). -/
def commandWrites : Instr → List RegName
  | .nop => [.status]
  | .select => [.law, .status]
  | .derive => [.paramA, .paramB, .status]
  | .fwd => [.dout, .status]
  | .inv => [.dout, .status]
  | .henc => [.hdrW0, .hdrW1, .hdrW2, .hdrLen, .status]
  | .hdec => [.law, .paramA, .paramB, .hdrLen, .status]
  | .clrst => [.status, .hdrLen]

/-- Two register files agree on what a command reads (R72, column "reads"). -/
def AgreeOnOperands (i : Instr) (b c : Block) : Prop :=
  match i with
  | .nop => True
  | .select => b.srcFmt = c.srcFmt ∧ b.get .depthMax = c.get .depthMax ∧ b.get .depthQuant = c.get .depthQuant
  | .derive => b.get .law = c.get .law ∧ b.get .depthMax = c.get .depthMax ∧ b.get .depthQuant = c.get .depthQuant
  | .fwd => b.get .law = c.get .law ∧ b.srcFmt = c.srcFmt ∧ b.get .din = c.get .din ∧ b.get .depthMax = c.get .depthMax ∧
      b.get .paramA = c.get .paramA ∧ b.get .paramB = c.get .paramB
  | .inv => b.get .law = c.get .law ∧ b.rawOutFmt = c.rawOutFmt ∧ b.get .din = c.get .din ∧
      b.get .depthMax = c.get .depthMax ∧ b.get .paramA = c.get .paramA ∧ b.get .paramB = c.get .paramB
  | .henc => b.get .law = c.get .law ∧ b.get .paramA = c.get .paramA ∧ b.get .paramB = c.get .paramB
  | .hdec => b.get .hdrW0 = c.get .hdrW0 ∧ b.get .hdrW1 = c.get .hdrW1 ∧ b.get .hdrW2 = c.get .hdrW2 ∧
      b.get .hdrAvail = c.get .hdrAvail
  | .clrst => True

/-- The machine with another value in DIN. -/
def State.withDin (s : State) (v : Word) : State := s.withBlock (s.block.put .din v)

/-- The host has nothing open and nothing left to do: "the block is quiescent" (R172). -/
abbrev State.Quiescent (s : State) : Prop := s.host.port = [] ∧ s.host.phase = .idle ∧ s.host.calls = []

/-- The machine gets from `s` to `t` in some number of steps. -/
def Reaches (s t : State) : Prop := ∃ n, Host.Core.run Sys2Proof.core n s = .next t

/-- `t` is `s` with the host's current call finished: its result given, no call open, the block's port empty. -/
abbrev FinishesCall (s t : State) (rest : List Call) (result : CallResult) : Prop :=
  t.host.port = [] ∧ t.host.phase = .idle ∧ t.host.calls = rest ∧ t.host.results = s.host.results ++ [result]

/-- The next access of the host writes the command word of `i` to CMD. -/
abbrev State.Issues (s : State) (i : Instr) : Prop := ∃ w rest, s.host.port = wr .cmd w :: rest ∧ decode w = .ok i

end Sys2Proof.Machine
end

