-- ==== Sys2Proof/Certificates/Slice0/Obligations.lean ====
section
/-! DEFINITION. The statements about the model, for the provers. Each docstring names the rules of spec/ it formalises. -/

open Sys2Proof Sys2Proof.Machine

/-! Reset. -/

/-- R42: every register after reset, and the fields of CTRL. -/
def Obligations.ResetRegisterValues : Prop :=
  State.reset.block.get .id = 0x44510007 ∧ State.reset.block.get .ctrl = 0x00000090 ∧
  State.reset.block.get .depthMax = 0x41200000 ∧ State.reset.block.get .depthQuant = 0x42C80000 ∧
  State.reset.block.get .paramA = 0 ∧ State.reset.block.get .paramB = 0 ∧ State.reset.block.get .law = 0 ∧
  State.reset.block.get .din = 0 ∧ State.reset.block.get .dout = 0 ∧ State.reset.block.get .hdrW0 = 0 ∧
  State.reset.block.get .hdrW1 = 0 ∧ State.reset.block.get .hdrW2 = 0 ∧ State.reset.block.get .hdrLen = 0 ∧
  State.reset.block.get .hdrAvail = 0 ∧ State.reset.block.get .status = 0 ∧ State.reset.block.get .cmd = 0 ∧
  State.reset.block.srcFmt = .f32 ∧ State.reset.block.rawOutFmt = .u16 ∧ State.reset.block.effort = 9

/-- The invariant of `StepKeepsLegal` holds at reset. That the host agent has nothing to do at reset is the model's choice
(log entry 6). -/
def Obligations.ResetIsLegal : Prop := State.reset.block.Legal ∧ State.reset.Quiescent

/-- Every step keeps the register file legal: reserved bits 0 (R39), EFFORT at most 9 (R24), LAW 0 or 1 (R29), HDR_LEN 0, 1 or 9
(R34), ERR at most 4 (R36). -/
def Obligations.StepKeepsLegal : Prop :=
  ∀ s t : State, s.block.Legal → step s = .next t → t.block.Legal

/-! Command words. -/

/-- R73: the opcode map, both ways. -/
def Obligations.DecodeAcceptsExactlyTheOpcodeMap : Prop :=
  ∀ (w : Word) (i : Instr), decode w = .ok i ↔
    (w, i) ∈ [((0x00000000 : Word), Instr.nop), (0x00000001, .select), (0x00000002, .derive), (0x00000003, .fwd),
      (0x00000004, .inv), (0x00000005, .henc), (0x00000006, .hdec), (0x00000007, .clrst)]

/-- Words written out bit by bit from R70 and R73. -/
def Obligations.WordsWrittenOutDecode : Prop :=
  decode 0b00000000000000000000000000000000 = .ok .nop ∧
  decode 0b00000000000000000000000000000001 = .ok .select ∧
  decode 0b00000000000000000000000000000100 = .ok .inv ∧
  decode 0b00000000000000000000000000000110 = .ok .hdec ∧
  decode 0b00000000000000000000000000001000 = .error .unknownOpcode ∧
  decode 0b00000000000000000000000100000000 = .error .reservedBitsSet

/-- Decoding an encoded command gives it back. -/
def Obligations.DecodeReadsEncodedCommand : Prop :=
  ∀ i : Instr, i.wf = true → decode (encode i) = .ok i ∧ decodeTableWord 32 (encode i).toNat = some i

/-- R71, R74: a word with RSVD not 0, or with a reserved opcode, is IllegalCommand and changes nothing but STATUS. -/
def Obligations.EveryOtherWordIsIllegalCommand : Prop :=
  ∀ (s : State) (w : Word) (rest : List Access), s.host.port = wr .cmd w :: rest →
    (w.extractLsb' 8 24 ≠ 0 ∨ 8 ≤ (w.extractLsb' 0 8).toNat) →
    ∃ t, step s = .next t ∧ t.host = (s.withPort rest).host ∧ OnlyWrites [.status] s.block t.block ∧
      StatusBecomes s.block t.block 4 s.block.lastInv [.illegal]

/-- A step with a write of a decodable word to CMD is `exec` of that command, the access taken off the port; and the word
placed by `withFetchWord` runs next; that placing is the model's choice (DESIGN CHOICE, log entry 7). -/
def Obligations.StepRunsDecodedCommand : Prop :=
  (∀ (s : State) (w : Word) (i : Instr) (rest : List Access), s.host.port = wr .cmd w :: rest → decode w = .ok i →
    step s = exec i (s.withPort rest)) ∧
  (∀ (s : State) (i : Instr), step (s.withFetchWord 32 (encode i).toNat) = exec i s)

/-! Control commands. -/

/-- R150. -/
def Obligations.NopRecordsSuccessOnly : Prop :=
  decode 0x00000000 = .ok .nop ∧
  ∀ s : State, ∃ t, exec .nop s = .next t ∧ t.host = s.host ∧ OnlyWrites [.status] s.block t.block ∧
    StatusBecomes s.block t.block 0 s.block.lastInv []

/-- R151. -/
def Obligations.ClrstClearsStatusAndLength : Prop :=
  decode 0x00000007 = .ok .clrst ∧
  ∀ s : State, ∃ t, exec .clrst s = .next t ∧ t.host = s.host ∧ OnlyWrites [.status, .hdrLen] s.block t.block ∧
    t.block.get .status = 0 ∧ t.block.get .hdrLen = 0 ∧ t.block.err = 0 ∧ t.block.lastInv = false ∧
    ∀ k, t.block.sticky k = false

/-! SELECT and DERIVE. -/

/-- R91: the law chosen, the advisory outcome, and all that changes. -/
def Obligations.SelectChoosesTheLaw : Prop :=
  decode 0x00000001 = .ok .select ∧
  ∀ s : State, ∃ t, exec .select s = .next t ∧ t.host = s.host ∧ OnlyWrites [.law, .status] s.block t.block ∧
    (s.block.srcFmt = .f32 → f32Gt (s.block.get .depthMax) 0 = true → f32Gt (s.block.get .depthQuant) 0 = true →
      t.block.get .law = 1 ∧ StatusBecomes s.block t.block 0 s.block.lastInv []) ∧
    (s.block.srcFmt = .f32 → ¬(f32Gt (s.block.get .depthMax) 0 = true ∧ f32Gt (s.block.get .depthQuant) 0 = true) →
      t.block.get .law = 0 ∧ StatusBecomes s.block t.block 1 s.block.lastInv [.fallback]) ∧
    (s.block.srcFmt = .u16 → t.block.get .law = 0 ∧ StatusBecomes s.block t.block 0 s.block.lastInv [])

/-- The corner cases of R91 on the patterns themselves: for a float source the quantized law is chosen exactly when DEPTH_MAX
and DEPTH_QUANT both hold a pattern from the smallest subnormal to `+inf`; a NaN, either zero or a set sign bit gives RAW. -/
def Obligations.SelectTestsPositivePatterns : Prop :=
  ∀ s t : State, s.block.srcFmt = .f32 → exec .select s = .next t →
    (t.block.get .law = 1 ↔
      (0 < (s.block.get .depthMax).toNat ∧ (s.block.get .depthMax).toNat ≤ 0x7F800000) ∧
      (0 < (s.block.get .depthQuant).toNat ∧ (s.block.get .depthQuant).toNat ≤ 0x7F800000))

/-- R95, with `derive_params` open (R100). -/
def Obligations.DeriveWritesParameters : Prop :=
  decode 0x00000002 = .ok .derive ∧
  ∀ s : State, ∃ t, exec .derive s = .next t ∧ t.host = s.host ∧ OnlyWrites [.paramA, .paramB, .status] s.block t.block ∧
    StatusBecomes s.block t.block 0 s.block.lastInv [] ∧
    (s.block.lawTag = 1 →
      t.block.get .paramA = (Config.deriveParams (s.block.get .depthMax) (s.block.get .depthQuant)).1 ∧
      t.block.get .paramB = (Config.deriveParams (s.block.get .depthMax) (s.block.get .depthQuant)).2) ∧
    (s.block.lawTag ≠ 1 → t.block.get .paramA = 0 ∧ t.block.get .paramB = 0)

/-! FWD. -/

/-- R108, R110: the raw law passes a u16 sample through. -/
def Obligations.FwdPassesU16Through : Prop :=
  ∀ s : State, s.block.lawTag ≠ 1 → s.block.srcFmt = .u16 →
    ∃ t, exec .fwd s = .next t ∧ t.host = s.host ∧ OnlyWrites [.dout, .status] s.block t.block ∧
      (t.block.get .dout).toNat = (s.block.get .din).toNat % 65536 ∧
      StatusBecomes s.block t.block 0 (decide ((s.block.get .din).toNat % 65536 = 0)) []

/-- R107: the raw law scales a float sample to millimetres. -/
def Obligations.FwdScalesToMillimetres : Prop :=
  ∀ s : State, s.block.lawTag ≠ 1 → s.block.srcFmt = .f32 →
    ∃ t, exec .fwd s = .next t ∧ t.host = s.host ∧ OnlyWrites [.dout, .status] s.block t.block ∧
      (f32IsNaN (s.block.get .din) = true ∨ f32Eq (s.block.get .din) 0 = true →
        t.block.get .dout = 0 ∧ StatusBecomes s.block t.block 0 true []) ∧
      (f32Lt (s.block.get .din) 0 = true → t.block.get .dout = 0 ∧ StatusBecomes s.block t.block 0 true [.clamped]) ∧
      (f32Gt (s.block.get .din) 0 = true →
        ((t.block.get .dout).toNat : Int) = clampInt (roundHalfAway (fmul32 (s.block.get .din) 0x447A0000)) 1 65535 ∧
        StatusBecomes s.block t.block 0 false
          (if roundHalfAway (fmul32 (s.block.get .din) 0x447A0000) = .int ((t.block.get .dout).toNat : Int) then []
            else [.clamped]))

/-- R106, R110: the inverse-depth law, case by case, with its clamps, its saturation and its NaN intermediate. -/
def Obligations.FwdFollowsTheInverseDepthLaw : Prop :=
  ∀ s : State, s.block.lawTag = 1 → s.block.srcFmt = .f32 →
    ∃ t, exec .fwd s = .next t ∧ t.host = s.host ∧ OnlyWrites [.dout, .status] s.block t.block ∧
      (f32IsNaN (s.block.get .din) = true ∨ f32Eq (s.block.get .din) 0 = true →
        t.block.get .dout = 0 ∧ StatusBecomes s.block t.block 0 true []) ∧
      (f32Lt (s.block.get .din) 0 = true → t.block.get .dout = 0 ∧ StatusBecomes s.block t.block 0 true [.clamped]) ∧
      (∀ x : Word, ∀ upper : Bool, f32Gt (s.block.get .din) 0 = true →
        upper = (f32Gt (s.block.get .depthMax) 0 && f32Gt (s.block.get .din) (s.block.get .depthMax)) →
        x = (if upper then s.block.get .depthMax else s.block.get .din) →
        (f32IsNaN (fsub32 (fdiv32 (s.block.get .paramA) x) (s.block.get .paramB)) = true →
          t.block.get .dout = 0 ∧
          StatusBecomes s.block t.block 0 true (if upper then [.clamped, .nan] else [.nan])) ∧
        (f32IsNaN (fsub32 (fdiv32 (s.block.get .paramA) x) (s.block.get .paramB)) = false →
          ((t.block.get .dout).toNat : Int) =
            clampInt (roundHalfAway (fsub32 (fdiv32 (s.block.get .paramA) x) (s.block.get .paramB))) 1 65535 ∧
          StatusBecomes s.block t.block 0 false
            (if upper = false ∧ roundHalfAway (fsub32 (fdiv32 (s.block.get .paramA) x) (s.block.get .paramB)) =
                .int ((t.block.get .dout).toNat : Int) then [] else [.clamped])))

/-- R111. -/
def Obligations.FwdQuantizedOnU16IsIllegal : Prop :=
  ∀ s : State, s.block.lawTag = 1 → s.block.srcFmt = .u16 →
    ∃ t, exec .fwd s = .next t ∧ t.host = s.host ∧ OnlyWrites [.status] s.block t.block ∧
      StatusBecomes s.block t.block 4 s.block.lastInv [.illegal]

/-- When FWD completes (every law and format but R111's), its result is a 16-bit code, LAST_INV says whether the code is the
sentinel, and only S_CLAMPED and S_NAN may be raised (R105, R110). -/
def Obligations.FwdCompletesWithACode : Prop :=
  ∀ s : State, ¬(s.block.lawTag = 1 ∧ s.block.srcFmt = .u16) →
    ∃ t, exec .fwd s = .next t ∧ t.host = s.host ∧ OnlyWrites [.dout, .status] s.block t.block ∧
      (t.block.get .dout).toNat ≤ 65535 ∧ t.block.lastInv = decide (t.block.get .dout = 0) ∧ t.block.err = 0 ∧
      (∀ k, s.block.sticky k = true → t.block.sticky k = true) ∧
      (∀ k, k ≠ .clamped → k ≠ .nan → t.block.sticky k = s.block.sticky k)

/-- A valid float sample never gives the sentinel (decision D8): above 0, and with no NaN intermediate, the code is in
`1..65535`, under either law. -/
def Obligations.ValidSampleNeverGivesTheSentinel : Prop :=
  (∀ x a b m : Word, f32Gt x 0 = true → (fwdQuant x a b m).nan = false →
    1 ≤ (fwdQuant x a b m).code.toNat ∧ (fwdQuant x a b m).code.toNat ≤ 65535) ∧
  (∀ x : Word, f32Gt x 0 = true → 1 ≤ (fwdRawF32 x).code.toNat ∧ (fwdRawF32 x).code.toNat ≤ 65535)

/-- When the NaN intermediate of R109 arises, for a finite sample above 0. -/
def Obligations.FwdNanIntermediateArises : Prop :=
  ∀ x a b : Word, f32IsFinite x = true → f32Gt x 0 = true →
    (f32IsNaN (fsub32 (fdiv32 a x) b) = true ↔
      f32IsNaN a = true ∨ f32IsNaN b = true ∨
      (f32IsInf (fdiv32 a x) = true ∧ f32IsInf b = true ∧ f32Sign (fdiv32 a x) = f32Sign b))

/-- R123: beyond a bound FWD acts as at the bound, but for S_CLAMPED. -/
def Obligations.FwdClampsToTheBounds : Prop :=
  ∀ (s : State) (d : Word), s.block.lawTag = 1 → s.block.srcFmt = .f32 → f32Gt (s.block.get .depthMax) 0 = true →
    (f32Gt d (s.block.get .depthMax) = true →
      ∃ t u, exec .fwd (s.withDin d) = .next t ∧ exec .fwd (s.withDin (s.block.get .depthMax)) = .next u ∧
        (∀ r, r ≠ .din → r ≠ .status → t.block.get r = u.block.get r) ∧ t.block.err = u.block.err ∧
        t.block.lastInv = u.block.lastInv ∧ ∀ k, k ≠ .clamped → t.block.sticky k = u.block.sticky k) ∧
    (f32Lt d 0 = true →
      ∃ t u, exec .fwd (s.withDin d) = .next t ∧ exec .fwd (s.withDin 0) = .next u ∧
        t.block.get .dout = 0 ∧ u.block.get .dout = 0 ∧
        (∀ r, r ≠ .din → r ≠ .status → t.block.get r = u.block.get r) ∧ t.block.err = u.block.err ∧
        t.block.lastInv = u.block.lastInv ∧ ∀ k, k ≠ .clamped → t.block.sticky k = u.block.sticky k)

/-- Under finite parameters with A above 0, the codes of the inverse-depth law do not grow with depth ("codes grow toward the
camera", R101). -/
def Obligations.ForwardCodesFallWithDepth : Prop :=
  ∀ x y a b m : Word, f32IsFinite a = true → f32Gt a 0 = true → f32IsFinite b = true → f32Gt x 0 = true →
    f32Le x y = true → (fwdQuant y a b m).code.toNat ≤ (fwdQuant x a b m).code.toNat

/-! INV. -/

/-- R114, R118: the inverse of the inverse-depth law, case by case. -/
def Obligations.InvFollowsTheInverseDepthLaw : Prop :=
  ∀ (s : State) (k : Nat) (q : Word), s.block.lawTag = 1 → k = (s.block.get .din).toNat % 65536 →
    q = fdiv32 (s.block.get .paramA) (fadd32 (f32OfNat k) (s.block.get .paramB)) →
    ∃ t, exec .inv s = .next t ∧ t.host = s.host ∧ OnlyWrites [.dout, .status] s.block t.block ∧
      (k = 0 → t.block.get .dout = 0x7FC00000 ∧ StatusBecomes s.block t.block 0 true []) ∧
      (k ≠ 0 → f32IsNaN q = true → t.block.get .dout = 0x7FC00000 ∧ StatusBecomes s.block t.block 0 true [.nan]) ∧
      (k ≠ 0 → f32Lt q 0 = true → t.block.get .dout = 0 ∧ StatusBecomes s.block t.block 0 false [.clamped]) ∧
      (k ≠ 0 → f32Eq q 0 = true → t.block.get .dout = 0 ∧ StatusBecomes s.block t.block 0 false []) ∧
      (k ≠ 0 → f32Gt q 0 = true → f32Gt (s.block.get .depthMax) 0 = true → f32Gt q (s.block.get .depthMax) = true →
        t.block.get .dout = s.block.get .depthMax ∧ StatusBecomes s.block t.block 0 false [.clamped]) ∧
      (k ≠ 0 → f32Gt q 0 = true → ¬(f32Gt (s.block.get .depthMax) 0 = true ∧ f32Gt q (s.block.get .depthMax) = true) →
        t.block.get .dout = q ∧ StatusBecomes s.block t.block 0 false [])

/-- R115: when the NaN quotient arises, for a code `k`. -/
def Obligations.InvNanQuotientArises : Prop :=
  ∀ (k : Nat) (a b : Word), k ≤ 65535 →
    (f32IsNaN (fdiv32 a (fadd32 (f32OfNat k) b)) = true ↔
      f32IsNaN a = true ∨ f32IsNaN b = true ∨
      (f32IsZero a = true ∧ f32IsZero (fadd32 (f32OfNat k) b) = true) ∨
      (f32IsInf a = true ∧ f32IsInf (fadd32 (f32OfNat k) b) = true))

/-- The depth INV gives under the quantized law is the invalid value, or lies in `[+0.0, DEPTH_MAX]` with no upper end when
DEPTH_MAX is not above 0 ("clamped to `[0, depth_max]`", R114). -/
def Obligations.InvDepthStaysInRange : Prop :=
  ∀ s : State, s.block.lawTag = 1 →
    ∃ t, exec .inv s = .next t ∧
      ((t.block.get .dout = 0x7FC00000 ∧ t.block.lastInv = true) ∨
        (t.block.lastInv = false ∧ f32IsNaN (t.block.get .dout) = false ∧ f32Sign (t.block.get .dout) = false ∧
          (f32Gt (s.block.get .depthMax) 0 = true → f32Le (t.block.get .dout) (s.block.get .depthMax) = true)))

/-- R116: the raw law gives a code back as a u16 sample. -/
def Obligations.InvPassesU16Through : Prop :=
  ∀ s : State, s.block.lawTag ≠ 1 → s.block.rawOutFmt = .u16 →
    ∃ t, exec .inv s = .next t ∧ t.host = s.host ∧ OnlyWrites [.dout, .status] s.block t.block ∧
      (t.block.get .dout).toNat = (s.block.get .din).toNat % 65536 ∧
      StatusBecomes s.block t.block 0 (decide ((s.block.get .din).toNat % 65536 = 0)) []

/-- R117: the raw law gives a code back as metres, in `0.001..65.535` as rounded to f32 and never clamped. -/
def Obligations.InvScalesToMetres : Prop :=
  (∀ (s : State) (k : Nat), s.block.lawTag ≠ 1 → s.block.rawOutFmt = .f32 → k = (s.block.get .din).toNat % 65536 →
    ∃ t, exec .inv s = .next t ∧ t.host = s.host ∧ OnlyWrites [.dout, .status] s.block t.block ∧
      (k = 0 → t.block.get .dout = 0x7FC00000 ∧ StatusBecomes s.block t.block 0 true []) ∧
      (k ≠ 0 → t.block.get .dout = fdiv32 (f32OfNat k) 0x447A0000 ∧ StatusBecomes s.block t.block 0 false [] ∧
        f32Le 0x3A83126F (t.block.get .dout) = true ∧ f32Le (t.block.get .dout) 0x428311EC = true)) ∧
  fdiv32 (f32OfNat 1235) 0x447A0000 = 0x3F9E147B ∧ fdiv32 (f32OfNat 1500) 0x447A0000 = 0x3FC00000

/-! Properties of the family. -/

/-- R122: invalid samples stay invalid both ways, for every parameter value. -/
def Obligations.InvalidSamplesArePreserved : Prop :=
  (∀ s : State, s.block.srcFmt = .f32 →
    f32IsNaN (s.block.get .din) = true ∨ s.block.get .din = 0x00000000 ∨ s.block.get .din = 0x80000000 →
    ∃ t, exec .fwd s = .next t ∧ t.block.get .dout = 0 ∧ t.block.lastInv = true) ∧
  (∀ s : State, s.block.srcFmt = .u16 → s.block.lawTag ≠ 1 → (s.block.get .din).toNat % 65536 = 0 →
    ∃ t, exec .fwd s = .next t ∧ t.block.get .dout = 0 ∧ t.block.lastInv = true) ∧
  (∀ s : State, (s.block.get .din).toNat % 65536 = 0 →
    ∃ t, exec .inv s = .next t ∧ t.block.lastInv = true ∧
      t.block.get .dout = (if s.block.lawTag ≠ 1 ∧ s.block.rawOutFmt = .u16 then 0x00000000 else 0x7FC00000))

/-- Raw exactness for 16-bit samples (R124, first point): INV of the code FWD gives returns the sample. -/
def Obligations.U16SampleRoundTripIsExact : Prop :=
  ∀ (s : State) (x : Half), s.block.lawTag ≠ 1 → s.block.srcFmt = .u16 → s.block.rawOutFmt = .u16 →
    s.block.get .din = x.setWidth 32 →
    ∃ t u, exec .fwd s = .next t ∧ exec .inv (t.withDin (t.block.get .dout)) = .next u ∧ u.block.get .dout = x.setWidth 32

/-- Raw round trip of a float sample from 0.0005 to 65.535 metres (R124, second point): the error is at most half a millimetre,
plus the two binary32 roundings, which are at most 2^-9 millimetre and 2^-18 metre here. -/
def Obligations.F32RawRoundTripError : Prop :=
  ∀ s : State, s.block.lawTag ≠ 1 → s.block.srcFmt = .f32 → s.block.rawOutFmt = .f32 →
    f32Le 0x3A03126F (s.block.get .din) = true → f32Le (s.block.get .din) 0x428311EC = true →
    ∃ t u, exec .fwd s = .next t ∧ exec .inv (t.withDin (t.block.get .dout)) = .next u ∧
      f32IsFinite (u.block.get .dout) = true ∧
      |f32Rat (u.block.get .dout) - f32Rat (s.block.get .din)| ≤ (1 / 2 + 1 / 2 ^ 9) / 1000 + 1 / 2 ^ 18

/-! Headers. -/

/-- R130, with the bytes of R81: the header HENC writes for each law. -/
def Obligations.HencWritesTheWireHeader : Prop :=
  decode 0x00000005 = .ok .henc ∧
  ∀ s : State, ∃ t, exec .henc s = .next t ∧ t.host = s.host ∧
    OnlyWrites [.hdrW0, .hdrW1, .hdrW2, .hdrLen, .status] s.block t.block ∧
    StatusBecomes s.block t.block 0 s.block.lastInv [] ∧
    (s.block.lawTag = 0 → t.block.get .hdrW0 = 0 ∧ t.block.get .hdrW1 = 0 ∧ t.block.get .hdrW2 = 0 ∧
      t.block.get .hdrLen = 1) ∧
    (s.block.lawTag ≠ 0 →
      t.block.get .hdrLen = 9 ∧
      t.block.get .hdrW0 = (s.block.get .paramA).extractLsb' 0 24 ++ (0x01 : Byte) ∧
      t.block.get .hdrW1 = (s.block.get .paramB).extractLsb' 0 24 ++ (s.block.get .paramA).extractLsb' 24 8 ∧
      t.block.get .hdrW2 = ((s.block.get .paramB).extractLsb' 24 8).setWidth 32 ∧
      t.block.hdrByte 0 = 0x01 ∧
      (∀ j < 4, t.block.hdrByte (1 + j) = (s.block.get .paramA).extractLsb' (8 * j) 8) ∧
      (∀ j < 4, t.block.hdrByte (5 + j) = (s.block.get .paramB).extractLsb' (8 * j) 8))

/-- R135, R136: HDEC's checks in their order, what each outcome writes, and that an error changes only STATUS. -/
def Obligations.HdecChecksInOrder : Prop :=
  decode 0x00000006 = .ok .hdec ∧
  ∀ (s : State) (n : Nat) (tag : Byte), n = (s.block.get .hdrAvail).toNat → tag = s.block.hdrByte 0 →
    ∃ t, exec .hdec s = .next t ∧ t.host = s.host ∧
      (n = 0 → OnlyWrites [.status] s.block t.block ∧ StatusBecomes s.block t.block 3 s.block.lastInv [.corrupt]) ∧
      (n ≠ 0 → 2 ≤ tag.toNat →
        OnlyWrites [.status] s.block t.block ∧ StatusBecomes s.block t.block 2 s.block.lastInv [.unsup]) ∧
      (n ≠ 0 → tag = 1 → n < 9 →
        OnlyWrites [.status] s.block t.block ∧ StatusBecomes s.block t.block 3 s.block.lastInv [.corrupt]) ∧
      (n ≠ 0 → tag = 0 →
        OnlyWrites [.law, .paramA, .paramB, .hdrLen, .status] s.block t.block ∧
        StatusBecomes s.block t.block 0 s.block.lastInv [] ∧ t.block.get .law = 0 ∧ t.block.get .paramA = 0 ∧
        t.block.get .paramB = 0 ∧ t.block.get .hdrLen = 1) ∧
      (9 ≤ n → tag = 1 →
        OnlyWrites [.law, .paramA, .paramB, .hdrLen, .status] s.block t.block ∧
        StatusBecomes s.block t.block 0 s.block.lastInv [] ∧ t.block.get .law = 1 ∧ t.block.get .hdrLen = 9 ∧
        t.block.get .paramA = s.block.hdrByte 4 ++ s.block.hdrByte 3 ++ s.block.hdrByte 2 ++ s.block.hdrByte 1 ∧
        t.block.get .paramB = s.block.hdrByte 8 ++ s.block.hdrByte 7 ++ s.block.hdrByte 6 ++ s.block.hdrByte 5)

/-- R140: the header HENC writes, copied into any instance, decodes to the same law and parameters bit for bit. -/
def Obligations.HeaderRoundTripRestoresParameters : Prop :=
  ∀ s : State, s.block.lawTag = 0 ∨ s.block.lawTag = 1 →
    ∃ t, exec .henc s = .next t ∧
      ∀ u : State, (∀ i, i < (t.block.get .hdrLen).toNat → u.block.hdrByte i = t.block.hdrByte i) →
        (t.block.get .hdrLen).toNat ≤ (u.block.get .hdrAvail).toNat →
        ∃ v, exec .hdec u = .next v ∧ v.block.err = 0 ∧
          (s.block.lawTag = 1 → v.block.get .law = 1 ∧ v.block.get .paramA = s.block.get .paramA ∧
            v.block.get .paramB = s.block.get .paramB) ∧
          (s.block.lawTag = 0 → v.block.get .law = 0 ∧ v.block.get .paramA = 0 ∧ v.block.get .paramB = 0)

/-- The round trip of R140 does not depend on `header_byte_order` (decision D5: "claims that only round-trip within this block
are unaffected"). -/
def Obligations.HeaderRoundTripUnderEitherByteOrder : Prop :=
  ∀ (order : Config.ByteOrder) (b c : Block), b.lawTag = 1 →
    (∀ i, i < 9 → c.hdrByte i = (hencBlock order b).hdrByte i) → 9 ≤ (c.get .hdrAvail).toNat →
    (hdecBlock order c).err = 0 ∧ (hdecBlock order c).get .law = 1 ∧
      (hdecBlock order c).get .paramA = b.get .paramA ∧ (hdecBlock order c).get .paramB = b.get .paramB

/-! Rules over all commands and all steps. -/

/-- R180: every command word, legal or not, ends in a next state with success, the advisory outcome (which SELECT alone takes,
R183), or an error that changes nothing but STATUS; no word ends in a trap or stops the machine. -/
def Obligations.EveryCommandEndsInOneOfThreeOutcomes : Prop :=
  ∀ (s : State) (w : Word) (rest : List Access), s.host.port = wr .cmd w :: rest →
    ∃ t, step s = .next t ∧ t.host = (s.withPort rest).host ∧
    (t.block.err = 0 ∨ (t.block.err = 1 ∧ decode w = .ok .select) ∨
      ((t.block.err = 2 ∨ t.block.err = 3 ∨ t.block.err = 4) ∧ OnlyWrites [.status] s.block t.block))

/-- A command writes only the registers of its row in R72. -/
def Obligations.CommandsWriteOnlyTheirRegisters : Prop :=
  ∀ (i : Instr) (s : State), ∃ t, exec i s = .next t ∧ t.host = s.host ∧ OnlyWrites (commandWrites i) s.block t.block

/-- A command depends only on what its row in R72 says it reads (R121, R132, R139): on two machines that agree there it gives
the same code of ERR, raises the same sticky bits, and writes each register with the same value on both or on neither. -/
def Obligations.CommandsDependOnlyOnTheirOperands : Prop :=
  ∀ (i : Instr) (s s' t t' : State), AgreeOnOperands i s.block s'.block → exec i s = .next t → exec i s' = .next t' →
    t.block.err = t'.block.err ∧
    (∀ r, r ≠ .status →
      t.block.get r = t'.block.get r ∨ (t.block.get r = s.block.get r ∧ t'.block.get r = s'.block.get r)) ∧
    (s.block.lastInv = s'.block.lastInv → t.block.lastInv = t'.block.lastInv) ∧
    (∀ k, s.block.sticky k = s'.block.sticky k → t.block.sticky k = t'.block.sticky k)

/-- R120: no command's effect depends on EFFORT. -/
def Obligations.NoCommandReadsEffort : Prop :=
  ∀ (i : Instr) (s : State) (v : Word), (v ^^^ s.block.get .ctrl) &&& 0xFFFFFF0F = 0 →
    ∃ t u, exec i s = .next t ∧ exec i (s.withBlock (s.block.put .ctrl v)) = .next u ∧ t.host = u.host ∧
      ∀ r, r ≠ .ctrl → t.block.get r = u.block.get r

/-- LAW changes only on SELECT and on a successful HDEC (R92, first and third sentences). -/
def Obligations.LawChangesOnlyBySelectOrHdec : Prop :=
  ∀ s t : State, step s = .next t → t.block.get .law ≠ s.block.get .law →
    s.Issues .select ∨ (s.Issues .hdec ∧ t.block.err = 0)

/-- The writers of the STATUS fields (R43): ERR changes only with a command; LAST_INV only with a successful FWD or INV, or with
CLRST, which clears it; a sticky bit is set only by the commands R36 names for it, and cleared only by CLRST or by a write of 1
to it in STATUS. -/
def Obligations.StatusFlagsHaveTheirWriters : Prop :=
  ∀ s t : State, step s = .next t →
    (t.block.err ≠ s.block.err → ∃ w rest, s.host.port = wr .cmd w :: rest) ∧
    (t.block.lastInv ≠ s.block.lastInv →
      ((s.Issues .fwd ∨ s.Issues .inv) ∧ t.block.err = 0) ∨ (s.Issues .clrst ∧ t.block.lastInv = false)) ∧
    (∀ k, s.block.sticky k = false → t.block.sticky k = true →
      match k with
      | .fallback => s.Issues .select
      | .unsup | .corrupt => s.Issues .hdec
      | .illegal => (∃ w rest e, s.host.port = wr .cmd w :: rest ∧ decode w = .error e) ∨ s.Issues .fwd
      | .clamped | .nan => s.Issues .fwd ∨ s.Issues .inv) ∧
    (∀ k, s.block.sticky k = true → t.block.sticky k = false →
      s.Issues .clrst ∨ ∃ v rest, s.host.port = wr .status v :: rest ∧ v.getLsbD k.bit = true)

/-- The configuration and operand registers change only by a host write to them: no command writes CTRL,
DEPTH_MAX, DEPTH_QUANT, DIN or HDR_AVAIL (R72). -/
def Obligations.HostRegistersChangeOnlyByHostWrites : Prop :=
  ∀ (s t : State) (r : RegName), r ∈ [RegName.ctrl, .depthMax, .depthQuant, .din, .hdrAvail] → step s = .next t →
    t.block.get r ≠ s.block.get r → ∃ v rest, s.host.port = wr r v :: rest

/-! The register port. -/

/-- R53: a read gives the register's value with its reserved bits 0, CMD reads 0, and nothing of the block changes. -/
def Obligations.ReadHasNoSideEffect : Prop :=
  ∀ (s : State) (r : RegName) (rest : List Access), s.host.port = rd r :: rest →
    ∃ t v, step s = .next t ∧ t.block = s.block ∧ t.host.port = rest ∧ t.host.reads = s.host.reads ++ [v] ∧
      v = s.block.get r ∧ v &&& ~~~r.implemented = 0 ∧ (r = .cmd → v = 0) ∧ (r = .id → v = 0x44510007)

/-- R54, R39: what a host write of `v` does to each register but CMD, and to nothing else. -/
def Obligations.HostWriteTakesEffect : Prop :=
  ∀ (s : State) (r : RegName) (v : Word) (rest : List Access), r ≠ .cmd → s.host.port = wr r v :: rest →
    ∃ t, step s = .next t ∧ t.host = (s.withPort rest).host ∧ OnlyWrites [r] s.block t.block ∧
      (r ∈ [RegName.depthMax, .depthQuant, .paramA, .paramB, .din, .hdrW0, .hdrW1, .hdrAvail] → t.block.get r = v) ∧
      (r = .hdrW2 → t.block.get r = v &&& 0x000000FF) ∧
      (r ∈ [RegName.id, .law, .dout, .hdrLen] → t.block.get r = s.block.get r) ∧
      (r = .ctrl → (t.block.get r).getLsbD 0 = v.getLsbD 0 ∧ (t.block.get r).getLsbD 1 = v.getLsbD 1 ∧
        t.block.effort = min ((v.extractLsb' 4 4).toNat) 9 ∧ t.block.get r &&& 0xFFFFFF0C = 0) ∧
      (r = .status → t.block.get r = s.block.get r &&& ~~~(v &&& 0x00003F00))

/-- R24: EFFORT as a host write of CTRL stores it. -/
def Obligations.CtrlWriteStoresEffort : Prop :=
  ∀ (s : State) (v : Word) (rest : List Access), s.host.port = wr .ctrl v :: rest →
    ∃ t, step s = .next t ∧ OnlyWrites [.ctrl] s.block t.block ∧
      ((v.extractLsb' 4 4).toNat ≤ 9 → t.block.effort = (v.extractLsb' 4 4).toNat) ∧
      (10 ≤ (v.extractLsb' 4 4).toNat → t.block.effort = 9)

/-- R37: a host write to STATUS clears the sticky bits written as 1 and changes nothing else. -/
def Obligations.StatusWriteClearsStickyBits : Prop :=
  ∀ (s : State) (v : Word) (rest : List Access), s.host.port = wr .status v :: rest →
    ∃ t, step s = .next t ∧ OnlyWrites [.status] s.block t.block ∧ t.block.err = s.block.err ∧
      t.block.lastInv = s.block.lastInv ∧
      (∀ k, t.block.sticky k = (s.block.sticky k && !v.getLsbD k.bit)) ∧
      t.block.get .status &&& 0xFFFFC0E0 = 0

/-- R52: a narrow or misaligned access is refused, and every other access has a step. -/
def Obligations.MalformedAccessIsRefused : Prop :=
  ∀ (s : State) (a : Access) (rest : List Access), s.host.port = a :: rest →
    (a.wf = false → step s = .refused .narrowAccess ∨ step s = .refused .misalignedAccess) ∧
    (a.wf = true → ∃ t, step s = .next t)

/-- "Between commands it is idle and keeps all its state" (R195, of the block). That the machine with its host then has a step, to
itself, is the model's choice (DESIGN CHOICE, log entry 22). -/
def Obligations.QuiescentMachineStays : Prop := ∀ s : State, s.Quiescent → step s = .next s

/-- Instances share nothing (R66, R193): a step of one leaves every other as it was. -/
def Obligations.InstancesDoNotInterfere : Prop :=
  ∀ (sys sys' : System) (i : Nat), sys.stepAt i = .next sys' →
    sys'.length = sys.length ∧ (∀ j, j ≠ i → sys'[j]? = sys[j]?) ∧
    (∀ s, sys[i]? = some s → ∃ t, step s = .next t ∧ sys'[i]? = some t)

/-! Host procedures. -/

/-- ENCODE_FRAME (R162, R163, R164, R169; a frame that is no grid is refused, log entry 8): started on an idle instance in any state, the host's run over the register port
ends and returns what the procedure's definition gives for the frame and the configuration alone. -/
def Obligations.EncodeFrameRunsToItsResult : Prop :=
  ∀ (s : State) (frame : Frame) (cfg : HostConfig) (rest : List Call), s.host.port = [] → s.host.phase = .idle →
    s.host.calls = .encode frame cfg :: rest → frame.wf = true →
    ∃ t, Reaches s t ∧
      FinishesCall s t rest (encodeFrame Config.deriveParams Config.headerByteOrder Config.codec frame cfg) ∧
      (frame.data = .other → t.block = s.block)

/-- DECODE_FRAME (R166, R167, R168): started on an idle instance in any state, the host's run over the register port ends and
returns what the procedure's definition gives for the payload, the format and the instance's DEPTH_MAX. -/
def Obligations.DecodeFrameRunsToItsResult : Prop :=
  ∀ (s : State) (payload : List Byte) (fmt : SampleFmt) (rest : List Call), s.host.port = [] → s.host.phase = .idle →
    s.host.calls = .decode payload fmt :: rest →
    ∃ t, Reaches s t ∧
      FinishesCall s t rest (decodeFrame Config.headerByteOrder Config.codec (s.block.get .depthMax) payload fmt)

/-- Raw exactness of whole 16-bit frames (R124, C4): with a lossless codec that accepts the dimensions, decoding the encoded
payload gives the frame back exactly, whatever the configuration, the byte order and the decoder's DEPTH_MAX. -/
def Obligations.U16FrameRoundTripIsExact : Prop :=
  ∀ (dp : Word → Word → Word × Word) (order : Config.ByteOrder) (codec : Config.Codec) (cfg : HostConfig) (m : Word)
    (w h : Nat) (samples : List Half) (payload : List Byte) (fmt : SampleFmt),
    CodecLossless codec → codec.bounds w h = true → samples.length = w * h →
    encodeFrame dp order codec ⟨w, h, .u16 samples⟩ cfg = .encoded payload fmt →
    decodeFrame order codec m payload fmt = .decoded ⟨w, h, .u16 samples⟩

/-- Invalid pixels of a float frame survive encode and decode, under either law and any parameters (the source's "the NaN pixel
as exactly invalid", R122). -/
def Obligations.InvalidPixelsSurviveTheFrame : Prop :=
  ∀ (dp : Word → Word → Word × Word) (order : Config.ByteOrder) (codec : Config.Codec) (cfg : HostConfig) (m : Word)
    (w h : Nat) (samples : List Word) (payload : List Byte) (fmt : SampleFmt),
    CodecLossless codec → codec.bounds w h = true → samples.length = w * h →
    encodeFrame dp order codec ⟨w, h, .f32 samples⟩ cfg = .encoded payload fmt →
    ∃ out : List Word, decodeFrame order codec m payload fmt = .decoded ⟨w, h, .f32 out⟩ ∧ out.length = samples.length ∧
      ∀ (i : Nat) (x : Word), samples[i]? = some x → f32IsNaN x = true ∨ f32IsZero x = true → out[i]? = some 0x7FC00000

/-! The hypotheses on `derive_params`. -/

/-- H_range (R101) does what it is for: with parameters from such a function, FWD of a sample in `[Q, M]` neither clamps nor
saturates nor meets a NaN, and the code is the rounded value itself. -/
def Obligations.HRangeKeepsCodesUnsaturated : Prop :=
  ∀ (dp : Word → Word → Word × Word) (s : State), s.block.lawTag = 1 → s.block.srcFmt = .f32 →
    f32Gt (s.block.get .depthQuant) 0 = true → HRange dp (s.block.get .depthMax) (s.block.get .depthQuant) →
    (s.block.get .paramA, s.block.get .paramB) = dp (s.block.get .depthMax) (s.block.get .depthQuant) →
    f32Le (s.block.get .depthQuant) (s.block.get .din) = true → f32Le (s.block.get .din) (s.block.get .depthMax) = true →
    ∃ t, exec .fwd s = .next t ∧ StatusBecomes s.block t.block 0 false [] ∧
      roundHalfAway (fsub32 (fdiv32 (s.block.get .paramA) (s.block.get .din)) (s.block.get .paramB)) =
        .int ((t.block.get .dout).toNat : Int)

/-- Under the reset defaults (M = 10.0, Q = 100.0) the interval `[Q, M]` is empty, so H_range and H_mutual hold of every function
and H_roundtrip of every function and every non-decreasing bound (R101, last paragraph; for H_mutual see log entry 10). That
the bound is a function of rationals that does not decrease over all of them is the model's choice: DESIGN CHOICE, log entry 29. -/
def Obligations.DefaultsMakeRangeHypothesesVacuous : Prop :=
  ∀ dp : Word → Word → Word × Word, HRange dp 0x41200000 0x42C80000 ∧ HMutual dp 0x41200000 0x42C80000 ∧
    ∀ stepBound : ℚ → ℚ, Monotone stepBound → HRoundtrip dp 0x41200000 0x42C80000 stepBound

/-- R102: in exact arithmetic the two formulas are inverse to each other. -/
def Obligations.ExactLawsAreInverse : Prop :=
  ∀ a b d k : ℚ, d ≠ 0 → k + b ≠ 0 → k = exactCode a b d → exactDepth a b k = d

/-! Binary32. -/

/-- The four operations (R11): on finite operands (and a divisor that is not 0) the exact results rounded with roundTiesToEven; a
non-zero finite value by zero; the results with an infinite operand; and exactly when the result is a NaN. -/
def Obligations.ArithmeticRoundsToNearestEven : Prop :=
  (∀ a b : Word, f32IsFinite a = true → f32IsFinite b = true →
    IsRoundedToEven (f32Rat a + f32Rat b) (fadd32 a b) ∧ IsRoundedToEven (f32Rat a - f32Rat b) (fsub32 a b) ∧
    IsRoundedToEven (f32Rat a * f32Rat b) (fmul32 a b) ∧
    (f32IsZero b = false → IsRoundedToEven (f32Rat a / f32Rat b) (fdiv32 a b))) ∧
  (∀ a b : Word, f32IsFinite a = true → f32IsZero a = false → f32IsZero b = true →
    f32IsInf (fdiv32 a b) = true ∧ f32Sign (fdiv32 a b) = xor (f32Sign a) (f32Sign b)) ∧
  (∀ a b : Word, f32IsInf a = true → f32IsFinite b = true →
    fadd32 a b = a ∧ fadd32 b a = a ∧ fsub32 a b = a ∧ fsub32 b a = f32Neg a ∧
    (f32IsZero b = false → ∀ r ∈ [fmul32 a b, fmul32 b a], f32IsInf r = true ∧ f32Sign r = xor (f32Sign a) (f32Sign b)) ∧
    (f32IsInf (fdiv32 a b) = true ∧ f32Sign (fdiv32 a b) = xor (f32Sign a) (f32Sign b)) ∧
    (f32IsZero (fdiv32 b a) = true ∧ f32Sign (fdiv32 b a) = xor (f32Sign a) (f32Sign b))) ∧
  (∀ a b : Word, f32IsInf a = true → f32IsInf b = true →
    (f32Sign a = f32Sign b → fadd32 a b = a) ∧ (f32Sign a ≠ f32Sign b → fsub32 a b = a) ∧
    f32IsInf (fmul32 a b) = true ∧ f32Sign (fmul32 a b) = xor (f32Sign a) (f32Sign b)) ∧
  (∀ a b : Word,
    (f32IsNaN (fadd32 a b) = true ↔ f32IsNaN a = true ∨ f32IsNaN b = true ∨
      (f32IsInf a = true ∧ f32IsInf b = true ∧ f32Sign a ≠ f32Sign b)) ∧
    (f32IsNaN (fsub32 a b) = true ↔ f32IsNaN a = true ∨ f32IsNaN b = true ∨
      (f32IsInf a = true ∧ f32IsInf b = true ∧ f32Sign a = f32Sign b)) ∧
    (f32IsNaN (fmul32 a b) = true ↔ f32IsNaN a = true ∨ f32IsNaN b = true ∨
      (f32IsInf a = true ∧ f32IsZero b = true) ∨ (f32IsZero a = true ∧ f32IsInf b = true)) ∧
    (f32IsNaN (fdiv32 a b) = true ↔ f32IsNaN a = true ∨ f32IsNaN b = true ∨
      (f32IsInf a = true ∧ f32IsInf b = true) ∨ (f32IsZero a = true ∧ f32IsZero b = true)))

/-- The comparisons are the order of the exact values, with `-inf` below and `+inf` above every other value, and false for a NaN
(R11). -/
def Obligations.ComparisonsFollowTheValues : Prop :=
  (∀ a b : Word, f32IsFinite a = true → f32IsFinite b = true →
    (f32Lt a b = true ↔ f32Rat a < f32Rat b) ∧ (f32Gt a b = true ↔ f32Rat b < f32Rat a) ∧
    (f32Le a b = true ↔ f32Rat a ≤ f32Rat b) ∧ (f32Eq a b = true ↔ f32Rat a = f32Rat b)) ∧
  (∀ a : Word, f32IsNaN a = false →
    f32Lt a 0x7F800000 = decide (a ≠ 0x7F800000) ∧ f32Gt 0x7F800000 a = decide (a ≠ 0x7F800000) ∧
    f32Lt 0x7F800000 a = false ∧ f32Gt a 0x7F800000 = false ∧
    f32Le a 0x7F800000 = true ∧ f32Le 0x7F800000 a = decide (a = 0x7F800000) ∧
    f32Eq a 0x7F800000 = decide (a = 0x7F800000) ∧ f32Eq 0x7F800000 a = decide (a = 0x7F800000)) ∧
  (∀ a : Word, f32IsNaN a = false →
    f32Lt 0xFF800000 a = decide (a ≠ 0xFF800000) ∧ f32Gt a 0xFF800000 = decide (a ≠ 0xFF800000) ∧
    f32Lt a 0xFF800000 = false ∧ f32Gt 0xFF800000 a = false ∧
    f32Le 0xFF800000 a = true ∧ f32Le a 0xFF800000 = decide (a = 0xFF800000) ∧
    f32Eq a 0xFF800000 = decide (a = 0xFF800000) ∧ f32Eq 0xFF800000 a = decide (a = 0xFF800000)) ∧
  (∀ a b : Word, f32IsNaN a = true ∨ f32IsNaN b = true →
    f32Lt a b = false ∧ f32Gt a b = false ∧ f32Le a b = false ∧ f32Eq a b = false)

/-- `f32(n)` is exact for `n` in `0..65535` (R11). -/
def Obligations.ConversionIsExact : Prop :=
  ∀ n : Nat, n ≤ 65535 → f32IsFinite (f32OfNat n) = true ∧ f32Rat (f32OfNat n) = n

/-- R12: `sign(t) * floor(|t| + 1/2)` on the exact value, and the infinities. -/
def Obligations.RoundHalfAwayOnTheExactValue : Prop :=
  (∀ t : Word, f32IsFinite t = true →
    roundHalfAway t = .int (if f32Rat t < 0 then -⌊|f32Rat t| + 1 / 2⌋ else ⌊|f32Rat t| + 1 / 2⌋)) ∧
  roundHalfAway 0x7F800000 = .posInf ∧ roundHalfAway 0xFF800000 = .negInf

/-- The f32 literals of the host assembler (R76, R77): `wrf NAME, f:x` writes the binary32 value nearest the decimal, ties to
even. The sign of a zero literal and a decimal past the largest finite value: log entry 27. -/
def Obligations.LiteralIsNearestValue : Prop :=
  ∀ (r : RegName) (x : Decimal), ∃ v, wrf r x = wr r v ∧ IsRoundedToEven x.value v ∧ f32Sign v = x.negative
end

