-- ==== Sys2Proof/Laws/State.lean ====
section
/-! SUPPORT. The small lemmas of State: one per field per named update, and the read-after-write laws of the registers, so
that no later proof unfolds a record update. -/

namespace Sys2Proof.Machine

/-! Updates of State. -/

@[simp] theorem withBlock_block (s : State) (b : Block) : (s.withBlock b).block = b := rfl
@[simp] theorem withBlock_host (s : State) (b : Block) : (s.withBlock b).host = s.host := rfl
@[simp] theorem withBlock_withBlock (s : State) (b c : Block) : (s.withBlock b).withBlock c = s.withBlock c := rfl

@[simp] theorem record_block (s : State) (v : Word) : (s.record v).block = s.block := rfl
@[simp] theorem record_port (s : State) (v : Word) : (s.record v).host.port = s.host.port := rfl
@[simp] theorem record_reads (s : State) (v : Word) : (s.record v).host.reads = s.host.reads ++ [v] := rfl
@[simp] theorem record_phase (s : State) (v : Word) : (s.record v).host.phase = s.host.phase := rfl
@[simp] theorem record_calls (s : State) (v : Word) : (s.record v).host.calls = s.host.calls := rfl
@[simp] theorem record_results (s : State) (v : Word) : (s.record v).host.results = s.host.results := rfl

@[simp] theorem withPort_block (s : State) (p : List Access) : (s.withPort p).block = s.block := rfl
@[simp] theorem withPort_port (s : State) (p : List Access) : (s.withPort p).host.port = p := rfl
@[simp] theorem withPort_reads (s : State) (p : List Access) : (s.withPort p).host.reads = s.host.reads := rfl
@[simp] theorem withPort_phase (s : State) (p : List Access) : (s.withPort p).host.phase = s.host.phase := rfl
@[simp] theorem withPort_calls (s : State) (p : List Access) : (s.withPort p).host.calls = s.host.calls := rfl
@[simp] theorem withPort_results (s : State) (p : List Access) : (s.withPort p).host.results = s.host.results := rfl
@[simp] theorem withPort_withPort (s : State) (p q : List Access) : (s.withPort p).withPort q = s.withPort q := rfl

@[simp] theorem openPhase_block (s : State) (f : Phase) (p : List Access) : (s.openPhase f p).block = s.block := rfl
@[simp] theorem openPhase_port (s : State) (f : Phase) (p : List Access) : (s.openPhase f p).host.port = p := rfl
@[simp] theorem openPhase_reads (s : State) (f : Phase) (p : List Access) : (s.openPhase f p).host.reads = [] := rfl
@[simp] theorem openPhase_phase (s : State) (f : Phase) (p : List Access) : (s.openPhase f p).host.phase = f := rfl
@[simp] theorem openPhase_calls (s : State) (f : Phase) (p : List Access) :
    (s.openPhase f p).host.calls = s.host.calls := rfl
@[simp] theorem openPhase_results (s : State) (f : Phase) (p : List Access) :
    (s.openPhase f p).host.results = s.host.results := rfl

@[simp] theorem finish_block (s : State) (r : CallResult) : (s.finish r).block = s.block := rfl
@[simp] theorem finish_port (s : State) (r : CallResult) : (s.finish r).host.port = s.host.port := rfl
@[simp] theorem finish_reads (s : State) (r : CallResult) : (s.finish r).host.reads = [] := rfl
@[simp] theorem finish_phase (s : State) (r : CallResult) : (s.finish r).host.phase = .idle := rfl
@[simp] theorem finish_calls (s : State) (r : CallResult) : (s.finish r).host.calls = s.host.calls := rfl
@[simp] theorem finish_results (s : State) (r : CallResult) : (s.finish r).host.results = s.host.results ++ [r] := rfl

@[simp] theorem dropCall_block (s : State) : s.dropCall.block = s.block := rfl
@[simp] theorem dropCall_port (s : State) : s.dropCall.host.port = s.host.port := rfl
@[simp] theorem dropCall_reads (s : State) : s.dropCall.host.reads = s.host.reads := rfl
@[simp] theorem dropCall_phase (s : State) : s.dropCall.host.phase = s.host.phase := rfl
@[simp] theorem dropCall_calls (s : State) : s.dropCall.host.calls = s.host.calls.tail := rfl
@[simp] theorem dropCall_results (s : State) : s.dropCall.host.results = s.host.results := rfl

/-! Registers: `reg[NAME] <- v`, then `reg[NAME]`. -/

@[simp] theorem get_id (b : Block) : b.get .id = idValue := rfl
@[simp] theorem get_cmd (b : Block) : b.get .cmd = 0 := rfl

/-- A stored register reads back what was written, less its reserved bits. -/
theorem get_put_self (b : Block) (r : RegName) (v : Word) (h : r.stored = true) :
    (b.put r v).get r = v &&& r.implemented := by
  have all : ∀ w : Word, w &&& 0xFFFFFFFF = w := fun w => BitVec.and_allOnes
  cases r <;> simp_all [Block.get, Block.put, RegName.stored, RegName.implemented, BitVec.and_assoc]

/-- A write of one register leaves every other register alone. -/
@[simp] theorem get_put_ne (b : Block) (r r' : RegName) (v : Word) (h : r' ≠ r) : (b.put r v).get r' = b.get r' := by
  cases r <;> cases r' <;> first | rfl | exact absurd rfl h

/-- A value whose reserved bits are 0 reads back as it was written. -/
theorem get_put_of_legal (b : Block) (r : RegName) (v : Word) (h : r.stored = true) (hv : v &&& r.implemented = v) :
    (b.put r v).get r = v := by
  rw [get_put_self b r v h, hv]

@[simp] theorem get_put_depthMax (b : Block) (v : Word) : (b.put .depthMax v).get .depthMax = v := rfl
@[simp] theorem get_put_depthQuant (b : Block) (v : Word) : (b.put .depthQuant v).get .depthQuant = v := rfl
@[simp] theorem get_put_paramA (b : Block) (v : Word) : (b.put .paramA v).get .paramA = v := rfl
@[simp] theorem get_put_paramB (b : Block) (v : Word) : (b.put .paramB v).get .paramB = v := rfl
@[simp] theorem get_put_din (b : Block) (v : Word) : (b.put .din v).get .din = v := rfl
@[simp] theorem get_put_dout (b : Block) (v : Word) : (b.put .dout v).get .dout = v := rfl
@[simp] theorem get_put_hdrW0 (b : Block) (v : Word) : (b.put .hdrW0 v).get .hdrW0 = v := rfl
@[simp] theorem get_put_hdrW1 (b : Block) (v : Word) : (b.put .hdrW1 v).get .hdrW1 = v := rfl
@[simp] theorem get_put_hdrAvail (b : Block) (v : Word) : (b.put .hdrAvail v).get .hdrAvail = v := rfl
@[simp] theorem get_put_law_zero (b : Block) : (b.put .law 0#32).get .law = 0#32 :=
  get_put_of_legal _ _ _ rfl (by decide)
@[simp] theorem get_put_law_one (b : Block) : (b.put .law 1#32).get .law = 1#32 :=
  get_put_of_legal _ _ _ rfl (by decide)
@[simp] theorem get_put_hdrW2_zero (b : Block) : (b.put .hdrW2 0#32).get .hdrW2 = 0#32 :=
  get_put_of_legal _ _ _ rfl (by decide)
@[simp] theorem get_put_hdrLen_zero (b : Block) : (b.put .hdrLen 0#32).get .hdrLen = 0#32 :=
  get_put_of_legal _ _ _ rfl (by decide)
@[simp] theorem get_put_hdrLen_one (b : Block) : (b.put .hdrLen 1#32).get .hdrLen = 1#32 :=
  get_put_of_legal _ _ _ rfl (by decide)
@[simp] theorem get_put_hdrLen_nine (b : Block) : (b.put .hdrLen 9#32).get .hdrLen = 9#32 :=
  get_put_of_legal _ _ _ rfl (by decide)

/-- Reading never shows a reserved bit (R39, R53). -/
theorem get_and_implemented (b : Block) (r : RegName) (h : r.stored = true) : b.get r &&& r.implemented = b.get r := by
  have all : ∀ w : Word, w &&& 0xFFFFFFFF = w := fun w => BitVec.and_allOnes
  cases r <;> simp_all [Block.get, RegName.stored, RegName.implemented, BitVec.and_assoc]

/-- The address map is one-to-one onto the word offsets (R50, R51). -/
@[simp] theorem regAt_addr (r : RegName) : regAt r.addr = some r := by cases r <;> rfl

end Sys2Proof.Machine
end

