-- ==== Sys2Proof/Laws/Flags.lean ====
section
/-! SUPPORT. What each write of a STATUS field does to every field of STATUS and to every other register (R36, R43). -/

namespace Sys2Proof.Machine

theorem getLsbD_statusImplemented : ∀ i < 32, (RegName.implemented .status).getLsbD i = decide (i < 5 ∨ 8 ≤ i ∧ i < 14) := by
  decide

theorem getLsbD_withErr (w : Word) (c : BitVec 4) (i : Nat) (hi : i < 32) :
    (withErr w c).getLsbD i = if i < 4 then c.getLsbD i else w.getLsbD i := by
  have m : ∀ i < 32, (0xFFFFFFF0 : Word).getLsbD i = decide (4 ≤ i) := by decide
  have ge : 4 ≤ i → c.getLsbD i = false := fun h => BitVec.getLsbD_of_ge c i h
  simp only [withErr, BitVec.getLsbD_or, BitVec.getLsbD_and, m i hi, BitVec.getLsbD_setWidth, hi, decide_true,
    Bool.true_and]
  by_cases h : i < 4
  · simp only [h, show ¬4 ≤ i by omega, decide_false, Bool.and_false, Bool.false_or, if_true]
  · simp only [h, show 4 ≤ i by omega, ge (by omega), decide_true, Bool.and_true, Bool.or_false, if_false]

theorem getLsbD_withLastInv (w : Word) (v : Bool) (i : Nat) (hi : i < 32) :
    (withLastInv w v).getLsbD i = if i = 4 then v else w.getLsbD i := by
  have m : ∀ i < 32, (0xFFFFFFEF : Word).getLsbD i = decide (i ≠ 4) := by decide
  have m' : ∀ i < 32, (0x00000010 : Word).getLsbD i = decide (i = 4) := by decide
  have z : (0x00000000 : Word).getLsbD i = false := BitVec.getLsbD_zero
  simp only [withLastInv, BitVec.getLsbD_or, BitVec.getLsbD_and, m i hi]
  by_cases h : i = 4 <;> cases v <;> simp only [if_true, if_false, Bool.false_eq_true, m' i hi, z] <;> simp [h]

theorem getLsbD_withSticky (w : Word) (k : Sticky) (i : Nat) (hi : i < 32) :
    (withSticky w k).getLsbD i = (w.getLsbD i || decide (i = k.bit)) := by
  have m : ∀ k : Sticky, ∀ i < 32, ((1 : Word) <<< k.bit).getLsbD i = decide (i = k.bit) := by
    intro k; cases k <;> decide
  simp only [withSticky, BitVec.getLsbD_or, m k i hi]

theorem getLsbD_w1c (w v : Word) (i : Nat) (hi : i < 32) :
    (w1c w v).getLsbD i = (w.getLsbD i && !(v.getLsbD i && decide (8 ≤ i ∧ i < 14))) := by
  have m : ∀ i < 32, stickyMask.getLsbD i = decide (8 ≤ i ∧ i < 14) := by decide
  simp only [w1c, BitVec.getLsbD_and, BitVec.getLsbD_not, m i hi, hi, decide_true, Bool.true_and]

theorem Sticky.bit_lt (k : Sticky) : 8 ≤ k.bit ∧ k.bit < 14 := by cases k <;> decide

theorem Sticky.bit_inj (k j : Sticky) : k.bit = j.bit ↔ k = j := by cases k <;> cases j <;> decide

/-- Bit `i` of STATUS after `reg[STATUS] <- v`. -/
theorem getLsbD_get_put_status (b : Block) (v : Word) (i : Nat) (hi : i < 32) :
    ((b.put .status v).get .status).getLsbD i = (v.getLsbD i && decide (i < 5 ∨ 8 ≤ i ∧ i < 14)) := by
  rw [get_put_self b .status v rfl, BitVec.getLsbD_and, getLsbD_statusImplemented i hi]

theorem err_put_status (b : Block) (v : Word) : (b.put .status v).err = statusErr v := by
  apply BitVec.eq_of_getLsbD_eq
  intro i hi
  simp [Block.err, statusErr, hi, getLsbD_get_put_status b v i (by omega), show i < 5 by omega]

theorem lastInv_put_status (b : Block) (v : Word) : (b.put .status v).lastInv = statusLastInv v := by
  unfold Block.lastInv statusLastInv; rw [getLsbD_get_put_status b v 4 (by omega)]; simp

theorem sticky_put_status (b : Block) (v : Word) (k : Sticky) : (b.put .status v).sticky k = statusSticky v k := by
  have := k.bit_lt
  simp [Block.sticky, statusSticky, getLsbD_get_put_status b v k.bit (by omega), this]

@[simp] theorem err_put_ne (b : Block) (r : RegName) (v : Word) (h : RegName.status ≠ r) : (b.put r v).err = b.err := by
  simp [Block.err, get_put_ne b r .status v h]
@[simp] theorem lastInv_put_ne (b : Block) (r : RegName) (v : Word) (h : RegName.status ≠ r) :
    (b.put r v).lastInv = b.lastInv := by simp [Block.lastInv, get_put_ne b r .status v h]
@[simp] theorem sticky_put_ne (b : Block) (r : RegName) (v : Word) (k : Sticky) (h : RegName.status ≠ r) :
    (b.put r v).sticky k = b.sticky k := by simp [Block.sticky, get_put_ne b r .status v h]

@[simp] theorem statusErr_withErr (w : Word) (c : BitVec 4) : statusErr (withErr w c) = c := by
  apply BitVec.eq_of_getLsbD_eq
  intro i hi
  simp [statusErr, hi, getLsbD_withErr w c i (by omega)]
@[simp] theorem statusLastInv_withErr (w : Word) (c : BitVec 4) : statusLastInv (withErr w c) = statusLastInv w := by
  unfold statusLastInv; rw [getLsbD_withErr w c 4 (by omega)]; simp
@[simp] theorem statusSticky_withErr (w : Word) (c : BitVec 4) (k : Sticky) :
    statusSticky (withErr w c) k = statusSticky w k := by
  have := k.bit_lt
  simp [statusSticky, getLsbD_withErr w c k.bit (by omega), show ¬k.bit < 4 by omega]

@[simp] theorem statusErr_withLastInv (w : Word) (v : Bool) : statusErr (withLastInv w v) = statusErr w := by
  apply BitVec.eq_of_getLsbD_eq
  intro i hi
  simp [statusErr, hi, getLsbD_withLastInv w v i (by omega), show i ≠ 4 by omega]
@[simp] theorem statusLastInv_withLastInv (w : Word) (v : Bool) : statusLastInv (withLastInv w v) = v := by
  unfold statusLastInv; rw [getLsbD_withLastInv w v 4 (by omega)]; simp
@[simp] theorem statusSticky_withLastInv (w : Word) (v : Bool) (k : Sticky) :
    statusSticky (withLastInv w v) k = statusSticky w k := by
  have := k.bit_lt
  simp [statusSticky, getLsbD_withLastInv w v k.bit (by omega), show k.bit ≠ 4 by omega]

@[simp] theorem statusErr_withSticky (w : Word) (k : Sticky) : statusErr (withSticky w k) = statusErr w := by
  have := k.bit_lt
  apply BitVec.eq_of_getLsbD_eq
  intro i hi
  simp [statusErr, hi, getLsbD_withSticky w k i (by omega), show i ≠ k.bit by omega]
@[simp] theorem statusLastInv_withSticky (w : Word) (k : Sticky) : statusLastInv (withSticky w k) = statusLastInv w := by
  have := k.bit_lt
  unfold statusLastInv; rw [getLsbD_withSticky w k 4 (by omega)]; simp [show 4 ≠ k.bit by omega]
@[simp] theorem statusSticky_withSticky (w : Word) (k j : Sticky) :
    statusSticky (withSticky w k) j = (statusSticky w j || decide (j = k)) := by
  have := j.bit_lt
  simp [statusSticky, getLsbD_withSticky w k j.bit (by omega), Sticky.bit_inj]

@[simp] theorem statusErr_w1c (w v : Word) : statusErr (w1c w v) = statusErr w := by
  apply BitVec.eq_of_getLsbD_eq
  intro i hi
  simp [statusErr, hi, getLsbD_w1c w v i (by omega), show ¬8 ≤ i by omega]
@[simp] theorem statusLastInv_w1c (w v : Word) : statusLastInv (w1c w v) = statusLastInv w := by
  unfold statusLastInv; rw [getLsbD_w1c w v 4 (by omega)]; simp
@[simp] theorem statusSticky_w1c (w v : Word) (k : Sticky) :
    statusSticky (w1c w v) k = (statusSticky w k && !v.getLsbD k.bit) := by
  have := k.bit_lt
  simp [statusSticky, getLsbD_w1c w v k.bit (by omega), this]

@[simp] theorem err_setErr (b : Block) (c : BitVec 4) : (b.setErr c).err = c := by simp [Block.setErr, err_put_status]
@[simp] theorem lastInv_setErr (b : Block) (c : BitVec 4) : (b.setErr c).lastInv = b.lastInv := by
  simp [Block.setErr, lastInv_put_status]; rfl
@[simp] theorem sticky_setErr (b : Block) (c : BitVec 4) (k : Sticky) : (b.setErr c).sticky k = b.sticky k := by
  simp [Block.setErr, sticky_put_status]; rfl
@[simp] theorem get_setErr (b : Block) (c : BitVec 4) (r : RegName) (h : r ≠ .status) : (b.setErr c).get r = b.get r := by
  simp [Block.setErr, h]

@[simp] theorem err_setLastInv (b : Block) (v : Bool) : (b.setLastInv v).err = b.err := by
  simp [Block.setLastInv, err_put_status]; rfl
@[simp] theorem lastInv_setLastInv (b : Block) (v : Bool) : (b.setLastInv v).lastInv = v := by
  simp [Block.setLastInv, lastInv_put_status]
@[simp] theorem sticky_setLastInv (b : Block) (v : Bool) (k : Sticky) : (b.setLastInv v).sticky k = b.sticky k := by
  simp [Block.setLastInv, sticky_put_status]; rfl
@[simp] theorem get_setLastInv (b : Block) (v : Bool) (r : RegName) (h : r ≠ .status) :
    (b.setLastInv v).get r = b.get r := by simp [Block.setLastInv, h]

@[simp] theorem err_setSticky (b : Block) (k : Sticky) : (b.setSticky k).err = b.err := by
  simp [Block.setSticky, err_put_status]; rfl
@[simp] theorem lastInv_setSticky (b : Block) (k : Sticky) : (b.setSticky k).lastInv = b.lastInv := by
  simp [Block.setSticky, lastInv_put_status]; rfl
@[simp] theorem sticky_setSticky (b : Block) (k j : Sticky) :
    (b.setSticky k).sticky j = (b.sticky j || decide (j = k)) := by simp [Block.setSticky, sticky_put_status]; rfl
@[simp] theorem get_setSticky (b : Block) (k : Sticky) (r : RegName) (h : r ≠ .status) :
    (b.setSticky k).get r = b.get r := by simp [Block.setSticky, h]

@[simp] theorem err_setStickyIf (b : Block) (c : Bool) (k : Sticky) : (b.setStickyIf c k).err = b.err := by
  cases c <;> simp [Block.setStickyIf]
@[simp] theorem lastInv_setStickyIf (b : Block) (c : Bool) (k : Sticky) : (b.setStickyIf c k).lastInv = b.lastInv := by
  cases c <;> simp [Block.setStickyIf]
@[simp] theorem sticky_setStickyIf (b : Block) (c : Bool) (k j : Sticky) :
    (b.setStickyIf c k).sticky j = (b.sticky j || (c && decide (j = k))) := by
  cases c <;> simp [Block.setStickyIf]
@[simp] theorem get_setStickyIf (b : Block) (c : Bool) (k : Sticky) (r : RegName) (h : r ≠ .status) :
    (b.setStickyIf c k).get r = b.get r := by cases c <;> simp [Block.setStickyIf, h]

/-- The fields of R36 are all of STATUS: two register files that agree on them read the same STATUS. -/
theorem status_ext (b c : Block) (he : b.err = c.err) (hl : b.lastInv = c.lastInv) (hs : ∀ k, b.sticky k = c.sticky k) :
    b.get .status = c.get .status := by
  have bits : ∀ d : Block, ∀ i, i < 32 → ¬(i < 5 ∨ 8 ≤ i ∧ i < 14) → (d.get .status).getLsbD i = false := by
    intro d i hi hn
    have := get_and_implemented d .status rfl
    rw [← this, BitVec.getLsbD_and, getLsbD_statusImplemented i hi]
    simp [hn]
  apply BitVec.eq_of_getLsbD_eq
  intro i hi
  by_cases h4 : i < 4
  · have := congrArg (fun e : BitVec 4 => e.getLsbD i) he
    simpa [Block.err, statusErr, h4] using this
  · by_cases h5 : i = 4
    · subst h5; exact hl
    · by_cases h8 : 8 ≤ i ∧ i < 14
      · obtain ⟨k, rfl⟩ : ∃ k : Sticky, k.bit = i := by
          obtain ⟨lo, up⟩ := h8
          interval_cases i
          · exact ⟨.fallback, rfl⟩
          · exact ⟨.unsup, rfl⟩
          · exact ⟨.corrupt, rfl⟩
          · exact ⟨.illegal, rfl⟩
          · exact ⟨.clamped, rfl⟩
          · exact ⟨.nan, rfl⟩
        exact hs k
      · rw [bits b i hi (by omega), bits c i hi (by omega)]

/-! The error outcome (R182) says all it does here. -/

@[simp] theorem err_raiseError (b : Block) (k : ErrorKind) : (raiseError k b).err = k.code := by simp [raiseError]
@[simp] theorem lastInv_raiseError (b : Block) (k : ErrorKind) : (raiseError k b).lastInv = b.lastInv := by
  simp [raiseError]
@[simp] theorem sticky_raiseError (b : Block) (k : ErrorKind) (j : Sticky) :
    (raiseError k b).sticky j = (b.sticky j || decide (j = k.sticky)) := by simp [raiseError]
@[simp] theorem get_raiseError (b : Block) (k : ErrorKind) (r : RegName) (h : r ≠ .status) :
    (raiseError k b).get r = b.get r := by simp [raiseError, h]

end Sys2Proof.Machine
end

