-- ==== Sys2Proof/Laws/Commands.lean ====
section
/-! SUPPORT. What each command can do, said once: every command answers a next state whose host side is untouched, and its
register effect is one of the few the rules give. -/

namespace Sys2Proof.Machine

/-- Every command completes, and touches the register file only. -/
theorem exec_next (i : Instr) (s : State) : ∃ b, exec i s = .next (s.withBlock b) := by cases i <;> exact ⟨_, rfl⟩

/-! The results of FWD (R110). -/

theorem get_fwdCommit_dout (b : Block) (r : ForwardResult) : (fwdCommit b r).get .dout = r.code.setWidth 32 := by
  simp [fwdCommit]
theorem get_fwdCommit_ne (b : Block) (r : ForwardResult) (n : RegName) (h1 : n ≠ .dout) (h2 : n ≠ .status) :
    (fwdCommit b r).get n = b.get n := by simp [fwdCommit, h1, h2]
theorem err_fwdCommit (b : Block) (r : ForwardResult) : (fwdCommit b r).err = 0 := by simp [fwdCommit, errOk]
theorem lastInv_fwdCommit (b : Block) (r : ForwardResult) : (fwdCommit b r).lastInv = (r.code == 0) := by simp [fwdCommit]
theorem sticky_fwdCommit (b : Block) (r : ForwardResult) (k : Sticky) :
    (fwdCommit b r).sticky k = (b.sticky k || (r.clamped && decide (k = .clamped)) || (r.nan && decide (k = .nan))) := by
  simp [fwdCommit]

/-- FWD is the illegal combination of R111 or commits the result of one of the three paths (R105). -/
theorem fwdBlock_cases (b : Block) :
    (b.lawTag = 1 ∧ b.srcFmt = .u16 ∧ fwdBlock b = raiseError .illegalCommand b) ∨
    (b.lawTag = 1 ∧ b.srcFmt = .f32 ∧
      fwdBlock b = fwdCommit b (fwdQuant (b.get .din) (b.get .paramA) (b.get .paramB) (b.get .depthMax))) ∨
    (b.lawTag ≠ 1 ∧ b.srcFmt = .f32 ∧ fwdBlock b = fwdCommit b (fwdRawF32 (b.get .din))) ∨
    (b.lawTag ≠ 1 ∧ b.srcFmt = .u16 ∧ fwdBlock b = fwdCommit b (fwdRawU16 b.dinHalf)) := by
  unfold fwdBlock
  by_cases h : b.lawTag = 1
  · rw [if_pos h]
    cases b.srcFmt
    · exact .inr (.inl ⟨h, rfl, rfl⟩)
    · exact .inl ⟨h, rfl, rfl⟩
  · rw [if_neg h]
    cases b.srcFmt
    · exact .inr (.inr (.inl ⟨h, rfl, rfl⟩))
    · exact .inr (.inr (.inr ⟨h, rfl, rfl⟩))

/-! The results of INV (R118). -/

theorem get_invCommit_dout (b : Block) (r : InverseResult) : (invCommit b r).get .dout = r.out := by simp [invCommit]
theorem get_invCommit_ne (b : Block) (r : InverseResult) (n : RegName) (h1 : n ≠ .dout) (h2 : n ≠ .status) :
    (invCommit b r).get n = b.get n := by simp [invCommit, h1, h2]
theorem err_invCommit (b : Block) (r : InverseResult) : (invCommit b r).err = 0 := by simp [invCommit, errOk]
theorem lastInv_invCommit (b : Block) (r : InverseResult) : (invCommit b r).lastInv = r.invalid := by simp [invCommit]
theorem sticky_invCommit (b : Block) (r : InverseResult) (k : Sticky) :
    (invCommit b r).sticky k = (b.sticky k || (r.clamped && decide (k = .clamped)) || (r.nan && decide (k = .nan))) := by
  simp [invCommit]

/-- INV commits the result of one of the three paths (R113). -/
theorem invBlock_cases (b : Block) :
    (b.lawTag = 1 ∧ invBlock b = invCommit b (invQuant b.dinHalf (b.get .paramA) (b.get .paramB) (b.get .depthMax))) ∨
    (b.lawTag ≠ 1 ∧ b.rawOutFmt = .u16 ∧ invBlock b = invCommit b (invRawU16 b.dinHalf)) ∨
    (b.lawTag ≠ 1 ∧ b.rawOutFmt = .f32 ∧ invBlock b = invCommit b (invRawF32 b.dinHalf)) := by
  unfold invBlock
  by_cases h : b.lawTag = 1
  · rw [if_pos h]; exact .inl ⟨h, rfl⟩
  · rw [if_neg h]
    cases b.rawOutFmt
    · exact .inr (.inr ⟨h, rfl, rfl⟩)
    · exact .inr (.inl ⟨h, rfl, rfl⟩)

/-- SELECT sets a law by its two tests (R91). -/
theorem selectBlock_cases (b : Block) :
    (b.srcFmt = .f32 ∧ f32Gt (b.get .depthMax) 0 = true ∧ f32Gt (b.get .depthQuant) 0 = true ∧
      selectBlock b = (b.put .law 1).setErr errOk) ∨
    (b.srcFmt = .f32 ∧ ¬(f32Gt (b.get .depthMax) 0 = true ∧ f32Gt (b.get .depthQuant) 0 = true) ∧
      selectBlock b = ((b.put .law 0).setSticky .fallback).setErr errInvalidParameters) ∨
    (b.srcFmt = .u16 ∧ selectBlock b = (b.put .law 0).setErr errOk) := by
  unfold selectBlock
  cases hf : b.srcFmt
  · by_cases h : (f32Gt (b.get .depthMax) 0 && f32Gt (b.get .depthQuant) 0) = true
    · rw [if_pos h]; rw [Bool.and_eq_true] at h; exact .inl ⟨rfl, h.1, h.2, rfl⟩
    · rw [if_neg h]; rw [Bool.and_eq_true] at h; exact .inr (.inl ⟨rfl, h, rfl⟩)
  · exact .inr (.inr ⟨rfl, rfl⟩)

/-- HDEC's verdict, by the order of R136. -/
theorem headerVerdict_cases (n : Nat) (tag : Byte) :
    (n = 0 ∧ headerVerdict n tag = .error .payloadCorrupt) ∨
    (n ≠ 0 ∧ tag ≠ 0 ∧ tag ≠ 1 ∧ headerVerdict n tag = .error .unsupportedFormat) ∨
    (n ≠ 0 ∧ tag = 0 ∧ headerVerdict n tag = .raw) ∨
    (n ≠ 0 ∧ tag = 1 ∧ n < 9 ∧ headerVerdict n tag = .error .payloadCorrupt) ∨
    (9 ≤ n ∧ tag = 1 ∧ headerVerdict n tag = .quantized) := by
  unfold headerVerdict
  by_cases h0 : n = 0
  · exact .inl ⟨h0, by simp [h0]⟩
  · by_cases t0 : tag = 0
    · exact .inr (.inr (.inl ⟨h0, t0, by simp [h0, t0]⟩))
    · by_cases t1 : tag = 1
      · by_cases h9 : n < 9
        · exact .inr (.inr (.inr (.inl ⟨h0, t1, h9, by simp [h0, t1, h9]⟩)))
        · exact .inr (.inr (.inr (.inr ⟨by omega, t1, by simp [h0, t1, h9]⟩)))
      · exact .inr (.inl ⟨h0, t0, t1, by simp only [h0, t0, t1, if_false, ne_eq, not_false_eq_true, and_self, if_true]⟩)

/-! A write of the header registers, LAW or STATUS does not move the operands other commands read. -/

@[simp] theorem srcFmt_put_ne (b : Block) (r : RegName) (v : Word) (h : RegName.ctrl ≠ r) : (b.put r v).srcFmt = b.srcFmt := by
  simp [Block.srcFmt, h]
@[simp] theorem rawOutFmt_put_ne (b : Block) (r : RegName) (v : Word) (h : RegName.ctrl ≠ r) :
    (b.put r v).rawOutFmt = b.rawOutFmt := by simp [Block.rawOutFmt, h]
@[simp] theorem effort_put_ne (b : Block) (r : RegName) (v : Word) (h : RegName.ctrl ≠ r) : (b.put r v).effort = b.effort := by
  simp [Block.effort, h]
@[simp] theorem lawTag_put_ne (b : Block) (r : RegName) (v : Word) (h : RegName.law ≠ r) : (b.put r v).lawTag = b.lawTag := by
  simp [Block.lawTag, h]
@[simp] theorem dinHalf_put_ne (b : Block) (r : RegName) (v : Word) (h : RegName.din ≠ r) :
    (b.put r v).dinHalf = b.dinHalf := by simp [Block.dinHalf, h]

end Sys2Proof.Machine
end

