-- ==== Sys2Proof/Laws/Float32.lean ====
section
/-! SUPPORT. What the binary32 operations do (R11): the fields of a pattern in terms of its magnitude, and the laws of the one
rounding they share: it answers a nearest value, ties to even; it is exact on representable values; it is monotone. -/

namespace Sys2Proof.Machine

/-! A pattern is a sign and a magnitude. -/

theorem f32Mag_eq (u : Word) : f32Mag u = u.toNat % 2 ^ 31 := by
  simp [f32Mag, BitVec.extractLsb'_toNat]

theorem f32Sign_eq (u : Word) : f32Sign u = decide (2 ^ 31 ≤ u.toNat) := by
  have := u.isLt
  unfold f32Sign
  rw [BitVec.getLsbD, Nat.testBit_eq_decide_div_mod_eq]
  by_cases h : 2 ^ 31 ≤ u.toNat
  · simp only [h, decide_true, decide_eq_true_eq]; omega
  · simp only [h, decide_false, decide_eq_false_iff_not]; omega

theorem f32Exp_eq (u : Word) : f32Exp u = f32Mag u / 2 ^ 23 := by
  rw [f32Mag_eq]
  simp only [f32Exp, BitVec.extractLsb'_toNat, Nat.shiftRight_eq_div_pow]
  omega

theorem f32Frac_eq (u : Word) : f32Frac u = f32Mag u % 2 ^ 23 := by
  rw [f32Mag_eq]
  simp only [f32Frac, BitVec.extractLsb'_toNat, Nat.shiftRight_zero]
  omega

theorem f32Mag_lt (u : Word) : f32Mag u < 2 ^ 31 := by rw [f32Mag_eq]; omega

theorem f32IsNaN_iff (u : Word) : f32IsNaN u = true ↔ 0x7F800000 < f32Mag u := by
  have := f32Mag_lt u
  simp only [f32IsNaN, f32Exp_eq, f32Frac_eq, Bool.and_eq_true, beq_iff_eq, bne_iff_ne]
  omega

theorem f32IsInf_iff (u : Word) : f32IsInf u = true ↔ f32Mag u = 0x7F800000 := by
  have := f32Mag_lt u
  simp only [f32IsInf, f32Exp_eq, f32Frac_eq, Bool.and_eq_true, beq_iff_eq]
  omega

theorem f32IsFinite_iff (u : Word) : f32IsFinite u = true ↔ f32Mag u < 0x7F800000 := by
  have := f32Mag_lt u
  simp only [f32IsFinite, f32Exp_eq, bne_iff_ne]
  omega

theorem f32IsZero_iff (u : Word) : f32IsZero u = true ↔ f32Mag u = 0 := by simp [f32IsZero]

@[simp] theorem f32Mag_withSign (s : Bool) (m : Nat) (h : m < 2 ^ 31) : f32Mag (f32WithSign s m) = m := by
  rw [f32Mag_eq, f32WithSign, BitVec.toNat_ofNat]
  cases s <;> simp only [Bool.false_eq_true, if_true, if_false] <;> omega

@[simp] theorem f32Sign_withSign (s : Bool) (m : Nat) (h : m < 2 ^ 31) : f32Sign (f32WithSign s m) = s := by
  rw [f32Sign_eq, f32WithSign, BitVec.toNat_ofNat]
  cases s
  · simp only [Bool.false_eq_true, if_false, decide_eq_false_iff_not]; omega
  · simp only [if_true, decide_eq_true_eq]; omega

/-- A pattern is what its sign and magnitude make. -/
theorem f32WithSign_mag (u : Word) : f32WithSign (f32Sign u) (f32Mag u) = u := by
  have := u.isLt
  apply BitVec.eq_of_toNat_eq
  rw [f32WithSign, BitVec.toNat_ofNat, f32Mag_eq, f32Sign_eq]
  by_cases h : 2 ^ 31 ≤ u.toNat
  · simp only [h, decide_true, if_true]; omega
  · simp only [h, decide_false, Bool.false_eq_true, if_false]; omega

@[simp] theorem f32Mag_neg (u : Word) : f32Mag (f32Neg u) = f32Mag u := by
  have h : f32Neg u = u ^^^ 0x80000000 := rfl
  apply Nat.eq_of_testBit_eq
  intro i
  by_cases hi : i < 31
  · have m : ∀ i < 31, (0x80000000 : Word).getLsbD i = false := by decide
    have := m i hi
    rw [BitVec.getLsbD] at this
    simp only [f32Mag_eq, h, Nat.testBit_mod_two_pow, hi, decide_true, Bool.true_and, BitVec.toNat_xor, Nat.testBit_xor, this,
      Bool.xor_false]
  · simp only [f32Mag_eq, Nat.testBit_mod_two_pow, hi, decide_false, Bool.false_and]

@[simp] theorem f32Sign_neg (u : Word) : f32Sign (f32Neg u) = !f32Sign u := by
  have m : (0x80000000 : Word).getLsbD 31 = true := by decide
  simp only [f32Sign, f32Neg, BitVec.getLsbD_xor, m, Bool.xor_true]

/-! Magnitude patterns in order, and their values in units of 2^-149. -/

/-- The value of a magnitude pattern, in units. -/
@[irreducible] def magUnits (p : Nat) : Nat := if p < 2 ^ 23 then p else (p % 2 ^ 23 + 2 ^ 23) * 2 ^ (p / 2 ^ 23 - 1)

theorem f32Units_eq (u : Word) : f32Units u = magUnits (f32Mag u) := by
  simp only [f32Units, f32Sig, f32Scale, magUnits, f32Exp_eq, f32Frac_eq]
  by_cases h : f32Mag u < 2 ^ 23
  · have h0 : f32Mag u / 2 ^ 23 = 0 := by omega
    simp only [h0, h, if_true, Nat.zero_sub, pow_zero, mul_one]; omega
  · have h0 : ¬f32Mag u / 2 ^ 23 = 0 := by omega
    simp only [h0, h, if_false]

/-- A significand of at most 24 bits, a carry to exactly 2^24 included, scaled by a power of two. -/
theorem magUnits_scaled (e q : Nat) (hq : q ≤ 2 ^ 24) (hn : 2 ^ 23 ≤ q ∨ e = 0) :
    magUnits (e * 2 ^ 23 + q) = q * 2 ^ e := by
  unfold magUnits
  rcases Nat.lt_or_ge q (2 ^ 23) with h | h
  · have he : e = 0 := by omega
    subst he
    rw [if_pos (by omega), pow_zero, Nat.mul_one]; omega
  · rw [if_neg (by omega)]
    rcases Nat.lt_or_ge q (2 ^ 24) with h2 | h2
    · rw [show (e * 2 ^ 23 + q) % 2 ^ 23 + 2 ^ 23 = q by omega, show (e * 2 ^ 23 + q) / 2 ^ 23 - 1 = e by omega]
    · have hq2 : q = 2 ^ 24 := by omega
      subst hq2
      rw [show (e * 2 ^ 23 + 2 ^ 24) % 2 ^ 23 + 2 ^ 23 = 2 ^ 23 by omega,
        show (e * 2 ^ 23 + 2 ^ 24) / 2 ^ 23 - 1 = e + 1 by omega]
      ring

theorem magUnits_strictMono : StrictMono magUnits := by
  apply strictMono_nat_of_lt_succ
  intro p
  rcases Nat.lt_or_ge p (2 ^ 23) with h | h
  · have a := magUnits_scaled 0 p (by omega) (.inr rfl)
    have b := magUnits_scaled 0 (p + 1) (by omega) (.inr rfl)
    simp only [Nat.zero_mul, Nat.zero_add, pow_zero, mul_one] at a b
    omega
  · obtain ⟨e, q, hq, hq2, rfl⟩ : ∃ e q, 2 ^ 23 ≤ q ∧ q < 2 ^ 24 ∧ p = e * 2 ^ 23 + q :=
      ⟨p / 2 ^ 23 - 1, p % 2 ^ 23 + 2 ^ 23, by omega, by omega, by omega⟩
    rw [magUnits_scaled e q (by omega) (.inl hq), Nat.add_assoc, magUnits_scaled e (q + 1) (by omega) (.inl (by omega))]
    exact Nat.mul_lt_mul_of_pos_right (by omega) (by positivity)

theorem magUnits_le_iff (p c : Nat) : magUnits p ≤ magUnits c ↔ p ≤ c := magUnits_strictMono.le_iff_le

@[simp] theorem magUnits_zero : magUnits 0 = 0 := by unfold magUnits; rfl

/-! The rounding. -/

/-- The largest magnitude pattern whose value is at most `n / d` units. -/
def floorMag (n d : Nat) : Nat := roundScale n d * 2 ^ 23 + n / (d * 2 ^ roundScale n d)

/-- The rounding scale leaves a quotient of at most 24 bits, and of exactly 24 bits unless the scale is 0. -/
theorem roundScale_spec (n d : Nat) :
    n / (d * 2 ^ roundScale n d) < 2 ^ 24 ∧ (2 ^ 23 ≤ n / (d * 2 ^ roundScale n d) ∨ roundScale n d = 0) := by
  rw [← Nat.div_div_eq_div_mul]
  have hq : n / d < 2 ^ (Nat.log2 (n / d) + 1) := Nat.lt_log2_self
  unfold roundScale
  generalize n / d = q at hq ⊢
  generalize hL : Nat.log2 q = L at hq ⊢
  rcases Nat.lt_or_ge L 24 with h | h
  · rw [show L - 23 = 0 by omega, pow_zero, Nat.div_one]
    exact ⟨lt_of_lt_of_le hq (Nat.pow_le_pow_right (by omega) (by omega)), .inr rfl⟩
  · have hq0 : q ≠ 0 := by rintro rfl; simp at hL; omega
    have hlow : 2 ^ L ≤ q := by rw [← hL]; exact Nat.log2_self_le hq0
    refine ⟨?_, .inl ?_⟩
    · rw [Nat.div_lt_iff_lt_mul (by positivity), ← pow_add]
      exact lt_of_lt_of_le hq (Nat.pow_le_pow_right (by omega) (by omega))
    · rw [Nat.le_div_iff_mul_le (by positivity), ← pow_add, show 23 + (L - 23) = L by omega]
      exact hlow

theorem magUnits_floorMag (n d : Nat) :
    magUnits (floorMag n d) = n / (d * 2 ^ roundScale n d) * 2 ^ roundScale n d := by
  obtain ⟨h1, h2⟩ := roundScale_spec n d
  exact magUnits_scaled _ _ (by omega) h2

theorem magUnits_floorMag_succ (n d : Nat) :
    magUnits (floorMag n d + 1) = (n / (d * 2 ^ roundScale n d) + 1) * 2 ^ roundScale n d := by
  obtain ⟨h1, h2⟩ := roundScale_spec n d
  rw [floorMag, Nat.add_assoc]
  exact magUnits_scaled _ _ (by omega) (by omega)

/-- `n / d` lies between the value of its floor pattern and the next one. -/
theorem floorMag_spec (n d : Nat) (hd : 0 < d) :
    magUnits (floorMag n d) * d ≤ n ∧ n < magUnits (floorMag n d + 1) * d := by
  rw [magUnits_floorMag, magUnits_floorMag_succ]
  generalize roundScale n d = e
  have hD : 0 < d * 2 ^ e := by positivity
  have h1 := Nat.div_mul_le_self n (d * 2 ^ e)
  constructor
  · calc n / (d * 2 ^ e) * 2 ^ e * d = n / (d * 2 ^ e) * (d * 2 ^ e) := by ring
      _ ≤ n := h1
  · have := Nat.lt_mul_div_succ n hD
    calc n < d * 2 ^ e * (n / (d * 2 ^ e) + 1) := this
      _ = (n / (d * 2 ^ e) + 1) * 2 ^ e * d := by ring

/-- The floor pattern is the only one with that property. -/
theorem floorMag_unique (n d p : Nat) (hd : 0 < d) (h1 : magUnits p * d ≤ n) (h2 : n < magUnits (p + 1) * d) :
    floorMag n d = p := by
  obtain ⟨a, b⟩ := floorMag_spec n d hd
  apply Nat.le_antisymm
  · have : magUnits (floorMag n d) < magUnits (p + 1) := Nat.lt_of_mul_lt_mul_right (lt_of_le_of_lt a h2)
    have := magUnits_strictMono.lt_iff_lt.mp this
    omega
  · have : magUnits p < magUnits (floorMag n d + 1) := Nat.lt_of_mul_lt_mul_right (lt_of_le_of_lt h1 b)
    have := magUnits_strictMono.lt_iff_lt.mp this
    omega

/-- The rounding stays at the floor pattern or goes to the next: up when `n / d` is nearer to the next, or half way and the
floor pattern is odd. -/
theorem roundMag_eq (n d : Nat) (hd : 0 < d) :
    roundMag n d = min (if (magUnits (floorMag n d) + magUnits (floorMag n d + 1)) * d < 2 * n ∨
      ((magUnits (floorMag n d) + magUnits (floorMag n d + 1)) * d = 2 * n ∧ floorMag n d % 2 = 1)
      then floorMag n d + 1 else floorMag n d) 0x7F800000 := by
  rw [magUnits_floorMag, magUnits_floorMag_succ]
  unfold roundMag divNearestEven
  simp only []
  have hpar : floorMag n d % 2 = n / (d * 2 ^ roundScale n d) % 2 := by unfold floorMag; omega
  rw [hpar]
  have hfl : floorMag n d = roundScale n d * 2 ^ 23 + n / (d * 2 ^ roundScale n d) := rfl
  rw [hfl]
  generalize roundScale n d = e
  have hD : 0 < d * 2 ^ e := by positivity
  have hdm := Nat.div_add_mod n (d * 2 ^ e)
  have key : (n / (d * 2 ^ e) * 2 ^ e + (n / (d * 2 ^ e) + 1) * 2 ^ e) * d = 2 * (n - n % (d * 2 ^ e)) + d * 2 ^ e := by
    rw [show n - n % (d * 2 ^ e) = d * 2 ^ e * (n / (d * 2 ^ e)) by omega]; ring
  rw [key]
  have hle := Nat.mod_le n (d * 2 ^ e)
  generalize n % (d * 2 ^ e) = r at hle ⊢
  generalize d * 2 ^ e = D at *
  have c1 : 2 * (n - r) + D < 2 * n ↔ 2 * r > D := by omega
  have c2 : 2 * (n - r) + D = 2 * n ↔ 2 * r = D := by omega
  simp only [c1, c2]
  split <;> simp only [Nat.add_assoc]

theorem roundMag_le_inf (n d : Nat) : roundMag n d ≤ 0x7F800000 := Nat.min_le_right _ _

theorem roundMag_lt (n d : Nat) : roundMag n d < 2 ^ 31 := lt_of_le_of_lt (roundMag_le_inf n d) (by norm_num)

theorem floorMag_le_roundMag (n d : Nat) (hd : 0 < d) : min (floorMag n d) 0x7F800000 ≤ roundMag n d := by
  rw [roundMag_eq n d hd]; split <;> omega

theorem roundMag_le_floorMag_succ (n d : Nat) (hd : 0 < d) : roundMag n d ≤ floorMag n d + 1 := by
  rw [roundMag_eq n d hd]; split <;> omega

/-- A finite answer is a nearest magnitude: no other is closer to `n / d`. -/
theorem roundMag_nearest (n d : Nat) (hd : 0 < d) (hfin : roundMag n d < 0x7F800000) (c : Nat) :
    |(magUnits (roundMag n d) * d : Int) - n| ≤ |(magUnits c * d : Int) - n| := by
  obtain ⟨h1, h2⟩ := floorMag_spec n d hd
  have hr := roundMag_eq n d hd
  generalize hp : floorMag n d = p at *
  have hc : magUnits c * d ≤ magUnits p * d ∨ magUnits (p + 1) * d ≤ magUnits c * d := by
    rcases Nat.lt_or_ge p c with h | h
    · exact .inr (Nat.mul_le_mul_right d ((magUnits_le_iff _ _).2 h))
    · exact .inl (Nat.mul_le_mul_right d ((magUnits_le_iff _ _).2 h))
  rw [Nat.add_mul] at hr
  split at hr
  · rw [show roundMag n d = p + 1 by omega]
    zify at *
    rw [abs_of_nonneg (by linarith)]
    rcases hc with hc | hc
    · rw [abs_of_nonpos (by linarith)]
      rename_i hup
      rcases hup with hup | ⟨hup, -⟩ <;> linarith
    · rw [abs_of_nonneg (by linarith)]; linarith
  · rename_i hup
    rw [show roundMag n d = p by omega]
    have hup : 2 * n ≤ magUnits p * d + magUnits (p + 1) * d := by omega
    zify at *
    rw [abs_of_nonpos (by linarith)]
    rcases hc with hc | hc
    · rw [abs_of_nonpos (by linarith)]; linarith
    · rw [abs_of_nonneg (by linarith)]; linarith

/-- Ties go to the even pattern: another magnitude at the same distance from `n / d` leaves an even answer. -/
theorem roundMag_tie_even (n d : Nat) (hd : 0 < d) (hfin : roundMag n d < 0x7F800000) (c : Nat)
    (hc : c ≠ roundMag n d) (heq : |(magUnits (roundMag n d) * d : Int) - n| = |(magUnits c * d : Int) - n|) :
    roundMag n d % 2 = 0 := by
  obtain ⟨h1, h2⟩ := floorMag_spec n d hd
  have hr := roundMag_eq n d hd
  generalize hp : floorMag n d = p at *
  have hcs : c < p ∨ c = p ∨ c = p + 1 ∨ p + 1 < c := by omega
  have lt1 : ∀ x y, x < y → magUnits x * d < magUnits y * d := fun x y h =>
    Nat.mul_lt_mul_of_pos_right (magUnits_strictMono h) hd
  rw [Nat.add_mul] at hr
  split at hr
  · rename_i hup
    have e1 : roundMag n d = p + 1 := by omega
    rw [e1] at heq hc ⊢
    rw [abs_of_nonneg (by zify at h2; linarith)] at heq
    rcases hcs with h | h | h | h
    · have := lt1 c p h
      exfalso
      zify at *
      rw [abs_of_nonpos (by linarith)] at heq
      rcases hup with hup | ⟨hup, -⟩ <;> linarith
    · subst h
      rw [abs_of_nonpos (by zify at h1; linarith)] at heq
      have : ¬magUnits c * d + magUnits (c + 1) * d < 2 * n := by zify; linarith
      omega
    · omega
    · have := lt1 _ _ h
      exfalso
      zify at *
      rw [abs_of_nonneg (by linarith)] at heq
      linarith
  · rename_i hup
    have e1 : roundMag n d = p := by omega
    rw [e1] at heq hc ⊢
    rw [abs_of_nonpos (by zify at h1; linarith)] at heq
    have hup' : 2 * n ≤ magUnits p * d + magUnits (p + 1) * d := by omega
    rcases hcs with h | h | h | h
    · have := lt1 _ _ h
      exfalso
      zify at *
      rw [abs_of_nonpos (by linarith)] at heq
      linarith
    · omega
    · subst h
      rw [abs_of_nonneg (by zify at h2; linarith)] at heq
      have : magUnits p * d + magUnits (p + 1) * d = 2 * n := by zify; linarith
      omega
    · have := lt1 _ _ h
      exfalso
      zify at *
      rw [abs_of_nonneg (by linarith)] at heq
      linarith

/-- A representable finite value is rounded to itself. -/
theorem roundMag_exact (p d : Nat) (hd : 0 < d) (hp : p < 0x7F800000) : roundMag (magUnits p * d) d = p := by
  have hlt : magUnits p * d < magUnits (p + 1) * d := Nat.mul_lt_mul_of_pos_right (magUnits_strictMono (Nat.lt_succ_self p)) hd
  have hf : floorMag (magUnits p * d) d = p := floorMag_unique _ d p hd le_rfl hlt
  rw [roundMag_eq _ d hd, hf, Nat.add_mul, if_neg (by omega)]
  omega

/-- From one floor pattern, a larger quotient rounds up when a smaller one does. -/
theorem roundUp_mono (p m n d n' d' : Nat) (hd : 0 < d) (hd' : 0 < d') (h : n * d' ≤ n' * d) :
    (if m * d < 2 * n ∨ (m * d = 2 * n ∧ p % 2 = 1) then p + 1 else p) ≤
      (if m * d' < 2 * n' ∨ (m * d' = 2 * n' ∧ p % 2 = 1) then p + 1 else p) := by
  have imp : (m * d < 2 * n ∨ m * d = 2 * n ∧ p % 2 = 1) → (m * d' < 2 * n' ∨ m * d' = 2 * n' ∧ p % 2 = 1) := by
    intro hu
    have hmul : 2 * n * d' ≤ 2 * n' * d := by rw [Nat.mul_assoc, Nat.mul_assoc]; exact Nat.mul_le_mul_left 2 h
    rcases hu with hu | ⟨hu, hp⟩
    · left
      have : m * d' * d < 2 * n' * d := by
        calc m * d' * d = m * d * d' := by ring
          _ < 2 * n * d' := Nat.mul_lt_mul_of_pos_right hu hd'
          _ ≤ _ := hmul
      exact Nat.lt_of_mul_lt_mul_right this
    · have : m * d' * d ≤ 2 * n' * d := by
        calc m * d' * d = m * d * d' := by ring
          _ = 2 * n * d' := by rw [hu]
          _ ≤ _ := hmul
      have := Nat.le_of_mul_le_mul_right this hd
      rcases Nat.lt_or_ge (m * d') (2 * n') with h' | h'
      · exact .inl h'
      · exact .inr ⟨by omega, hp⟩
  split
  · rename_i hu; rw [if_pos (imp hu)]
  · split <;> omega

/-- The rounding is monotone. -/
theorem roundMag_mono (n d n' d' : Nat) (hd : 0 < d) (hd' : 0 < d') (h : n * d' ≤ n' * d) : roundMag n d ≤ roundMag n' d' := by
  obtain ⟨a1, a2⟩ := floorMag_spec n d hd
  obtain ⟨b1, b2⟩ := floorMag_spec n' d' hd'
  have hle : floorMag n d ≤ floorMag n' d' := by
    have : magUnits (floorMag n d) * (d * d') < magUnits (floorMag n' d' + 1) * (d * d') := by
      calc magUnits (floorMag n d) * (d * d') = magUnits (floorMag n d) * d * d' := by ring
        _ ≤ n * d' := Nat.mul_le_mul_right _ a1
        _ ≤ n' * d := h
        _ < magUnits (floorMag n' d' + 1) * d' * d := Nat.mul_lt_mul_of_pos_right b2 hd
        _ = _ := by ring
    have := magUnits_strictMono.lt_iff_lt.mp (Nat.lt_of_mul_lt_mul_right this)
    omega
  rcases Nat.lt_or_ge (floorMag n d) (floorMag n' d') with hlt | hge
  · have h1 := roundMag_le_floorMag_succ n d hd
    have h2 := floorMag_le_roundMag n' d' hd'
    exact (le_min h1 (roundMag_le_inf n d)).trans ((min_le_min (Nat.succ_le_of_lt hlt) le_rfl).trans h2)
  · have heq : floorMag n d = floorMag n' d' := Nat.le_antisymm hle hge
    rw [roundMag_eq n d hd, roundMag_eq n' d' hd', heq]
    exact min_le_min (roundUp_mono _ _ n d n' d' hd hd' h) le_rfl

/-! The operations. -/

@[simp] theorem f32Mag_roundPack (s : Bool) (n d : Nat) : f32Mag (roundPack s n d) = roundMag n d :=
  f32Mag_withSign s _ (roundMag_lt n d)

@[simp] theorem f32Sign_roundPack (s : Bool) (n d : Nat) : f32Sign (roundPack s n d) = s :=
  f32Sign_withSign s _ (roundMag_lt n d)

theorem f32IsNaN_roundPack (s : Bool) (n d : Nat) : f32IsNaN (roundPack s n d) = false := by
  have := f32IsNaN_iff (roundPack s n d)
  rw [f32Mag_roundPack] at this
  have := roundMag_le_inf n d
  cases h : f32IsNaN (roundPack s n d)
  · rfl
  · simp_all; omega

theorem f32IsNaN_withSign (s : Bool) (m : Nat) (h : m ≤ 0x7F800000) : f32IsNaN (f32WithSign s m) = false := by
  rw [Bool.eq_false_iff, ne_eq, f32IsNaN_iff, f32Mag_withSign s m (by omega)]
  omega

theorem f32IsNaN_qnan : f32IsNaN qnan = true := by decide

/-- The three kinds of pattern exclude each other. -/
theorem f32_kinds (u : Word) :
    (f32IsNaN u = true ∧ f32IsInf u = false ∧ f32IsFinite u = false) ∨
    (f32IsNaN u = false ∧ f32IsInf u = true ∧ f32IsFinite u = false) ∨
    (f32IsNaN u = false ∧ f32IsInf u = false ∧ f32IsFinite u = true) := by
  simp only [Bool.eq_false_iff, ne_eq, f32IsNaN_iff, f32IsInf_iff, f32IsFinite_iff]
  omega

theorem f32IsZero_not_inf (u : Word) (h : f32IsZero u = true) : f32IsInf u = false ∧ f32IsNaN u = false := by
  simp only [Bool.eq_false_iff, ne_eq, f32IsNaN_iff, f32IsInf_iff, f32IsZero_iff] at *
  omega

/-- An infinity is neither a NaN, nor finite, nor a zero. -/
theorem f32_of_inf (u : Word) (h : f32IsInf u = true) : f32IsNaN u = false ∧ f32IsFinite u = false ∧ f32IsZero u = false := by
  simp only [Bool.eq_false_iff, ne_eq, f32IsNaN_iff, f32IsInf_iff, f32IsFinite_iff, f32IsZero_iff] at *
  omega

/-- A finite value is neither a NaN nor an infinity. -/
theorem f32_of_finite (u : Word) (h : f32IsFinite u = true) : f32IsNaN u = false ∧ f32IsInf u = false := by
  simp only [Bool.eq_false_iff, ne_eq, f32IsNaN_iff, f32IsInf_iff, f32IsFinite_iff] at *
  omega

/-- The infinity of a sign. -/
theorem f32WithSign_inf (s : Bool) :
    f32IsInf (f32WithSign s 0x7F800000) = true ∧ f32Sign (f32WithSign s 0x7F800000) = s := by cases s <;> decide

/-- The zero of a sign. -/
theorem f32WithSign_zero (s : Bool) : f32IsZero (f32WithSign s 0) = true ∧ f32Sign (f32WithSign s 0) = s := by
  cases s <;> decide

/-- The sum of two finite values is the exact sum, rounded; an exact 0 is `-0.0` only for two negative operands. -/
theorem fadd32_finite (a b : Word) (ha : f32IsFinite a = true) (hb : f32IsFinite b = true) :
    fadd32 a b = if f32SUnits a + f32SUnits b = 0 then (if f32Sign a && f32Sign b then f32NegZero else 0)
      else roundPack (decide (f32SUnits a + f32SUnits b < 0)) (f32SUnits a + f32SUnits b).natAbs 1 := by
  rcases f32_kinds a with h | h | h <;> rcases f32_kinds b with k | k | k <;>
    simp_all only [fadd32, Bool.or_self, Bool.false_eq_true, if_false]

/-- The product of two finite values, rounded. -/
theorem fmul32_finite (a b : Word) (ha : f32IsFinite a = true) (hb : f32IsFinite b = true) :
    fmul32 a b = roundPack (f32Sign a != f32Sign b) (f32Units a * f32Units b) (2 ^ 149) := by
  rcases f32_kinds a with h | h | h <;> rcases f32_kinds b with k | k | k <;>
    simp_all only [fmul32, Bool.or_self, Bool.false_eq_true, if_false]

/-- The quotient of a finite value by a finite value that is not 0, rounded. -/
theorem fdiv32_finite (a b : Word) (ha : f32IsFinite a = true) (hb : f32IsFinite b = true) (h0 : f32IsZero b = false) :
    fdiv32 a b = roundPack (f32Sign a != f32Sign b) (f32Units a * 2 ^ 149) (f32Units b) := by
  rcases f32_kinds a with h | h | h <;> rcases f32_kinds b with k | k | k <;>
    simp_all only [fdiv32, Bool.or_self, Bool.false_eq_true, if_false]

/-- When a sum is a NaN (R11: "`inf - inf` and every operation with a NaN operand"). -/
theorem f32IsNaN_fadd32 (a b : Word) :
    f32IsNaN (fadd32 a b) = true ↔
      f32IsNaN a = true ∨ f32IsNaN b = true ∨ (f32IsInf a = true ∧ f32IsInf b = true ∧ f32Sign a ≠ f32Sign b) := by
  have z1 : f32IsNaN f32NegZero = false := by decide
  have z2 : f32IsNaN (0 : Word) = false := by decide
  unfold fadd32
  rcases f32_kinds a with h | h | h
  · simp only [h, Bool.true_or, if_true, f32IsNaN_qnan, true_or]
  · rcases f32_kinds b with k | k | k
    · simp only [h, k, Bool.or_true, if_true, f32IsNaN_qnan, true_or, or_true]
    · by_cases hs : f32Sign a = f32Sign b
      · simp only [h, k, hs, bne_self_eq_false, Bool.and_false, Bool.or_false, Bool.false_eq_true, if_false, if_true, ne_eq,
          not_true_eq_false, and_false, or_false]
      · have hs' : (f32Sign a != f32Sign b) = true := by simpa using hs
        simp only [h, k, hs, hs', Bool.and_true, Bool.or_false, Bool.false_eq_true, if_false, if_true, ne_eq,
          not_false_eq_true, and_self, or_true, f32IsNaN_qnan]
    · simp only [h, k, Bool.or_false, Bool.false_and, Bool.false_eq_true, if_false, if_true, false_and, and_false, or_false]
  · rcases f32_kinds b with k | k | k
    · simp only [h, k, Bool.or_true, if_true, f32IsNaN_qnan, true_or, or_true]
    · simp only [h, k, Bool.or_false, Bool.false_eq_true, if_false, if_true, false_and, or_false]
    · simp only [h, k, Bool.or_false, Bool.false_eq_true, if_false, false_and, or_false, iff_false]
      split
      · split <;> simp only [z1, z2, Bool.false_eq_true, not_false_eq_true]
      · simp only [f32IsNaN_roundPack, Bool.false_eq_true, not_false_eq_true]

@[simp] theorem f32IsNaN_neg (u : Word) : f32IsNaN (f32Neg u) = f32IsNaN u := by
  rw [Bool.eq_iff_iff, f32IsNaN_iff, f32IsNaN_iff, f32Mag_neg]
@[simp] theorem f32IsInf_neg (u : Word) : f32IsInf (f32Neg u) = f32IsInf u := by
  rw [Bool.eq_iff_iff, f32IsInf_iff, f32IsInf_iff, f32Mag_neg]
@[simp] theorem f32IsFinite_neg (u : Word) : f32IsFinite (f32Neg u) = f32IsFinite u := by
  rw [Bool.eq_iff_iff, f32IsFinite_iff, f32IsFinite_iff, f32Mag_neg]
@[simp] theorem f32SUnits_neg (u : Word) : f32SUnits (f32Neg u) = -f32SUnits u := by
  simp only [f32SUnits, f32Units_eq, f32Mag_neg, f32Sign_neg]
  cases f32Sign u <;> simp

/-- When a difference is a NaN. -/
theorem f32IsNaN_fsub32 (a b : Word) :
    f32IsNaN (fsub32 a b) = true ↔
      f32IsNaN a = true ∨ f32IsNaN b = true ∨ (f32IsInf a = true ∧ f32IsInf b = true ∧ f32Sign a = f32Sign b) := by
  rw [fsub32, f32IsNaN_fadd32, f32IsNaN_neg, f32IsInf_neg, f32Sign_neg]
  cases f32Sign a <;> cases f32Sign b <;> simp

/-- When a quotient is a NaN (R11: "`0/0`, `inf/inf`"). -/
theorem f32IsNaN_fdiv32 (a b : Word) :
    f32IsNaN (fdiv32 a b) = true ↔
      f32IsNaN a = true ∨ f32IsNaN b = true ∨ (f32IsInf a = true ∧ f32IsInf b = true) ∨
      (f32IsZero a = true ∧ f32IsZero b = true) := by
  have w1 : ∀ s, f32IsNaN (f32WithSign s 0x7F800000) = false := fun s => f32IsNaN_withSign s _ le_rfl
  have w0 : ∀ s, f32IsNaN (f32WithSign s 0) = false := fun s => f32IsNaN_withSign s _ (by norm_num)
  unfold fdiv32
  rcases f32_kinds a with h | h | h
  · simp only [h, Bool.true_or, if_true, f32IsNaN_qnan, true_or]
  · have za : f32IsZero a = false := by
      rw [Bool.eq_false_iff]; intro hz; rw [(f32IsZero_not_inf a hz).1] at h; simp at h
    rcases f32_kinds b with k | k | k
    · simp only [h, k, Bool.or_true, if_true, f32IsNaN_qnan, true_or, or_true]
    · simp only [h, k, Bool.or_false, Bool.false_eq_true, if_false, if_true, f32IsNaN_qnan, and_self, true_or, or_true]
    · simp only [h, k, za, w1, Bool.or_false, Bool.false_eq_true, if_false, if_true, and_false, false_and, or_false]
  · rcases f32_kinds b with k | k | k
    · simp only [h, k, Bool.or_true, if_true, f32IsNaN_qnan, true_or, or_true]
    · have zb : f32IsZero b = false := by
        rw [Bool.eq_false_iff]; intro hz; rw [(f32IsZero_not_inf b hz).1] at k; simp at k
      simp only [h, k, zb, w0, Bool.or_false, Bool.false_eq_true, if_false, if_true, and_false, false_and, or_false]
    · cases zb : f32IsZero b
      · simp only [h, k, f32IsNaN_roundPack, Bool.or_false, Bool.false_eq_true, if_false, and_false, or_false]
      · cases za : f32IsZero a
        · simp only [h, k, w1, Bool.or_false, Bool.false_eq_true, if_false, if_true, and_false, false_and, or_false]
        · simp only [h, k, Bool.or_false, Bool.false_eq_true, if_false, if_true, f32IsNaN_qnan, and_self,
            false_or]

/-- When a product is a NaN: infinity times zero. -/
theorem f32IsNaN_fmul32 (a b : Word) :
    f32IsNaN (fmul32 a b) = true ↔
      f32IsNaN a = true ∨ f32IsNaN b = true ∨ (f32IsInf a = true ∧ f32IsZero b = true) ∨
      (f32IsZero a = true ∧ f32IsInf b = true) := by
  have w1 : ∀ s, f32IsNaN (f32WithSign s 0x7F800000) = false := fun s => f32IsNaN_withSign s _ le_rfl
  have z0 : ∀ u, f32IsInf u = true → f32IsZero u = false := fun u hu => by
    rw [Bool.eq_false_iff]; intro hz; rw [(f32IsZero_not_inf u hz).1] at hu; cases hu
  unfold fmul32
  rcases f32_kinds a with h | h | h
  · simp only [h, Bool.true_or, if_true, f32IsNaN_qnan, true_or]
  · rcases f32_kinds b with k | k | k
    · simp only [h, k, Bool.or_true, if_true, f32IsNaN_qnan, true_or, or_true]
    · simp only [h, k, z0 a h.2.1, z0 b k.2.1, w1, Bool.or_false, Bool.or_true, Bool.false_eq_true, if_false, if_true, and_false,
        false_and, or_false]
    · cases zb : f32IsZero b <;>
        simp only [h, k, z0 a h.2.1, w1, f32IsNaN_qnan, Bool.or_false, Bool.false_or, Bool.false_eq_true, if_false,
          if_true, and_false, or_false, and_self, or_true]
  · rcases f32_kinds b with k | k | k
    · simp only [h, k, Bool.or_true, if_true, f32IsNaN_qnan, true_or, or_true]
    · cases za : f32IsZero a <;>
        simp only [h, k, z0 b k.2.1, w1, f32IsNaN_qnan, Bool.or_false, Bool.or_true,
          Bool.false_eq_true, if_false, if_true, false_and, or_false, and_self, or_true]
    · simp only [h, k, f32IsNaN_roundPack, Bool.or_self, Bool.false_eq_true, if_false, and_false, false_and,
        or_false]

/-- `f32(n)` is exact (R11: "The conversion is exact, because every integer up to 2^24 is representable"). -/
theorem f32Units_ofNat (n : Nat) (hn : n ≤ 2 ^ 24) : f32Units (f32OfNat n) = n * 2 ^ 149 := by
  obtain ⟨p, hp, hv⟩ : ∃ p < 0x7F800000, magUnits p = n * 2 ^ 149 := by
    rcases Nat.eq_zero_or_pos n with rfl | hpos
    · exact ⟨0, by norm_num, by simp⟩
    · have h1 := Nat.log2_self_le (show n ≠ 0 by omega)
      have h2 : n < 2 ^ (n.log2 + 1) := Nat.lt_log2_self
      have hL : n.log2 ≤ 24 := by
        by_contra hc
        have := Nat.pow_le_pow_right (n := 2) (by norm_num) (show 25 ≤ n.log2 by omega)
        omega
      generalize hl : n.log2 = L at *
      rcases Nat.eq_or_lt_of_le hL with rfl | hL'
      · refine ⟨150 * 2 ^ 23 + 2 ^ 23, by norm_num, ?_⟩
        rw [magUnits_scaled 150 (2 ^ 23) (by norm_num) (.inl le_rfl), show n = 2 ^ 24 by omega]
        norm_num
      · refine ⟨(126 + L) * 2 ^ 23 + n * 2 ^ (23 - L), ?_, ?_⟩
        · have : n * 2 ^ (23 - L) < 2 ^ (L + 1) * 2 ^ (23 - L) := Nat.mul_lt_mul_of_pos_right h2 (by positivity)
          rw [← pow_add, show L + 1 + (23 - L) = 24 by omega] at this
          omega
        · have lo : 2 ^ L * 2 ^ (23 - L) ≤ n * 2 ^ (23 - L) := Nat.mul_le_mul_right _ h1
          have up : n * 2 ^ (23 - L) < 2 ^ (L + 1) * 2 ^ (23 - L) := Nat.mul_lt_mul_of_pos_right h2 (by positivity)
          rw [← pow_add] at lo up
          rw [show L + (23 - L) = 23 by omega] at lo
          rw [show L + 1 + (23 - L) = 24 by omega] at up
          rw [magUnits_scaled _ _ (by omega) (.inl lo), mul_assoc, ← pow_add, show 23 - L + (126 + L) = 149 by omega]
  rw [f32Units_eq, f32OfNat, f32Mag_roundPack, ← hv]
  have := roundMag_exact p 1 one_pos hp
  rw [Nat.mul_one] at this
  rw [this]

@[simp] theorem f32Sign_ofNat (n : Nat) : f32Sign (f32OfNat n) = false := f32Sign_roundPack _ _ _

end Sys2Proof.Machine
end

