-- ==== Sys2Proof/Laws/PerInstr.lean ====
section
/-! SUPPORT. Statements made of every command, one lemma per constructor: its word stands in the opcode map (R73) with RSVD 0
(R70), so no command collides with a reserved or illegal word (R74). -/

namespace Sys2Proof.Laws.OpcodeInMap

/-- The command's word has RSVD 0 and its opcode is one of `0x00..0x07`; and the decoder reads the command from it. -/
def Statement (i : Instr) : Prop :=
  i.wf = true ∧ rsvdField (encode i) = 0 ∧ (opField (encode i)).toNat ≤ 7 ∧ opcodeMap (opField (encode i)) = some i

theorem nop : Statement .nop := ⟨rfl, rfl, by decide, rfl⟩
theorem select : Statement .select := ⟨rfl, rfl, by decide, rfl⟩
theorem derive : Statement .derive := ⟨rfl, rfl, by decide, rfl⟩
theorem fwd : Statement .fwd := ⟨rfl, rfl, by decide, rfl⟩
theorem inv : Statement .inv := ⟨rfl, rfl, by decide, rfl⟩
theorem henc : Statement .henc := ⟨rfl, rfl, by decide, rfl⟩
theorem hdec : Statement .hdec := ⟨rfl, rfl, by decide, rfl⟩
theorem clrst : Statement .clrst := ⟨rfl, rfl, by decide, rfl⟩

end Sys2Proof.Laws.OpcodeInMap
end

