-- ==== Sys2Proof/Laws/Step.lean ====
section
/-! SUPPORT. What one step does with the access the host issues next, and how steps add up to runs. -/

namespace Sys2Proof.Machine

/-- A step performs the oldest access the host has issued. -/
theorem step_port (s : State) (a : Access) (rest : List Access) (h : s.host.port = a :: rest) :
    step s = performAccess a (s.withPort rest) := by simp [step, nextStep, h]

/-- With no access issued, the step is the host's own. -/
theorem step_host (s : State) (h : s.host.port = []) : step s = hostAdvance s := by simp [step, nextStep, h]

theorem performAccess_rd (r : RegName) (s : State) : performAccess (rd r) s = .next (s.record (s.block.get r)) := by
  simp [performAccess, rd]

theorem performAccess_wr (r : RegName) (v : Word) (s : State) (h : r ≠ .cmd) :
    performAccess (wr r v) s = .next (s.withBlock (hostWrite r v s.block)) := by
  cases r <;> first | rfl | exact absurd rfl h

theorem performAccess_cmd_word (w : Word) (s : State) : performAccess (wr .cmd w) s = runCommand w s := rfl

@[simp] theorem decode_encode (i : Instr) : decode (encode i) = .ok i := by cases i <;> rfl

theorem performAccess_cmd (i : Instr) (s : State) : performAccess (cmd i) s = exec i s := by
  simp [cmd, performAccess_cmd_word, runCommand]

/-- The accesses a step can perform, and what it does with each. -/
theorem performAccess_cases (a : Access) (s : State) :
    (∃ r, performAccess a s = .next (s.record (s.block.get r)) ∧ a = rd r) ∨
    (∃ r v, r ≠ RegName.cmd ∧ a = wr r v ∧ performAccess a s = .next (s.withBlock (hostWrite r v s.block))) ∨
    (∃ w i, a = wr .cmd w ∧ decode w = .ok i ∧ performAccess a s = exec i s) ∨
    (∃ w e, a = wr .cmd w ∧ decode w = .error e ∧
      performAccess a s = .next (s.withBlock (raiseError .illegalCommand s.block))) ∨
    (∃ r, a.wf = false ∧ performAccess a s = .refused r) := by
  have addr_eq : ∀ (x : RegAddr) (r : RegName), regAt x = some r → x = r.addr := by decide
  have none_mis : ∀ x : RegAddr, regAt x = none → (x.extractLsb' 0 2 == 0#2) = false := by decide
  match a with
  | .read .word x =>
    cases h : regAt x with
    | none => exact .inr (.inr (.inr (.inr ⟨.misalignedAccess, by simp [Access.wf, none_mis x h], by simp [performAccess, h]⟩)))
    | some r => exact .inl ⟨r, by simp [performAccess, h], by rw [addr_eq x r h]; rfl⟩
  | .write .word x v =>
    cases h : regAt x with
    | none => exact .inr (.inr (.inr (.inr ⟨.misalignedAccess, by simp [Access.wf, none_mis x h], by simp [performAccess, h]⟩)))
    | some r =>
      have hx := addr_eq x r h
      subst hx
      by_cases hc : r = .cmd
      · subst hc
        cases hd : decode v with
        | ok i => exact .inr (.inr (.inl ⟨v, i, rfl, hd, by simp [performAccess, performWrite, runCommand, hd]⟩))
        | error e =>
          exact .inr (.inr (.inr (.inl ⟨v, e, rfl, hd, by simp [performAccess, performWrite, runCommand, hd]⟩)))
      · exact .inr (.inl ⟨r, v, hc, rfl, performAccess_wr r v s hc⟩)
  | .read .byte _ => exact .inr (.inr (.inr (.inr ⟨.narrowAccess, rfl, rfl⟩)))
  | .read .half _ => exact .inr (.inr (.inr (.inr ⟨.narrowAccess, rfl, rfl⟩)))
  | .write .byte _ _ => exact .inr (.inr (.inr (.inr ⟨.narrowAccess, rfl, rfl⟩)))
  | .write .half _ _ => exact .inr (.inr (.inr (.inr ⟨.narrowAccess, rfl, rfl⟩)))

/-- The host's own step never touches the register file. -/
theorem hostAdvance_block (s t : State) (h : hostAdvance s = .next t) : t.block = s.block := by
  unfold hostAdvance at h
  split at h
  · split at h
    · cases h; rfl
    · rename_i c _ _
      unfold startCall at h
      split at h
      · cases h; rfl
      · split at h
        · split at h <;> (cases h; rfl)
        · cases h
      · cases h; rfl
  · cases h; rfl
  · cases h; unfold hostCompress; split <;> rfl
  · cases h; rfl
  · cases h; unfold hostJudgeHeader; split <;> [rfl; (split <;> rfl)]
  · cases h; unfold hostDecompress; split <;> [rfl; (split <;> rfl)]
  · cases h; rfl

/-- What a step can do to the register file, and when. -/
theorem step_cases (s t : State) (h : step s = .next t) :
    t.block = s.block ∨
    (∃ r v rest, r ≠ RegName.cmd ∧ s.host.port = wr r v :: rest ∧ t.block = hostWrite r v s.block) ∨
    (∃ w i rest u, s.host.port = wr .cmd w :: rest ∧ decode w = .ok i ∧ exec i (s.withPort rest) = .next u ∧ t = u) ∨
    (∃ w e rest, s.host.port = wr .cmd w :: rest ∧ decode w = .error e ∧ t.block = raiseError .illegalCommand s.block) := by
  cases hp : s.host.port with
  | nil => exact .inl (hostAdvance_block s t (by rwa [step_host s hp] at h))
  | cons a rest =>
    rw [step_port s a rest hp] at h
    rcases performAccess_cases a (s.withPort rest) with ⟨r, hr, -⟩ | ⟨r, v, hc, rfl, hr⟩ | ⟨w, i, rfl, hd, hr⟩ |
      ⟨w, e, rfl, hd, hr⟩ | ⟨r, -, hr⟩
    · rw [hr] at h; cases h; exact .inl rfl
    · rw [hr] at h; cases h; exact .inr (.inl ⟨r, v, rest, hc, rfl, rfl⟩)
    · rw [hr] at h; exact .inr (.inr (.inl ⟨w, i, rest, t, rfl, hd, h, rfl⟩))
    · rw [hr] at h; cases h; exact .inr (.inr (.inr ⟨w, e, rest, rfl, hd, rfl⟩))
    · rw [hr] at h; cases h

/-! Runs. -/

theorem run_add (m n : Nat) (s t : State) (h : Host.Core.run Sys2Proof.core m s = .next t) :
    Host.Core.run Sys2Proof.core (m + n) s = Host.Core.run Sys2Proof.core n t := by
  induction m generalizing s with
  | zero => cases h; rw [Nat.zero_add]
  | succ k ih =>
    rw [Nat.succ_add]
    simp only [Host.Core.run] at h ⊢
    cases hs : Sys2Proof.core.step s with
    | next u => rw [hs] at h; exact ih u h
    | fault r => rw [hs] at h; cases h
    | refused r => rw [hs] at h; cases h

end Sys2Proof.Machine
end

