-- ==== Sys2Proof/Laws/Quant.lean ====
section
/-! SUPPORT. The pure paths of FWD and INV case by case, so that no proof unfolds them again. -/

namespace Sys2Proof.Machine

/-! Comparisons with zero. -/

theorem f32Key_zero : f32Key 0 = 0 := by decide

theorem f32IsNaN_zero : f32IsNaN 0 = false := by decide

theorem f32Lt_iff (a b : Word) : f32Lt a b = true ↔ f32IsNaN a = false ∧ f32IsNaN b = false ∧ f32Key a < f32Key b := by
  simp [f32Lt, and_assoc]

theorem f32Gt_iff (a b : Word) : f32Gt a b = true ↔ f32IsNaN b = false ∧ f32IsNaN a = false ∧ f32Key b < f32Key a :=
  f32Lt_iff b a

theorem f32Le_iff (a b : Word) : f32Le a b = true ↔ f32IsNaN a = false ∧ f32IsNaN b = false ∧ f32Key a ≤ f32Key b := by
  simp [f32Le, and_assoc]

theorem f32Eq_iff (a b : Word) : f32Eq a b = true ↔ f32IsNaN a = false ∧ f32IsNaN b = false ∧ f32Key a = f32Key b := by
  simp [f32Eq, and_assoc]

theorem f32Gt_zero_iff (a : Word) : f32Gt a 0 = true ↔ f32IsNaN a = false ∧ 0 < f32Key a := by
  rw [f32Gt_iff, f32Key_zero]; simp only [f32IsNaN_zero, true_and]

theorem f32Lt_zero_iff (a : Word) : f32Lt a 0 = true ↔ f32IsNaN a = false ∧ f32Key a < 0 := by
  rw [f32Lt_iff, f32Key_zero]; simp only [f32IsNaN_zero, true_and]

theorem f32Eq_zero_iff (a : Word) : f32Eq a 0 = true ↔ f32IsNaN a = false ∧ f32Key a = 0 := by
  rw [f32Eq_iff, f32Key_zero]; simp only [f32IsNaN_zero, true_and]

/-- A value above zero has a clear sign bit and a magnitude pattern that is not 0. -/
theorem f32Key_pos_iff (a : Word) : 0 < f32Key a ↔ f32Sign a = false ∧ f32Mag a ≠ 0 := by
  unfold f32Key
  cases f32Sign a
  · simp only [Bool.false_eq_true, if_false, true_and]; omega
  · simp only [if_true, reduceCtorEq, false_and, iff_false]; omega

/-- A non-NaN value is below, at or above zero. -/
theorem f32_trichotomy (a : Word) (h : f32IsNaN a = false) : f32Lt a 0 = true ∨ f32Eq a 0 = true ∨ f32Gt a 0 = true := by
  rw [f32Lt_zero_iff, f32Eq_zero_iff, f32Gt_zero_iff]
  rcases lt_trichotomy (f32Key a) 0 with h' | h' | h'
  · exact .inl ⟨h, h'⟩
  · exact .inr (.inl ⟨h, h'⟩)
  · exact .inr (.inr ⟨h, h'⟩)

/-! Saturation. -/

theorem clampInt_mem (c : ExtInt) (lo hi : Int) (h : lo ≤ hi) : lo ≤ clampInt c lo hi ∧ clampInt c lo hi ≤ hi := by
  unfold clampInt
  cases c with
  | negInf => exact ⟨le_rfl, h⟩
  | posInf => exact ⟨h, le_rfl⟩
  | int v => simp only []; split <;> [exact ⟨le_rfl, h⟩; (split <;> constructor <;> omega)]

/-- The saturated code as a number. -/
theorem saturateCode_code (c : ExtInt) (b : Bool) : ((saturateCode c b).code.toNat : Int) = clampInt c 1 65535 := by
  obtain ⟨h1, h2⟩ := clampInt_mem c 1 65535 (by norm_num)
  simp only [saturateCode, BitVec.toNat_ofInt]
  omega

theorem saturateCode_range (c : ExtInt) (b : Bool) :
    1 ≤ (saturateCode c b).code.toNat ∧ (saturateCode c b).code.toNat ≤ 65535 := by
  have := saturateCode_code c b
  obtain ⟨h1, h2⟩ := clampInt_mem c 1 65535 (by norm_num)
  omega

theorem saturateCode_ne_zero (c : ExtInt) (b : Bool) : ((saturateCode c b).code == 0) = false := by
  have := saturateCode_range c b
  rw [beq_eq_false_iff_ne]
  intro h
  rw [h] at this
  simp at this

/-- "clamped or saturated": as given, or the code is not the rounded value. -/
theorem saturateCode_clamped (c : ExtInt) (b : Bool) :
    (saturateCode c b).clamped = (b || decide (c ≠ .int ((saturateCode c b).code.toNat : Int))) := by
  rw [saturateCode_code]
  simp only [saturateCode]
  by_cases h : c = .int (clampInt c 1 65535)
  · rw [← h]; simp
  · rw [(bne_iff_ne).2 h, decide_eq_true h]

/-! The paths. -/

theorem f32Ne_zero_of_pos (x : Word) (h : f32Gt x 0 = true) :
    f32IsNaN x = false ∧ f32Eq x 0 = false ∧ f32Lt x 0 = false := by
  obtain ⟨hn, hk⟩ := (f32Gt_zero_iff x).1 h
  refine ⟨hn, ?_, ?_⟩
  · rw [Bool.eq_false_iff, ne_eq, f32Eq_zero_iff]; omega
  · rw [Bool.eq_false_iff, ne_eq, f32Lt_zero_iff]; omega

theorem f32Ne_zero_of_neg (x : Word) (h : f32Lt x 0 = true) :
    f32IsNaN x = false ∧ f32Eq x 0 = false ∧ f32Gt x 0 = false := by
  obtain ⟨hn, hk⟩ := (f32Lt_zero_iff x).1 h
  refine ⟨hn, ?_, ?_⟩
  · rw [Bool.eq_false_iff, ne_eq, f32Eq_zero_iff]; omega
  · rw [Bool.eq_false_iff, ne_eq, f32Gt_zero_iff]; omega

/-- The upper clamp applies to samples above zero only. -/
theorem clampsAbove_pos (x m : Word) (h : clampsAbove x m = true) :
    f32Gt m 0 = true ∧ f32Gt x m = true ∧ f32Gt x 0 = true := by
  unfold clampsAbove at h
  rw [Bool.and_eq_true] at h
  refine ⟨h.1, h.2, ?_⟩
  have h1 := (f32Gt_zero_iff _).1 h.1
  have h2 := (f32Gt_iff _ _).1 h.2
  exact (f32Gt_zero_iff _).2 ⟨h2.2.1, by omega⟩

theorem fwdQuant_invalid (x a b m : Word) (h : f32IsNaN x = true ∨ f32Eq x 0 = true) : fwdQuant x a b m = ⟨0, false, false⟩ := by
  unfold fwdQuant
  rw [if_pos (by rw [Bool.or_eq_true]; exact h)]

theorem fwdQuant_negative (x a b m : Word) (h : f32Lt x 0 = true) : fwdQuant x a b m = ⟨0, true, false⟩ := by
  obtain ⟨hn, he, hg⟩ := f32Ne_zero_of_neg x h
  have hu : clampsAbove x m = false := by
    rw [Bool.eq_false_iff]
    intro hc
    rw [(clampsAbove_pos x m hc).2.2] at hg
    cases hg
  simp only [fwdQuant, hn, he, hu, forwardFrom, h, Bool.or_false, Bool.false_eq_true, if_false, if_true]

theorem forwardFrom_positive (x a b : Word) (c : Bool) (h : f32Gt x 0 = true) :
    forwardFrom x a b c = forwardCode (fsub32 (fdiv32 a x) b) c := by
  obtain ⟨-, he, hl⟩ := f32Ne_zero_of_pos x h
  simp only [forwardFrom, he, hl, Bool.false_eq_true, if_false]

/-- A sample above zero goes through the upper clamp and then the law. -/
theorem fwdQuant_positive (x a b m : Word) (h : f32Gt x 0 = true) :
    fwdQuant x a b m = forwardCode (fsub32 (fdiv32 a (if clampsAbove x m then m else x)) b) (clampsAbove x m) := by
  obtain ⟨hn, he, -⟩ := f32Ne_zero_of_pos x h
  simp only [fwdQuant, hn, he, Bool.or_false, Bool.false_eq_true, if_false]
  cases hc : clampsAbove x m
  · simp only [Bool.false_eq_true, if_false, forwardFrom_positive x a b false h]
  · simp only [if_true, forwardFrom_positive m a b true (clampsAbove_pos x m hc).1]

theorem forwardCode_nan (t : Word) (c : Bool) (h : f32IsNaN t = true) : forwardCode t c = ⟨0, c, true⟩ := by
  simp only [forwardCode, h, if_true]

theorem forwardCode_number (t : Word) (c : Bool) (h : f32IsNaN t = false) :
    forwardCode t c = saturateCode (roundHalfAway t) c := by simp only [forwardCode, h, Bool.false_eq_true, if_false]

theorem fwdRawF32_invalid (x : Word) (h : f32IsNaN x = true ∨ f32Eq x 0 = true) : fwdRawF32 x = ⟨0, false, false⟩ := by
  unfold fwdRawF32
  rw [if_pos (by rw [Bool.or_eq_true]; exact h)]

theorem fwdRawF32_negative (x : Word) (h : f32Lt x 0 = true) : fwdRawF32 x = ⟨0, true, false⟩ := by
  obtain ⟨hn, he, -⟩ := f32Ne_zero_of_neg x h
  simp only [fwdRawF32, hn, he, h, Bool.or_false, Bool.false_eq_true, if_false, if_true]

theorem fwdRawF32_positive (x : Word) (h : f32Gt x 0 = true) :
    fwdRawF32 x = saturateCode (roundHalfAway (fmul32 x f32Thousand)) false := by
  obtain ⟨hn, he, hl⟩ := f32Ne_zero_of_pos x h
  simp only [fwdRawF32, hn, he, hl, Bool.or_false, Bool.false_eq_true, if_false]

theorem invQuant_zero (a b m : Word) : invQuant 0 a b m = ⟨qnan, true, false, false⟩ := rfl

theorem invQuant_ne_zero (k : Half) (a b m : Word) (hk : k ≠ 0) :
    invQuant k a b m = inverseFrom (fdiv32 a (fadd32 (f32OfNat k.toNat) b)) m := if_neg hk

theorem clampsAbove_zero (m : Word) : clampsAbove 0 m = false := by
  rw [Bool.eq_false_iff]
  intro hc
  have := (f32Gt_zero_iff _).1 (clampsAbove_pos 0 m hc).2.2
  rw [f32Key_zero] at this
  omega

theorem inverseFrom_nan (q m : Word) (h : f32IsNaN q = true) : inverseFrom q m = ⟨qnan, true, false, true⟩ := by
  simp only [inverseFrom, h, if_true]

theorem inverseFrom_negative (q m : Word) (h : f32Lt q 0 = true) : inverseFrom q m = ⟨0, false, true, false⟩ := by
  obtain ⟨hn, -, -⟩ := f32Ne_zero_of_neg q h
  have hd : depthFloor q = 0 := by simp only [depthFloor, h, Bool.true_or, if_true]
  simp only [inverseFrom, hn, hd, clampsAbove_zero, h, Bool.false_eq_true, if_false]

theorem inverseFrom_zero (q m : Word) (h : f32Eq q 0 = true) : inverseFrom q m = ⟨0, false, false, false⟩ := by
  obtain ⟨hn, hk⟩ := (f32Eq_zero_iff q).1 h
  have hl : f32Lt q 0 = false := by rw [Bool.eq_false_iff, ne_eq, f32Lt_zero_iff]; omega
  have hd : depthFloor q = 0 := by simp only [depthFloor, h, Bool.or_true, if_true]
  simp only [inverseFrom, hn, hd, clampsAbove_zero, hl, Bool.false_eq_true, if_false]

theorem inverseFrom_positive (q m : Word) (h : f32Gt q 0 = true) :
    inverseFrom q m = if clampsAbove q m then ⟨m, false, true, false⟩ else ⟨q, false, false, false⟩ := by
  obtain ⟨hn, he, hl⟩ := f32Ne_zero_of_pos q h
  have hd : depthFloor q = q := by simp only [depthFloor, he, hl, Bool.or_false, Bool.false_eq_true, if_false]
  simp only [inverseFrom, hn, hd, hl, Bool.false_eq_true, if_false]

end Sys2Proof.Machine
end

