-- ==== Sys2Proof/Laws/Rounding.lean ====
section
/-! SUPPORT. The shared rounding in exact rational terms: a packed result is the exact value rounded to nearest even (R11). -/

namespace Sys2Proof.Machine

/-- The exact value of a sign and a magnitude pattern. -/
theorem f32Rat_eq (u : Word) :
    f32Rat u = (if f32Sign u then -1 else 1) * ((magUnits (f32Mag u) : ℚ) / 2 ^ 149) := by
  unfold f32Rat f32SUnits
  rw [f32Units_eq]
  cases f32Sign u
  · simp
  · simp; ring

theorem magUnits_max : magUnits 0x7F7FFFFF = (2 ^ 24 - 1) * 2 ^ 253 := by
  have := magUnits_scaled 253 (2 ^ 24 - 1) (by norm_num) (.inl (by norm_num))
  rwa [show 253 * 2 ^ 23 + (2 ^ 24 - 1) = 0x7F7FFFFF by norm_num] at this

theorem magUnits_inf : magUnits 0x7F800000 = 2 ^ 24 * 2 ^ 253 := by
  have := magUnits_scaled 253 (2 ^ 24) (by norm_num) (.inl (by norm_num))
  rwa [show 253 * 2 ^ 23 + 2 ^ 24 = 0x7F800000 by norm_num] at this

/-- A magnitude rounds to the infinity from half a unit in the last place above the largest finite value on. -/
theorem roundMag_inf_iff (n d : Nat) (hd : 0 < d) :
    roundMag n d = 0x7F800000 ↔ (magUnits 0x7F7FFFFF + magUnits 0x7F800000) * d ≤ 2 * n := by
  obtain ⟨h1, h2⟩ := floorMag_spec n d hd
  have hr := roundMag_eq n d hd
  generalize hp : floorMag n d = p at *
  have mono : ∀ x y, x ≤ y → magUnits x * d ≤ magUnits y * d := fun x y h =>
    Nat.mul_le_mul_right d ((magUnits_le_iff x y).2 h)
  rcases Nat.lt_trichotomy p 0x7F7FFFFF with h | h | h
  · have a := mono (p + 1) 0x7F7FFFFF (by omega)
    have b := mono 0x7F7FFFFF 0x7F800000 (by norm_num)
    constructor
    · intro he
      rw [he] at hr
      exfalso
      split at hr <;> omega
    · intro hle
      rw [Nat.add_mul] at hle
      omega
  · subst h
    rw [show 0x7F7FFFFF + 1 = 0x7F800000 by norm_num] at hr
    generalize (magUnits 0x7F7FFFFF + magUnits 0x7F800000) * d = M at *
    split at hr <;> omega
  · have a := mono 0x7F800000 p (by omega)
    have b := mono 0x7F7FFFFF 0x7F800000 (by norm_num)
    constructor
    · intro _; rw [Nat.add_mul]; omega
    · intro _
      rw [hr]
      exact Nat.min_eq_right (by split <;> omega)

/-- A zero of either sign is 0 rounded. -/
theorem isRoundedToEven_zero (r : Word) (h : f32Mag r = 0) : IsRoundedToEven 0 r := by
  have hn : f32IsNaN r = false := by rw [Bool.eq_false_iff, ne_eq, f32IsNaN_iff, h]; norm_num
  have hi : f32IsInf r = false := by rw [Bool.eq_false_iff, ne_eq, f32IsInf_iff, h]; norm_num
  have hr : f32Rat r = 0 := by rw [f32Rat_eq, h, magUnits_zero]; simp
  refine ⟨hn, by rw [hi]; norm_num, by rw [hi]; simp, fun _ c _ => ?_⟩
  rw [hr, h]
  simp

theorem two_overflow : magUnits 0x7F7FFFFF + magUnits 0x7F800000 = 2 * ((2 ^ 25 - 1) * 2 ^ 252) := by
  rw [magUnits_max, magUnits_inf]
  norm_num

/-- The rounding's overflow bound in rational terms. -/
theorem overflow_bound (n d : Nat) (hd : (0 : ℚ) < d) :
    (magUnits 0x7F7FFFFF + magUnits 0x7F800000) * d ≤ 2 * n ↔ (2 : ℚ) ^ 128 - 2 ^ 103 ≤ (n : ℚ) / d / 2 ^ 149 := by
  rw [two_overflow, div_div, le_div_iff₀ (by positivity)]
  have h : ((2 : ℚ) ^ 25 - 1) * 2 ^ 252 = (((2 ^ 25 - 1) * 2 ^ 252 : Nat) : ℚ) := by norm_num
  have e : ((2 : ℚ) ^ 128 - 2 ^ 103) * (d * 2 ^ 149) = ((2 ^ 25 - 1) * 2 ^ 252) * d := by ring
  rw [e, h]
  generalize ((2 ^ 25 - 1) * 2 ^ 252 : Nat) = M
  rw [← Nat.cast_mul, Nat.cast_le, Nat.mul_assoc]
  omega

/-- What `roundPack` answers: the exact value `±n/d` units, rounded to nearest even. -/
theorem roundPack_isRounded (s : Bool) (n d : Nat) (hd : 0 < d) (hs : s = true → n ≠ 0) :
    IsRoundedToEven ((if s then -1 else 1) * ((n : ℚ) / d / 2 ^ 149)) (roundPack s n d) := by
  have hdq : (0 : ℚ) < d := by exact_mod_cast hd
  have habs : |(if s then (-1 : ℚ) else 1) * ((n : ℚ) / d / 2 ^ 149)| = (n : ℚ) / d / 2 ^ 149 := by
    rw [abs_mul, show |if s then (-1 : ℚ) else 1| = 1 by cases s <;> simp, one_mul, abs_of_nonneg (by positivity)]
  refine ⟨f32IsNaN_roundPack s n d, ?_, ?_, ?_⟩
  · rw [f32IsInf_iff, f32Mag_roundPack, roundMag_inf_iff n d hd, habs, overflow_bound n d hdq]
  · intro _
    rw [f32Sign_roundPack]
    cases s
    · simp only [Bool.false_eq_true, if_false, one_mul, false_iff, not_lt]; positivity
    · have : (0 : ℚ) < n := by exact_mod_cast Nat.pos_of_ne_zero (hs rfl)
      simp only [if_true, true_iff]
      have : (0 : ℚ) < n / d / 2 ^ 149 := by positivity
      linarith
  · intro hf c hc
    rw [f32IsFinite_iff, f32Mag_roundPack] at hf
    have key : ∀ p : Nat, |(magUnits (roundMag n d) : ℚ) / 2 ^ 149 - n / d / 2 ^ 149| ≤
        |(magUnits p : ℚ) / 2 ^ 149 - n / d / 2 ^ 149| ∧
        (|(magUnits (roundMag n d) : ℚ) / 2 ^ 149 - n / d / 2 ^ 149| = |(magUnits p : ℚ) / 2 ^ 149 - n / d / 2 ^ 149| →
          p ≠ roundMag n d → roundMag n d % 2 = 0) := by
      intro p
      have sc : ∀ q : Nat, |(magUnits q : ℚ) / 2 ^ 149 - n / d / 2 ^ 149| =
          ((|(magUnits q * d : Int) - n| : Int) : ℚ) / (d * 2 ^ 149) := by
        intro q
        have : (magUnits q : ℚ) / 2 ^ 149 - n / d / 2 ^ 149 = (magUnits q * d - n) / (d * 2 ^ 149) := by field_simp
        rw [this, abs_div, abs_of_pos (show (0 : ℚ) < d * 2 ^ 149 by positivity)]
        push_cast
        rfl
      rw [sc, sc]
      constructor
      · have := roundMag_nearest n d hd hf p
        gcongr
      · intro he hne
        have hpos : (0 : ℚ) < d * 2 ^ 149 := by positivity
        rw [div_left_inj' hpos.ne'] at he
        exact roundMag_tie_even n d hd hf p hne (by exact_mod_cast he)
    have hr : f32Rat (roundPack s n d) = (if s then -1 else 1) * ((magUnits (roundMag n d) : ℚ) / 2 ^ 149) := by
      rw [f32Rat_eq, f32Sign_roundPack, f32Mag_roundPack]
    have dist : ∀ m : ℚ, |(if s then (-1 : ℚ) else 1) * m - (if s then -1 else 1) * ((n : ℚ) / d / 2 ^ 149)| =
        |m - n / d / 2 ^ 149| := by
      intro m
      rw [← mul_sub, abs_mul, show |if s then (-1 : ℚ) else 1| = 1 by cases s <;> simp, one_mul]
    rw [f32Mag_roundPack, hr, dist]
    by_cases hsc : f32Sign c = s
    · have hcr : f32Rat c = (if s then -1 else 1) * ((magUnits (f32Mag c) : ℚ) / 2 ^ 149) := by rw [f32Rat_eq, hsc]
      rw [hcr, dist]
      obtain ⟨k1, k2⟩ := key (f32Mag c)
      refine ⟨k1, fun he hne => k2 he ?_⟩
      rintro h
      exact hne (by rw [h])
    · have hcr : f32Rat c = (if s then -1 else 1) * (-((magUnits (f32Mag c) : ℚ) / 2 ^ 149)) := by
        rw [f32Rat_eq]
        cases s <;> cases hcs : f32Sign c <;> simp_all
      rw [hcr, dist]
      obtain ⟨k1, k2⟩ := key 0
      rw [magUnits_zero, Nat.cast_zero, zero_div, zero_sub, abs_neg,
        abs_of_nonneg (show (0 : ℚ) ≤ n / d / 2 ^ 149 by positivity)] at k1 k2
      have hm : (0 : ℚ) ≤ (magUnits (f32Mag c) : ℚ) / 2 ^ 149 := by positivity
      have hx : (0 : ℚ) ≤ n / d / 2 ^ 149 := by positivity
      rw [abs_of_nonpos (show -((magUnits (f32Mag c) : ℚ) / 2 ^ 149) - n / d / 2 ^ 149 ≤ 0 by linarith)]
      refine ⟨by linarith, fun he hne => k2 (by linarith) ?_⟩
      intro h0
      apply hne
      rw [← h0, magUnits_zero]
      have : (magUnits (f32Mag c) : ℚ) / 2 ^ 149 = 0 := by
        rw [← h0] at he k1
        simp only [magUnits_zero, Nat.cast_zero, zero_div, zero_sub, abs_neg] at he
        rw [abs_of_nonneg hx] at he
        linarith
      rw [this]
      simp

end Sys2Proof.Machine
end

