-- ==== Sys2Proof/Tests/Slice0.lean ====
section
/-! SUPPORT. Tests on fixed values, their expected results taken from spec/95_test_vectors.md or from the rule each names; and, for
every statement with hypotheses, a witness that meets them. -/

namespace Sys2Proof.Tests

open Sys2Proof.Machine

/-! Helpers. -/

/-- A machine with a given register file and nothing to do. -/
def machine (b : Block) : State := State.reset.withBlock b

/-- A machine whose host issues one access next. -/
def issuing (b : Block) (a : Access) : State := (machine b).withPort [a]

/-- The value a register reads in the next state; `none` where there is no next state. -/
def reading (o : Host.Outcome State Fault Refusal) (r : RegName) : Option Word :=
  match o with
  | .next t => some (t.block.get r)
  | .fault _ => none
  | .refused _ => none

/-- Does the outcome refuse for this reason? -/
def refuses (o : Host.Outcome State Fault Refusal) (r : Refusal) : Bool :=
  match o with
  | .next _ => false
  | .fault _ => false
  | .refused q => q == r

/-- P_ex of spec/95: A = 6620.0, B = 661.0, M = 10.0, under the quantized law. -/
def quantized : Block :=
  { Block.reset with paramA := 0x45CEE000, paramB := 0x44254000, law := 0x00000001 }

/-- A U16 source under RAW. -/
def passthrough : Block := { Block.reset with ctrl := 0x00000091 }

/-! Well-formedness: an ill-formed term for each check. -/

theorem test_wf_byte_read_refused : (Access.read .byte 0x00).wf = false := by decide
theorem test_wf_half_write_refused : (Access.write .half 0x1C 0x1234).wf = false := by decide
theorem test_wf_misaligned_refused : (Access.read .word 0x39).wf = false ∧ (Access.write .word 0x3E 0).wf = false := by decide
theorem test_wf_word_access_accepted : (rd .status).wf = true ∧ (wr .cmd 0x12345678).wf = true := by decide
theorem test_wf_f32_frame_of_wrong_count_refused : (Frame.mk 2 2 (.f32 [0, 0, 0])).wf = false := by decide
theorem test_wf_u16_frame_of_wrong_count_refused : (Frame.mk 1 1 (.u16 [])).wf = false := by decide
theorem test_wf_frame_accepted : (Frame.mk 2 1 (.u16 [5, 6])).wf = true ∧ (Frame.mk 9 9 .other).wf = true := by decide
theorem test_wf_program_with_byte_access_refused : (Call.program [rd .id, .read .byte 0]).wf = false := by decide
theorem test_wf_encode_of_bad_frame_refused : (Call.encode ⟨1, 2, .f32 [0]⟩ hostConfigDefault).wf = false := by decide
theorem test_wf_every_command : ∀ i ∈ [Instr.nop, .select, .derive, .fwd, .inv, .henc, .hdec, .clrst], i.wf = true := by decide

/-- R52: the step refuses what the check refuses. -/
theorem test_step_refuses_narrow_and_misaligned :
    refuses (step (issuing Block.reset (.read .byte 0x00))) .narrowAccess = true ∧
    refuses (step (issuing Block.reset (.write .word 0x3D 7))) .misalignedAccess = true := by decide

/-- R17: the host agent refuses a frame that is no grid. -/
theorem test_step_refuses_bad_frame :
    refuses (step { State.reset with host := { HostAgent.reset with calls := [.encode ⟨1, 2, .f32 [0]⟩ hostConfigDefault] } })
      .illFormedFrame = true := by decide

/-! Decoding: words written out from R70 and R73, RSVD in bits 31:8 and OP in bits 7:0. -/

theorem test_decode_nop : decode 0b000000000000000000000000_00000000 = .ok .nop := rfl
theorem test_decode_select : decode 0b000000000000000000000000_00000001 = .ok .select := rfl
theorem test_decode_derive : decode 0b000000000000000000000000_00000010 = .ok .derive := rfl
theorem test_decode_fwd : decode 0b000000000000000000000000_00000011 = .ok .fwd := rfl
theorem test_decode_inv : decode 0b000000000000000000000000_00000100 = .ok .inv := rfl
theorem test_decode_henc : decode 0b000000000000000000000000_00000101 = .ok .henc := rfl
theorem test_decode_hdec : decode 0b000000000000000000000000_00000110 = .ok .hdec := rfl
theorem test_decode_clrst : decode 0b000000000000000000000000_00000111 = .ok .clrst := rfl
theorem test_decode_reserved_opcodes : decode 0x00000008 = .error .unknownOpcode ∧ decode 0x000000FF = .error .unknownOpcode :=
  ⟨rfl, rfl⟩
/-- R71: RSVD is checked first, whatever OP holds. -/
theorem test_decode_rsvd_first :
    decode 0x80000003 = .error .reservedBitsSet ∧ decode 0x000001FF = .error .reservedBitsSet := ⟨rfl, rfl⟩
theorem test_table_word : decodeTableWord 32 3 = some .fwd ∧ decodeTableWord 32 8 = none ∧ decodeTableWord 32 (2 ^ 32) = none :=
  ⟨rfl, rfl, rfl⟩
/-- The word placed by `withFetchWord` runs in the very next step after reset. -/
theorem test_fetch_word_runs : reading (step (State.reset.withFetchWord 32 1)) .law = some 1 := by decide +kernel

/-! Control commands (spec/95 section 2.9). -/

theorem test_nop_keeps_sticky : reading (exec .nop (machine { Block.reset with status := 0x202 })) .status = some 0x200 := by
  decide
theorem test_clrst :
    reading (exec .clrst (machine { Block.reset with status := 0x1F13, hdrLen := 9 })) .status = some 0 ∧
    reading (exec .clrst (machine { Block.reset with status := 0x1F13, hdrLen := 9 })) .hdrLen = some 0 := by decide
/-- spec/95 section 2.9, last row: LAST_INV kept, ERR = 4, S_ILLEGAL. -/
theorem test_illegal_word :
    reading (step (issuing { Block.reset with status := 0x10, hdrLen := 9 } (wr .cmd 0x00000100))) .status = some 0x814 := by
  decide

/-! SELECT and DERIVE (spec/95 sections 2.1, 2.2 and program P7). -/

theorem test_select_infinite_bound :
    reading (exec .select (machine { Block.reset with depthMax := 0x7F800000, depthQuant := 0x3DCCCCCD })) .law = some 1 := by
  decide +kernel
theorem test_select_nan_falls_back :
    reading (exec .select (machine { Block.reset with depthMax := 0x7FC00000 })) .status = some 0x101 := by decide +kernel
theorem test_derive_raw_writes_zeros :
    reading (exec .derive (machine { quantized with law := 0 })) .paramA = some 0 ∧
    reading (exec .derive (machine { quantized with law := 0 })) .paramB = some 0 := by decide
/-- P7's stand-in for the open function. -/
theorem test_derive_copies_the_function :
    (deriveBlock (fun _ _ => (0x45CE4000, 0x4424C000)) { Block.reset with law := 1 }).get .paramA = 0x45CE4000 ∧
    (deriveBlock (fun _ _ => (0x45CE4000, 0x4424C000)) { Block.reset with law := 1 }).get .paramB = 0x4424C000 := by decide

/-! FWD (spec/95 sections 2.3.1 and 2.4): a tie, and the upper clamp. -/

theorem test_fwd_tie_goes_away_from_zero :
    reading (exec .fwd (machine { quantized with din := 0x41000000 })) .dout = some 167 := by decide +kernel
theorem test_fwd_beyond_the_bound :
    reading (exec .fwd (machine { quantized with din := 0x41400000 })) .dout = some 1 ∧
    reading (exec .fwd (machine { quantized with din := 0x41400000 })) .status = some 0x1000 := by decide +kernel

/-! INV (spec/95 section 2.5): a rounded quotient, and the clamp of an infinite one. -/

theorem test_inv_rounds :
    reading (exec .inv (machine { quantized with din := 0x0001FFFF })) .dout = some 0x3DCCCFF8 := by decide +kernel
theorem test_inv_division_by_zero_clamps :
    reading (exec .inv (machine { quantized with paramB := 0xC4254000, din := 661 })) .dout = some 0x41200000 ∧
    reading (exec .inv (machine { quantized with paramB := 0xC4254000, din := 661 })) .status = some 0x1000 := by
  decide +kernel

/-! HENC and HDEC (spec/95 sections 2.7 and 2.8). -/

theorem test_henc_copies_any_bits :
    reading (exec .henc (machine { quantized with paramA := 0x7FC00001, paramB := 0xFF800000 })) .hdrW0 = some 0xC0000101 ∧
    reading (exec .henc (machine { quantized with paramA := 0x7FC00001, paramB := 0xFF800000 })) .hdrW1 = some 0x8000007F := by
  decide
theorem test_henc_last_byte :
    reading (exec .henc (machine { quantized with paramA := 0x7FC00001, paramB := 0xFF800000 })) .hdrW2 = some 0x000000FF ∧
    reading (exec .henc (machine quantized)) .hdrLen = some 9 := by decide
theorem test_hdec_reads_the_bytes :
    reading (exec .hdec (machine { Block.reset with hdrW0 := 0xFF800001, hdrW2 := 0x80, hdrAvail := 9 })) .paramA =
      some 0x00FF8000 ∧
    reading (exec .hdec (machine { Block.reset with hdrW0 := 0xFF800001, hdrW2 := 0x80, hdrAvail := 9 })) .paramB =
      some 0x80000000 := by decide
theorem test_hdec_empty_payload_before_tag :
    reading (exec .hdec (machine { Block.reset with hdrW0 := 0xFFFFFFFF })) .status = some 0x403 ∧
    reading (exec .hdec (machine { Block.reset with hdrW0 := 0x00000007, hdrAvail := 1 })) .status = some 0x202 := by decide

/-! Register access (spec/95 section 2.9). -/

theorem test_ctrl_effort_clamped :
    reading (step (issuing Block.reset (wr .ctrl 0xFFFFFFFF))) .ctrl = some 0x93 ∧
    reading (step (issuing Block.reset (wr .ctrl 0x00000052))) .ctrl = some 0x52 := by decide
theorem test_status_w1c :
    reading (step (issuing { Block.reset with status := 0x3F14 } (wr .status 0x00001000))) .status = some 0x2F14 ∧
    reading (step (issuing { Block.reset with status := 0x3F14 } (wr .status 0xFFFFFFFF))) .status = some 0x14 := by decide

/-! Host assembler (spec/95 section 1.2 and programs P1, P3, P5 and P7; R77). -/

theorem test_wrf_rounds_to_nearest :
    wrf .depthQuant ⟨false, 1, 1⟩ = wr .depthQuant 0x3DCCCCCD ∧ wrf .din ⟨false, 12345, 4⟩ = wr .din 0x3F9E0419 ∧
    wrf .din ⟨true, 10, 1⟩ = wr .din 0xBF800000 ∧ wrf .depthMax ⟨false, 0, 1⟩ = wr .depthMax 0 := by decide +kernel
theorem test_clrsticky : clrsticky = wr .status 0x00003F00 := rfl

/-! Witnesses: for each statement with hypotheses, a state and operands that meet them all, each clause at a boundary. -/

theorem witness_StepKeepsLegal :
    ∃ t, State.reset.block.Legal ∧ (State.reset.withFetchWord 32 1).block.Legal ∧
      step (State.reset.withFetchWord 32 1) = .next t := ⟨_, by decide, by decide, rfl⟩

theorem witness_DecodeReadsEncodedCommand : Instr.clrst.wf = true := rfl

/-- RSVD's lowest bit; the first and the last reserved opcode. -/
theorem witness_EveryOtherWordIsIllegalCommand :
    (issuing Block.reset (wr .cmd 0x00000100)).host.port = [wr .cmd 0x00000100] ∧
    (0x00000100 : Word).extractLsb' 8 24 ≠ 0 ∧
    (0x00000008 : Word).extractLsb' 8 24 = 0 ∧ 8 ≤ ((0x00000008 : Word).extractLsb' 0 8).toNat ∧
    (0x000000FF : Word).extractLsb' 8 24 = 0 ∧ 8 ≤ ((0x000000FF : Word).extractLsb' 0 8).toNat := by decide

theorem witness_StepRunsDecodedCommand :
    (issuing quantized (wr .cmd 7)).host.port = [wr .cmd 7] ∧ decode 7 = .ok .clrst := ⟨rfl, rfl⟩

/-- The smallest positive bounds; a zero bound; a U16 source. -/
theorem witness_SelectChoosesTheLaw :
    ((machine { Block.reset with depthMax := 1, depthQuant := 1 }).block.srcFmt = .f32 ∧
      f32Gt ((machine { Block.reset with depthMax := 1, depthQuant := 1 }).block.get .depthMax) 0 = true ∧
      f32Gt ((machine { Block.reset with depthMax := 1, depthQuant := 1 }).block.get .depthQuant) 0 = true) ∧
    ((machine { Block.reset with depthMax := 0 }).block.srcFmt = .f32 ∧
      f32Gt ((machine { Block.reset with depthMax := 0 }).block.get .depthMax) 0 = false) ∧
    (machine passthrough).block.srcFmt = .u16 := by decide

theorem witness_SelectTestsPositivePatterns :
    ∃ t, (machine { Block.reset with depthMax := 0x7F800000, depthQuant := 1 }).block.srcFmt = .f32 ∧
      exec .select (machine { Block.reset with depthMax := 0x7F800000, depthQuant := 1 }) = .next t ∧ t.block.get .law = 1 :=
  ⟨_, by decide, rfl, by decide⟩

theorem witness_DeriveWritesParameters : (machine quantized).block.lawTag = 1 ∧ (machine passthrough).block.lawTag ≠ 1 := by
  decide

theorem witness_FwdPassesU16Through :
    (machine passthrough).block.lawTag ≠ 1 ∧ (machine passthrough).block.srcFmt = .u16 := by decide

/-- NaN, `-0.0`, the largest negative magnitude, the smallest and the greatest positive sample. -/
theorem witness_FwdScalesToMillimetres :
    (machine Block.reset).block.lawTag ≠ 1 ∧ (machine Block.reset).block.srcFmt = .f32 ∧
    f32IsNaN 0x7F800001 = true ∧ f32Eq 0x80000000 0 = true ∧ f32Lt 0x80000001 0 = true ∧ f32Lt 0xFF800000 0 = true ∧
    f32Gt 0x00000001 0 = true ∧ f32Gt 0x7F800000 0 = true := by decide

/-- The clauses at DIN = 10.0 = M (not clamped), at the next value (clamped), and with a NaN intermediate. -/
theorem witness_FwdFollowsTheInverseDepthLaw :
    (machine quantized).block.lawTag = 1 ∧ (machine quantized).block.srcFmt = .f32 ∧
    f32Gt 0x41200000 0x41200000 = false ∧ f32Gt 0x41200001 0x41200000 = true ∧
    f32IsNaN (fsub32 (fdiv32 0x45CEE000 0x41200000) 0x44254000) = false ∧
    f32IsNaN (fsub32 (fdiv32 0x7F800000 0x41200000) 0x7F800000) = true := by decide +kernel

theorem witness_FwdQuantizedOnU16IsIllegal :
    (machine { quantized with ctrl := 0x91 }).block.lawTag = 1 ∧ (machine { quantized with ctrl := 0x91 }).block.srcFmt = .u16 := by
  decide

theorem witness_FwdCompletesWithACode :
    ¬((machine quantized).block.lawTag = 1 ∧ (machine quantized).block.srcFmt = .u16) := by decide

theorem witness_ValidSampleNeverGivesTheSentinel :
    f32Gt 0x00000001 0 = true ∧ (fwdQuant 0x00000001 0x45CEE000 0x44254000 0x41200000).nan = false := by decide +kernel

theorem witness_FwdNanIntermediateArises :
    f32IsFinite 0x7F7FFFFF = true ∧ f32Gt 0x7F7FFFFF 0 = true ∧ f32IsFinite 0x00000001 = true ∧ f32Gt 0x00000001 0 = true := by
  decide

theorem witness_FwdClampsToTheBounds :
    (machine quantized).block.lawTag = 1 ∧ (machine quantized).block.srcFmt = .f32 ∧
    f32Gt ((machine quantized).block.get .depthMax) 0 = true ∧ f32Gt 0x41200001 ((machine quantized).block.get .depthMax) = true ∧
    f32Lt 0x80000001 0 = true := by decide

theorem witness_ForwardCodesFallWithDepth :
    f32IsFinite 0x45CEE000 = true ∧ f32Gt 0x45CEE000 0 = true ∧ f32IsFinite 0x44254000 = true ∧ f32Gt 0x00000001 0 = true ∧
    f32Le 0x00000001 0x7F800000 = true := by decide

/-- Each clause: code 0, a NaN quotient, a negative one, a zero one, one beyond M, one at M. -/
theorem witness_InvFollowsTheInverseDepthLaw :
    (machine quantized).block.lawTag = 1 ∧ (0 : Nat) = ((machine quantized).block.get .din).toNat % 65536 ∧
    f32IsNaN (fdiv32 0 (fadd32 (f32OfNat 5) 0xC0A00000)) = true ∧
    f32Lt (fdiv32 0x45CEE000 (fadd32 (f32OfNat 5) 0xC47A0000)) 0 = true ∧
    f32Eq (fdiv32 0x80000000 (fadd32 (f32OfNat 5) 0x44254000)) 0 = true ∧
    (f32Gt (fdiv32 0x45CEE000 (fadd32 (f32OfNat 661) 0xC4254000)) 0 = true ∧
      f32Gt (fdiv32 0x45CEE000 (fadd32 (f32OfNat 661) 0xC4254000)) 0x41200000 = true) ∧
    (f32Gt (fdiv32 0x45CEE000 (fadd32 (f32OfNat 1) 0x44254000)) 0 = true ∧
      f32Gt (fdiv32 0x45CEE000 (fadd32 (f32OfNat 1) 0x44254000)) 0x41200000 = false) := by decide +kernel

theorem witness_InvNanQuotientArises : (65535 : Nat) ≤ 65535 := le_rfl

theorem witness_InvDepthStaysInRange :
    (machine quantized).block.lawTag = 1 ∧ f32Gt ((machine quantized).block.get .depthMax) 0 = true := by decide

theorem witness_InvPassesU16Through :
    (machine Block.reset).block.lawTag ≠ 1 ∧ (machine Block.reset).block.rawOutFmt = .u16 := by decide

theorem witness_InvScalesToMetres :
    (machine { Block.reset with ctrl := 0x92, din := 65535 }).block.lawTag ≠ 1 ∧
    (machine { Block.reset with ctrl := 0x92, din := 65535 }).block.rawOutFmt = .f32 ∧
    65535 = ((machine { Block.reset with ctrl := 0x92, din := 65535 }).block.get .din).toNat % 65536 ∧
    0 = ((machine { Block.reset with ctrl := 0x92, din := 65536 }).block.get .din).toNat % 65536 := by decide

theorem witness_InvalidSamplesArePreserved :
    (machine { quantized with din := 0xFFFFFFFF }).block.srcFmt = .f32 ∧
    f32IsNaN ((machine { quantized with din := 0xFFFFFFFF }).block.get .din) = true ∧
    (machine { passthrough with din := 0xABCD0000 }).block.srcFmt = .u16 ∧
    (machine { passthrough with din := 0xABCD0000 }).block.lawTag ≠ 1 ∧
    ((machine { passthrough with din := 0xABCD0000 }).block.get .din).toNat % 65536 = 0 := by decide

theorem witness_U16SampleRoundTripIsExact :
    (machine { passthrough with din := 0xFFFF }).block.lawTag ≠ 1 ∧ (machine { passthrough with din := 0xFFFF }).block.srcFmt = .u16 ∧
    (machine { passthrough with din := 0xFFFF }).block.rawOutFmt = .u16 ∧
    (machine { passthrough with din := 0xFFFF }).block.get .din = (0xFFFF : Half).setWidth 32 := by decide

/-- At both ends of the range. -/
theorem witness_F32RawRoundTripError :
    (machine { Block.reset with ctrl := 0x92, din := 0x3A03126F }).block.lawTag ≠ 1 ∧
    (machine { Block.reset with ctrl := 0x92, din := 0x3A03126F }).block.srcFmt = .f32 ∧
    (machine { Block.reset with ctrl := 0x92, din := 0x3A03126F }).block.rawOutFmt = .f32 ∧
    f32Le 0x3A03126F 0x3A03126F = true ∧ f32Le 0x3A03126F 0x428311EC = true ∧ f32Le 0x428311EC 0x428311EC = true := by decide

theorem witness_HencWritesTheWireHeader : (machine Block.reset).block.lawTag = 0 ∧ (machine quantized).block.lawTag ≠ 0 := by
  decide

/-- The tags 0, 1, 2 and 255, and the counts 0, 1, 8 and 9. -/
theorem witness_HdecChecksInOrder :
    ((machine { Block.reset with hdrW0 := 0xFF }).block.get .hdrAvail).toNat = 0 ∧
    2 ≤ ((machine { Block.reset with hdrW0 := 0xFF, hdrAvail := 1 }).block.hdrByte 0).toNat ∧
    2 ≤ ((machine { Block.reset with hdrW0 := 0x02, hdrAvail := 9 }).block.hdrByte 0).toNat ∧
    ((machine { Block.reset with hdrW0 := 0x01, hdrAvail := 8 }).block.hdrByte 0 = 1 ∧
      ((machine { Block.reset with hdrW0 := 0x01, hdrAvail := 8 }).block.get .hdrAvail).toNat < 9) ∧
    ((machine { Block.reset with hdrAvail := 1 }).block.hdrByte 0 = 0 ∧
      ((machine { Block.reset with hdrAvail := 1 }).block.get .hdrAvail).toNat ≠ 0) ∧
    ((machine { Block.reset with hdrW0 := 0x01, hdrAvail := 9 }).block.hdrByte 0 = 1 ∧
      9 ≤ ((machine { Block.reset with hdrW0 := 0x01, hdrAvail := 9 }).block.get .hdrAvail).toNat) := by decide

/-- The header of P_ex in another instance's buffer, with HDR_AVAIL at its least. -/
theorem witness_HeaderRoundTripRestoresParameters :
    ∃ t, (machine quantized).block.lawTag = 1 ∧ exec .henc (machine quantized) = .next t ∧
      (∀ i, i < (t.block.get .hdrLen).toNat →
        (machine { Block.reset with hdrW0 := 0xCEE00001, hdrW1 := 0x25400045, hdrW2 := 0x44, hdrAvail := 9 }).block.hdrByte i =
          t.block.hdrByte i) ∧
      (t.block.get .hdrLen).toNat ≤ ((machine { Block.reset with hdrAvail := 9 }).block.get .hdrAvail).toNat :=
  ⟨_, by decide, rfl, by decide, by decide⟩

theorem witness_HeaderRoundTripUnderEitherByteOrder :
    quantized.lawTag = 1 ∧
    (∀ i < 9, (Block.hdrByte { Block.reset with hdrW0 := 0xE0CE4501, hdrW1 := 0x40254400, hdrW2 := 0x00, hdrAvail := 9 } i) =
      (hencBlock .big { quantized with paramA := 0x45CEE000 }).hdrByte i) ∧
    9 ≤ (Block.get { Block.reset with hdrAvail := 9 } .hdrAvail).toNat := by decide

theorem witness_EveryCommandEndsInOneOfThreeOutcomes :
    (issuing quantized (wr .cmd 0xFFFFFFFF)).host.port = wr .cmd 0xFFFFFFFF :: [] := rfl

/-- Two machines that differ in EFFORT, DEPTH_QUANT and the header buffer. -/
theorem witness_CommandsDependOnlyOnTheirOperands :
    AgreeOnOperands .fwd quantized { quantized with ctrl := 0x10, depthQuant := 7, hdrW0 := 5 } ∧
    (∃ t, exec .fwd (machine quantized) = .next t) ∧ quantized.lastInv = Block.lastInv { quantized with ctrl := 0x10 } ∧
    quantized.sticky .nan = Block.sticky { quantized with ctrl := 0x10 } .nan :=
  ⟨⟨by decide, by decide, by decide, by decide, by decide, by decide⟩, ⟨_, rfl⟩, by decide, by decide⟩

theorem witness_NoCommandReadsEffort :
    ((0x00000000 : Word) ^^^ (machine Block.reset).block.get .ctrl) &&& 0xFFFFFF0F = 0 ∧
    (machine Block.reset).block.get .ctrl ≠ 0 := by decide

theorem witness_LawChangesOnlyBySelectOrHdec :
    ∃ t, step (issuing Block.reset (wr .cmd 1)) = .next t ∧ t.block.get .law ≠ (issuing Block.reset (wr .cmd 1)).block.get .law :=
  ⟨_, rfl, by decide⟩

/-- ERR set and a sticky bit raised by an illegal word; LAST_INV changed by FWD of 0.0 from reset; a sticky bit cleared by a
write of STATUS. -/
theorem witness_StatusFlagsHaveTheirWriters :
    (∃ t, step (issuing Block.reset (wr .cmd 8)) = .next t ∧ t.block.err ≠ Block.reset.err ∧
      Block.reset.sticky .illegal = false ∧ t.block.sticky .illegal = true) ∧
    (∃ t, step (issuing Block.reset (wr .cmd 3)) = .next t ∧ t.block.lastInv ≠ Block.reset.lastInv) ∧
    (∃ t, step (issuing { Block.reset with status := 0x2000 } (wr .status 0x2000)) = .next t ∧
      Block.sticky { Block.reset with status := 0x2000 } .nan = true ∧ t.block.sticky .nan = false) :=
  ⟨⟨_, rfl, by decide, by decide, by decide⟩, ⟨_, rfl, by decide⟩, ⟨_, rfl, by decide, by decide⟩⟩

theorem witness_HostRegistersChangeOnlyByHostWrites :
    ∃ t, RegName.hdrAvail ∈ [RegName.ctrl, .depthMax, .depthQuant, .din, .hdrAvail] ∧
      step (issuing Block.reset (wr .hdrAvail 5)) = .next t ∧ t.block.get .hdrAvail ≠ Block.reset.get .hdrAvail :=
  ⟨_, by decide, rfl, by decide⟩

theorem witness_ReadHasNoSideEffect : (issuing quantized (rd .cmd)).host.port = rd .cmd :: [] := rfl

theorem witness_HostWriteTakesEffect :
    RegName.ctrl ≠ .cmd ∧ (issuing quantized (wr .ctrl 0xFFFFFFFF)).host.port = wr .ctrl 0xFFFFFFFF :: [] := ⟨by decide, rfl⟩

/-- EFFORT 9 and 10. -/
theorem witness_CtrlWriteStoresEffort :
    (issuing quantized (wr .ctrl 0xA0)).host.port = wr .ctrl 0xA0 :: [] ∧ ((0x90 : Word).extractLsb' 4 4).toNat ≤ 9 ∧
    10 ≤ ((0xA0 : Word).extractLsb' 4 4).toNat := by decide

theorem witness_StatusWriteClearsStickyBits :
    (issuing quantized (wr .status 0x100)).host.port = wr .status 0x100 :: [] := rfl

theorem witness_MalformedAccessIsRefused :
    (issuing quantized (.read .word 0x3F)).host.port = .read .word 0x3F :: [] ∧ (Access.read .word 0x3F).wf = false ∧
    (Access.read .word 0x3C).wf = true := by decide

theorem witness_QuiescentMachineStays : State.reset.Quiescent := by decide

theorem witness_InstancesDoNotInterfere :
    ∃ sys', System.stepAt [issuing Block.reset (wr .din 1), State.reset] 0 = .next sys' ∧
      ([issuing Block.reset (wr .din 1), State.reset])[0]? = some (issuing Block.reset (wr .din 1)) := ⟨_, rfl, rfl⟩

/-- A host about to begin the calls `calls`. -/
def hosting (calls : List Call) : State := { State.reset with host := { HostAgent.reset with calls := calls } }

theorem witness_EncodeFrameRunsToItsResult :
    (hosting [.encode ⟨1, 1, .u16 [5]⟩ hostConfigDefault]).host.port = [] ∧
    (hosting [.encode ⟨1, 1, .u16 [5]⟩ hostConfigDefault]).host.phase = .idle ∧
    (hosting [.encode ⟨1, 1, .u16 [5]⟩ hostConfigDefault]).host.calls = .encode ⟨1, 1, .u16 [5]⟩ hostConfigDefault :: [] ∧
    (Frame.mk 1 1 (.u16 [5])).wf = true ∧ (Frame.mk 1 1 .other).wf = true := by decide

theorem witness_DecodeFrameRunsToItsResult :
    (hosting [.decode [0x07] .u16]).host.port = [] ∧ (hosting [.decode [0x07] .u16]).host.phase = .idle ∧
    (hosting [.decode [0x07] .u16]).host.calls = .decode [0x07] .u16 :: [] ∧
    (hosting [.decode [0x00, 0xAB] .f32]).host.calls = .decode [0x00, 0xAB] .f32 :: [] ∧
    readHeader .little [0x00, 0xAB] = .ok (0, 0, 0, 1) ∧
    readHeader .little [0x01, 0x00, 0xE0, 0xCE, 0x45, 0x00, 0x40, 0x25, 0x44] = .ok (1, 0x45CEE000, 0x44254000, 9) :=
  ⟨rfl, rfl, rfl, rfl, rfl, rfl⟩

/-- A codec that can hold one grid only: one code `k`. -/
def oneCodeCodec (k : Half) : Config.Codec where
  compress := fun grid w h _ => if grid = [k] ∧ w = 1 ∧ h = 1 then some [0xAB] else none
  decompress := fun bytes => if bytes = [0xAB] then some (1, 1, [k]) else none
  bounds := fun _ _ => true

theorem oneCodeCodec_lossless (k : Half) : CodecLossless (oneCodeCodec k) := by
  intro grid w h effort bytes hc
  simp only [oneCodeCodec] at hc ⊢
  split at hc
  · rename_i hg
    cases hc
    obtain ⟨rfl, rfl, rfl⟩ := hg
    rfl
  · cases hc

theorem witness_U16FrameRoundTripIsExact :
    CodecLossless (oneCodeCodec 0x1234) ∧ (oneCodeCodec 0x1234).bounds 1 1 = true ∧ ([0x1234] : List Half).length = 1 * 1 ∧
    encodeFrame (fun _ _ => (0, 0)) .little (oneCodeCodec 0x1234) ⟨1, 1, .u16 [0x1234]⟩ hostConfigDefault =
      .encoded [0x00, 0xAB] .u16 := ⟨oneCodeCodec_lossless _, rfl, rfl, by decide +kernel⟩

/-- A frame of one NaN pixel, under the quantized law the defaults select (spec/95 section 1.2). -/
theorem witness_InvalidPixelsSurviveTheFrame :
    CodecLossless (oneCodeCodec 0) ∧ (oneCodeCodec 0).bounds 1 1 = true ∧ ([0x7FC00000] : List Word).length = 1 * 1 ∧
    encodeFrame (fun _ _ => (0x45CE4000, 0x4424C000)) .little (oneCodeCodec 0) ⟨1, 1, .f32 [0x7FC00000]⟩ hostConfigDefault =
      .encoded [0x01, 0x00, 0x40, 0xCE, 0x45, 0x00, 0xC0, 0x24, 0x44, 0xAB] .f32 ∧
    f32IsNaN 0x7FC00000 = true ∧ f32IsZero 0x80000000 = true :=
  ⟨oneCodeCodec_lossless _, rfl, rfl, by decide +kernel, by decide, by decide⟩

/-- Equal keys of values above zero are equal patterns. -/
theorem eq_of_f32Key_eq (d u : Word) (hu : 0 < f32Key u) (h : f32Key d = f32Key u) : d = u := by
  obtain ⟨s1, m1⟩ := (f32Key_pos_iff u).1 hu
  obtain ⟨s2, m2⟩ := (f32Key_pos_iff d).1 (by rw [h]; exact hu)
  have hm : f32Mag d = f32Mag u := by
    unfold f32Key at h
    rw [s1, s2] at h
    simpa using h
  rw [← f32WithSign_mag d, ← f32WithSign_mag u, s1, s2, hm]

/-- H_range on the one-point interval M = Q = 1.0 with A = 5.0 and B = 0.0. -/
theorem hRange_one : HRange (fun _ _ => (0x40A00000, 0)) 0x3F800000 0x3F800000 := by
  intro d h1 h2
  have hd : d = 0x3F800000 := eq_of_f32Key_eq d _ (by decide) (le_antisymm ((f32Le_iff _ _).1 h2).2.2 ((f32Le_iff _ _).1 h1).2.2)
  subst hd
  exact ⟨by decide +kernel, 5, by decide +kernel, by norm_num, by norm_num⟩

/-- The block of `hRange_one` with the sample 1.0. -/
def oneMetre : Block :=
  { quantized with depthMax := 0x3F800000, depthQuant := 0x3F800000, paramA := 0x40A00000, paramB := 0, din := 0x3F800000 }

theorem witness_HRangeKeepsCodesUnsaturated :
    (machine oneMetre).block.lawTag = 1 ∧ (machine oneMetre).block.srcFmt = .f32 ∧
    f32Gt ((machine oneMetre).block.get .depthQuant) 0 = true ∧
    HRange (fun _ _ => (0x40A00000, 0)) ((machine oneMetre).block.get .depthMax) ((machine oneMetre).block.get .depthQuant) ∧
    ((machine oneMetre).block.get .paramA, (machine oneMetre).block.get .paramB) = (0x40A00000, 0) ∧
    f32Le ((machine oneMetre).block.get .depthQuant) ((machine oneMetre).block.get .din) = true ∧
    f32Le ((machine oneMetre).block.get .din) ((machine oneMetre).block.get .depthMax) = true :=
  ⟨by decide, by decide, by decide, hRange_one, rfl, by decide, by decide⟩

theorem witness_DefaultsMakeRangeHypothesesVacuous : Monotone (fun _ : ℚ => (1 : ℚ)) := fun _ _ _ => le_rfl

theorem witness_ExactLawsAreInverse :
    (5 / 2 : ℚ) ≠ 0 ∧ (1987 : ℚ) + 661 ≠ 0 ∧ (1987 : ℚ) = exactCode 6620 661 (5 / 2) := by
  unfold exactCode; norm_num

/-- Both ends of the finite values, both zeros as divisors, and both infinities. -/
theorem witness_ArithmeticRoundsToNearestEven :
    f32IsFinite 0x7F7FFFFF = true ∧ f32IsFinite 0x00000001 = true ∧ f32IsZero 0x00000001 = false ∧
    f32IsZero 0x80000000 = true ∧ f32IsZero 0x00000000 = true ∧ f32IsInf 0x7F800000 = true ∧ f32IsInf 0xFF800000 = true ∧
    f32Sign 0x7F800000 ≠ f32Sign 0xFF800000 := by decide

theorem witness_ComparisonsFollowTheValues :
    f32IsFinite 0x80000000 = true ∧ f32IsFinite 0x7F7FFFFF = true ∧ f32IsNaN 0xFF800001 = true ∧ f32IsNaN 0xFF800000 = false ∧
    f32IsNaN 0x7F7FFFFF = false := by decide

theorem witness_ConversionIsExact : (65535 : Nat) ≤ 65535 := le_rfl

theorem witness_RoundHalfAwayOnTheExactValue : f32IsFinite 0xC0200000 = true ∧ roundHalfAway 0xC0200000 = .int (-3) := by
  decide +kernel

end Sys2Proof.Tests
end

section
/-! PROOFS. roundHalfAway (R12) on the exact value: the integer division on units of 2^-149 is the floor of the rational. -/

namespace Sys2Proof.Machine

theorem abs_f32Rat (u : Word) : |f32Rat u| = (f32Units u : ℚ) / 2 ^ 149 := by
  have hnonneg : (0 : ℚ) ≤ (f32Units u : ℚ) / 2 ^ 149 := by positivity
  rw [f32Rat_eq, ← f32Units_eq]
  cases f32Sign u <;> simpa using abs_of_nonneg hnonneg

theorem f32Rat_neg_iff (u : Word) : f32Rat u < 0 ↔ f32Sign u = true ∧ 0 < f32Units u := by
  rw [f32Rat, div_lt_iff₀ (by positivity), zero_mul, Int.cast_lt_zero, f32SUnits]
  cases f32Sign u <;> simp

/-- Adding a half and taking the floor, on `n` units of 2^-149, is one integer division. -/
theorem floor_units_add_half (n : Nat) :
    ⌊(n : ℚ) / 2 ^ 149 + 1 / 2⌋ = (((2 * n + 2 ^ 149) / 2 ^ 150 : Nat) : Int) := by
  have hq : (n : ℚ) / 2 ^ 149 + 1 / 2 = ((2 * n + 2 ^ 149 : Nat) : ℚ) / ((2 ^ 150 : Nat) : ℚ) := by
    push_cast
    ring
  rw [hq, Rat.floor_natCast_div_natCast, Int.natCast_div]

theorem roundHalfAway_finite (t : Word) (ht : f32IsFinite t = true) :
    roundHalfAway t = .int (if f32Sign t then -⌊|f32Rat t| + 1 / 2⌋ else ⌊|f32Rat t| + 1 / 2⌋) := by
  obtain ⟨hnan, hinf⟩ := f32_of_finite t ht
  rw [abs_f32Rat, floor_units_add_half]
  simp only [roundHalfAway, hnan, hinf, Bool.false_eq_true, if_false]

/-- The sign bit and the sign of the exact value differ only on `-0.0`, whose rounded magnitude is 0. -/
theorem neg_floor_sign_bit_eq_sign_value (t : Word) :
    (if f32Sign t then -⌊|f32Rat t| + 1 / 2⌋ else ⌊|f32Rat t| + 1 / 2⌋) =
      if f32Rat t < 0 then -⌊|f32Rat t| + 1 / 2⌋ else ⌊|f32Rat t| + 1 / 2⌋ := by
  rcases Nat.eq_zero_or_pos (f32Units t) with hzero | hpos
  · have hfloor : ⌊|f32Rat t| + 1 / 2⌋ = 0 := by
      rw [abs_f32Rat, floor_units_add_half, hzero]
      norm_num
    simp only [hfloor, neg_zero, ite_self]
  · simp only [f32Rat_neg_iff, hpos, and_true]

/-- Settles O59: on a finite value by the integer division on units, with `-0.0` the one value whose sign bit is not the sign
of its value; on the infinities by evaluation. -/
theorem roundHalfAwayOnTheExactValue : Obligations.RoundHalfAwayOnTheExactValue := by
  refine ⟨fun t ht => ?_, by decide, by decide⟩
  rw [roundHalfAway_finite t ht, neg_floor_sign_bit_eq_sign_value]

end Sys2Proof.Machine
end

section
/-! PROOFS. Host register writes: the step that performs one, the registers it leaves alone, the fields of STATUS after W1C
(R37, R54), and the register file at reset (R42). -/

namespace Sys2Proof.Machine

/-- A step with a write to a register other than CMD next performs the host write (R54). -/
theorem step_wr (s : State) (r : RegName) (v : Word) (rest : List Access) (h : s.host.port = wr r v :: rest)
    (hr : r ≠ .cmd) : step s = .next ((s.withPort rest).withBlock (hostWrite r v s.block)) := by
  rw [step_port s _ rest h, performAccess_wr r v _ hr, withPort_block]

/-- A host write leaves every register but its own alone. -/
theorem onlyWrites_hostWrite (r : RegName) (v : Word) (b : Block) : OnlyWrites [r] b (hostWrite r v b) := by
  intro r' h
  have hne : r' ≠ r := by simpa using h
  cases r <;> simp only [hostWrite, get_put_ne _ _ _ _ hne]

@[simp] theorem err_hostWrite_status (v : Word) (b : Block) : (hostWrite .status v b).err = b.err := by
  rw [hostWrite, err_put_status, statusErr_w1c, Block.err]

@[simp] theorem lastInv_hostWrite_status (v : Word) (b : Block) : (hostWrite .status v b).lastInv = b.lastInv := by
  rw [hostWrite, lastInv_put_status, statusLastInv_w1c, Block.lastInv]

/-- W1C (R37): a sticky bit stays set unless its bit of the written value is 1. -/
@[simp] theorem sticky_hostWrite_status (v : Word) (b : Block) (k : Sticky) :
    (hostWrite .status v b).sticky k = (b.sticky k && !v.getLsbD k.bit) := by
  rw [hostWrite, sticky_put_status, statusSticky_w1c, Block.sticky]

/-- The reserved bits of a register read 0 (R39, R53). -/
theorem get_and_reserved (b : Block) (r : RegName) (h : r.stored = true) : b.get r &&& ~~~r.implemented = 0 := by
  rw [← get_and_implemented b r h, BitVec.and_assoc, BitVec.and_not_self]
  exact BitVec.and_zero

/-- Settles O45: the step is the host write of STATUS, whose effect on each field of STATUS is W1C's. -/
theorem statusWriteClearsStickyBits : Obligations.StatusWriteClearsStickyBits := by
  intro s v rest h
  exact ⟨_, step_wr s .status v rest h (by decide), onlyWrites_hostWrite .status v s.block,
    err_hostWrite_status v s.block, lastInv_hostWrite_status v s.block, sticky_hostWrite_status v s.block,
    get_and_reserved _ .status rfl⟩

/-- Settles O1, by evaluating each register and each field of CTRL on the one register file of R42. -/
theorem resetRegisterValues : Obligations.ResetRegisterValues := by
  unfold Obligations.ResetRegisterValues
  decide

end Sys2Proof.Machine
end

section
/-! PROOFS. The register port: which accesses it refuses and which it performs (R52), and what a read does (R53). -/

namespace Sys2Proof.Machine

/-- The addresses with no register are the misaligned ones: "Every word offset is mapped" (R50, R52). -/
theorem regAt_eq_none_iff (x : RegAddr) : regAt x = none ↔ (x.extractLsb' 0 2 == 0#2) = false := by
  revert x
  decide

/-- Every malformed access is refused: a narrow one for its width, whatever its address, and a misaligned 32-bit one for its
address. -/
theorem performAccess_of_not_wf (a : Access) (s : State) (h : a.wf = false) :
    performAccess a s = .refused .narrowAccess ∨ performAccess a s = .refused .misalignedAccess := by
  match a with
  | .read .byte _ | .read .half _ | .write .byte _ _ | .write .half _ _ => exact .inl rfl
  | .read .word x =>
    have hnone : regAt x = none := (regAt_eq_none_iff x).2 h
    exact .inr (by simp only [performAccess, hnone])
  | .write .word x _ =>
    have hnone : regAt x = none := (regAt_eq_none_iff x).2 h
    exact .inr (by simp only [performAccess, hnone])

/-- The port performs every well-formed access: a read, a host write, and a write to CMD of a legal or an illegal word. -/
theorem performAccess_of_wf (a : Access) (s : State) (h : a.wf = true) : ∃ t, performAccess a s = .next t := by
  rcases performAccess_cases a s with ⟨r, hread, -⟩ | ⟨r, v, -, -, hwrite⟩ | ⟨w, i, -, -, hcommand⟩ |
    ⟨w, e, -, -, hillegal⟩ | ⟨r, hmalformed, -⟩
  · exact ⟨_, hread⟩
  · exact ⟨_, hwrite⟩
  · obtain ⟨b, hb⟩ := exec_next i s
    exact ⟨_, hcommand.trans hb⟩
  · exact ⟨_, hillegal⟩
  · rw [h] at hmalformed
    cases hmalformed

/-- Settles O46: the step is the port's access, which is refused or performed as the access is malformed or not. -/
theorem malformedAccessIsRefused : Obligations.MalformedAccessIsRefused := by
  intro s a rest hport
  rw [step_port s a rest hport]
  exact ⟨performAccess_of_not_wf a _, performAccess_of_wf a _⟩

/-- A step with a read next takes the access off the port and records the register's value (R53). -/
theorem step_rd (s : State) (r : RegName) (rest : List Access) (h : s.host.port = rd r :: rest) :
    step s = .next ((s.withPort rest).record (s.block.get r)) := by
  rw [step_port s _ rest h, performAccess_rd, withPort_block]

/-- The two registers that store nothing, ID and CMD, have no reserved bits (R21, R38). -/
theorem implemented_of_not_stored (r : RegName) (h : r.stored = false) : r.implemented = 0xFFFFFFFF := by
  match r, h with
  | .id, _ => rfl
  | .cmd, _ => rfl

/-- `get_and_reserved` without its hypothesis: ID and CMD have no reserved bits to read. -/
theorem get_and_reserved_all (b : Block) (r : RegName) : b.get r &&& ~~~r.implemented = 0 := by
  cases hstored : r.stored with
  | true => exact get_and_reserved b r hstored
  | false =>
    rw [implemented_of_not_stored r hstored]
    exact BitVec.and_zero

/-- Settles O42: the step records the value on the host's side only; ID and CMD read their constants. -/
theorem readHasNoSideEffect : Obligations.ReadHasNoSideEffect := by
  intro s r rest hport
  refine ⟨_, s.block.get r, step_rd s r rest hport, rfl, rfl, rfl, rfl, get_and_reserved_all s.block r, ?_, ?_⟩
  · rintro rfl
    exact get_cmd s.block
  · rintro rfl
    exact get_id s.block

end Sys2Proof.Machine
end

section
/-! PROOFS. Command words: the decoder is the inverse of the opcode map (R70, R73), and every word outside the map is
IllegalCommand (R71, R74). -/

namespace Sys2Proof

/-- A command word is its two fields, RSVD above OP (R70). -/
theorem rsvdField_append_opField (w : Word) : rsvdField w ++ opField w = w := by
  rw [rsvdField, opField, BitVec.extractLsb'_append_extractLsb'_eq_extractLsb' (start₁ := 0) (start₂ := 8) rfl,
    BitVec.extractLsb'_eq_self]

/-- An opcode reads as a command exactly when it is the one in the command's word. -/
theorem opcodeMap_eq_some_iff (op : Byte) (i : Instr) : opcodeMap op = some i ↔ op = opField (encode i) := by
  constructor
  · intro h
    unfold opcodeMap at h
    split at h <;> cases h <;> exact BitVec.eq_of_toNat_eq ‹_›
  · rintro rfl
    cases i <;> rfl

/-- The reserved opcodes are `0x08..0xFF` (R74). -/
theorem opcodeMap_eq_none_of_le (op : Byte) (h : 8 ≤ op.toNat) : opcodeMap op = none := by
  cases hop : opcodeMap op with
  | none => rfl
  | some i =>
    have hi : op = opField (encode i) := (opcodeMap_eq_some_iff op i).1 hop
    have hlow : (opField (encode i)).toNat ≤ 7 := by cases i <;> decide
    rw [hi] at h
    omega

@[simp] theorem rsvdField_encode (i : Instr) : rsvdField (encode i) = 0 := by cases i <;> rfl

/-- The two checks of R71: RSVD is 0 and the opcode is in the map. -/
theorem decode_eq_ok_iff (w : Word) (i : Instr) :
    decode w = .ok i ↔ rsvdField w = 0 ∧ opcodeMap (opField w) = some i := by
  unfold decode
  by_cases hrsvd : rsvdField w = 0
  · rw [if_neg (not_not.2 hrsvd)]
    cases opcodeMap (opField w) <;> simp [hrsvd]
  · rw [if_pos hrsvd]
    exact ⟨nofun, fun ⟨hzero, _⟩ => absurd hzero hrsvd⟩

/-- A word decodes to a command exactly when it is the command's word. -/
theorem decode_eq_ok_iff_eq_encode (w : Word) (i : Instr) : decode w = .ok i ↔ w = encode i := by
  rw [decode_eq_ok_iff, opcodeMap_eq_some_iff]
  constructor
  · rintro ⟨hrsvd, hop⟩
    rw [← rsvdField_append_opField w, hrsvd, hop, ← rsvdField_encode i, rsvdField_append_opField]
  · rintro rfl
    exact ⟨rsvdField_encode i, rfl⟩

/-- R74: a word with RSVD not 0 or a reserved opcode fails one of the two checks of R71. -/
theorem decode_eq_error (w : Word) (h : rsvdField w ≠ 0 ∨ 8 ≤ (opField w).toNat) : ∃ e, decode w = .error e := by
  unfold decode
  by_cases hrsvd : rsvdField w ≠ 0
  · exact ⟨_, if_pos hrsvd⟩
  · have hop : opcodeMap (opField w) = none := opcodeMap_eq_none_of_le _ (h.resolve_left hrsvd)
    exact ⟨.unknownOpcode, by rw [if_neg hrsvd, hop]⟩

/-- Settles O4: a word decodes to `i` exactly when it is `encode i`, and the map's row of `i` holds that word. -/
theorem decodeAcceptsExactlyTheOpcodeMap : Obligations.DecodeAcceptsExactlyTheOpcodeMap := by
  intro w i
  rw [decode_eq_ok_iff_eq_encode]
  cases i <;> simp [encode]

namespace Machine

/-- A step with a word outside the opcode map next raises IllegalCommand (R71, R74). -/
theorem step_illegal_word (s : State) (w : Word) (rest : List Access) (e : DecodeError)
    (hport : s.host.port = wr .cmd w :: rest) (hd : decode w = .error e) :
    step s = .next ((s.withPort rest).withBlock (raiseError .illegalCommand s.block)) := by
  rw [step_port s _ rest hport, performAccess_cmd_word, runCommand, hd, withPort_block]

/-- The error outcome writes STATUS alone (R182). -/
theorem onlyWrites_raiseError (k : ErrorKind) (b : Block) : OnlyWrites [.status] b (raiseError k b) := by
  intro r hr
  exact get_raiseError b k r (by simpa using hr)

/-- What the error outcome makes of STATUS (R182). -/
theorem statusBecomes_raiseError (k : ErrorKind) (b : Block) :
    StatusBecomes b (raiseError k b) k.code b.lastInv [k.sticky] := by
  exact ⟨err_raiseError b k, lastInv_raiseError b k, fun j => by simp⟩

/-- Settles O7: the word does not decode, and the step is the error outcome of IllegalCommand. -/
theorem everyOtherWordIsIllegalCommand : Obligations.EveryOtherWordIsIllegalCommand := by
  intro s w rest hport hw
  obtain ⟨e, hd⟩ := decode_eq_error w hw
  exact ⟨_, step_illegal_word s w rest e hport hd, rfl, onlyWrites_raiseError .illegalCommand s.block,
    statusBecomes_raiseError .illegalCommand s.block⟩

end Machine

end Sys2Proof
end

section
/-! PROOFS. What the quantization commands leave behind, said once: the register file each command answers, the registers it
leaves alone, DOUT and STATUS after FWD and INV (R110, R118), and the operand DIN[15:0]. -/

namespace Sys2Proof.Machine

/-- The register file a command answers. -/
def commandBlock : Instr → Block → Block
  | .nop => nopBlock
  | .select => selectBlock
  | .derive => deriveBlock Config.deriveParams
  | .fwd => fwdBlock
  | .inv => invBlock
  | .henc => hencBlock Config.headerByteOrder
  | .hdec => hdecBlock Config.headerByteOrder
  | .clrst => clrstBlock

theorem exec_eq_commandBlock (i : Instr) (s : State) : exec i s = .next (s.withBlock (commandBlock i s.block)) := by
  cases i <;> rfl

/-- A command that ends in `ERR <- code` and has not touched STATUS before changes nothing of STATUS but ERR. -/
theorem statusBecomes_setErr (b c : Block) (code : BitVec 4) (h : c.get .status = b.get .status) :
    StatusBecomes b (c.setErr code) code b.lastInv [] := by
  refine ⟨err_setErr c code, ?_, fun k => ?_⟩
  · rw [lastInv_setErr, Block.lastInv, h, Block.lastInv]
  · rw [sticky_setErr, Block.sticky, h, Block.sticky]
    simp

/-- The sticky bits a result of FWD or INV raises, from its two flags (R110, R118). -/
def raisedBits (clamped nan : Bool) : List Sticky :=
  (if clamped then [.clamped] else []) ++ (if nan then [.nan] else [])

theorem mem_raisedBits (clamped nan : Bool) (k : Sticky) :
    k ∈ raisedBits clamped nan ↔ (clamped = true ∧ k = .clamped) ∨ (nan = true ∧ k = .nan) := by
  cases clamped <;> cases nan <;> simp [raisedBits]

/-- What the two commits of R110 and R118 make of a sticky bit, as a list of the bits raised. -/
theorem sticky_or_flags (old clamped nan : Bool) (k : Sticky) :
    (old || (clamped && decide (k = .clamped)) || (nan && decide (k = .nan))) =
      (old || decide (k ∈ raisedBits clamped nan)) := by
  simp only [mem_raisedBits, Bool.decide_or, Bool.decide_and, Bool.decide_eq_true, Bool.or_assoc]

theorem onlyWrites_fwdCommit (b : Block) (r : ForwardResult) : OnlyWrites [.dout, .status] b (fwdCommit b r) := by
  intro n hn
  obtain ⟨hdout, hstatus⟩ : n ≠ .dout ∧ n ≠ .status := by simpa using hn
  exact get_fwdCommit_ne b r n hdout hstatus

theorem onlyWrites_invCommit (b : Block) (r : InverseResult) : OnlyWrites [.dout, .status] b (invCommit b r) := by
  intro n hn
  obtain ⟨hdout, hstatus⟩ : n ≠ .dout ∧ n ≠ .status := by simpa using hn
  exact get_invCommit_ne b r n hdout hstatus

/-- A successful FWD (R110): the code in DOUT, and STATUS from the result's flags. -/
theorem fwdCommit_result (b : Block) (r : ForwardResult) :
    (fwdCommit b r).get .dout = r.code.setWidth 32 ∧
      StatusBecomes b (fwdCommit b r) 0 (r.code == 0) (raisedBits r.clamped r.nan) :=
  ⟨get_fwdCommit_dout b r, err_fwdCommit b r, lastInv_fwdCommit b r,
    fun k => (sticky_fwdCommit b r k).trans (sticky_or_flags _ _ _ k)⟩

/-- INV (R118): the output in DOUT, and STATUS from the result's flags. -/
theorem invCommit_result (b : Block) (r : InverseResult) :
    (invCommit b r).get .dout = r.out ∧ StatusBecomes b (invCommit b r) 0 r.invalid (raisedBits r.clamped r.nan) :=
  ⟨get_invCommit_dout b r, err_invCommit b r, lastInv_invCommit b r,
    fun k => (sticky_invCommit b r k).trans (sticky_or_flags _ _ _ k)⟩

/-- DIN[15:0] as a number (R30). -/
theorem dinHalf_toNat (b : Block) : b.dinHalf.toNat = (b.get .din).toNat % 65536 := by
  simp [Block.dinHalf, BitVec.extractLsb'_toNat]

/-- The test of R108 and R116 for the invalid sample, on the number. -/
theorem dinHalf_beq_zero (b : Block) : (b.dinHalf == 0) = decide ((b.get .din).toNat % 65536 = 0) := by
  rw [← dinHalf_toNat, Bool.eq_iff_iff, beq_iff_eq, decide_eq_true_eq, BitVec.toNat_eq]
  rfl

/-! FWD and INV, one equation for each path (R105, R111, R113). -/

theorem exec_fwd_illegal (s : State) (hlaw : s.block.lawTag = 1) (hsrc : s.block.srcFmt = .u16) :
    exec .fwd s = .next (s.withBlock (raiseError .illegalCommand s.block)) := by
  simp only [exec_eq_commandBlock, commandBlock, fwdBlock, hlaw, hsrc, if_true]

theorem exec_fwd_quantized (s : State) (hlaw : s.block.lawTag = 1) (hsrc : s.block.srcFmt = .f32) :
    exec .fwd s = .next (s.withBlock (fwdCommit s.block
      (fwdQuant (s.block.get .din) (s.block.get .paramA) (s.block.get .paramB) (s.block.get .depthMax)))) := by
  simp only [exec_eq_commandBlock, commandBlock, fwdBlock, hlaw, hsrc, if_true]

theorem exec_fwd_rawF32 (s : State) (hlaw : s.block.lawTag ≠ 1) (hsrc : s.block.srcFmt = .f32) :
    exec .fwd s = .next (s.withBlock (fwdCommit s.block (fwdRawF32 (s.block.get .din)))) := by
  simp only [exec_eq_commandBlock, commandBlock, fwdBlock, hlaw, hsrc, if_false]

theorem exec_fwd_rawU16 (s : State) (hlaw : s.block.lawTag ≠ 1) (hsrc : s.block.srcFmt = .u16) :
    exec .fwd s = .next (s.withBlock (fwdCommit s.block (fwdRawU16 s.block.dinHalf))) := by
  simp only [exec_eq_commandBlock, commandBlock, fwdBlock, hlaw, hsrc, if_false]

theorem exec_inv_quantized (s : State) (hlaw : s.block.lawTag = 1) :
    exec .inv s = .next (s.withBlock (invCommit s.block
      (invQuant s.block.dinHalf (s.block.get .paramA) (s.block.get .paramB) (s.block.get .depthMax)))) := by
  simp only [exec_eq_commandBlock, commandBlock, invBlock, hlaw, if_true]

theorem exec_inv_rawU16 (s : State) (hlaw : s.block.lawTag ≠ 1) (hout : s.block.rawOutFmt = .u16) :
    exec .inv s = .next (s.withBlock (invCommit s.block (invRawU16 s.block.dinHalf))) := by
  simp only [exec_eq_commandBlock, commandBlock, invBlock, hlaw, hout, if_false]

theorem exec_inv_rawF32 (s : State) (hlaw : s.block.lawTag ≠ 1) (hout : s.block.rawOutFmt = .f32) :
    exec .inv s = .next (s.withBlock (invCommit s.block (invRawF32 s.block.dinHalf))) := by
  simp only [exec_eq_commandBlock, commandBlock, invBlock, hlaw, hout, if_false]

end Sys2Proof.Machine
end

section
/-! PROOFS. SELECT (R91) and DERIVE (R95). -/

namespace Sys2Proof.Machine

/-- SELECT writes LAW and STATUS alone, whichever law it chooses. -/
theorem onlyWrites_selectBlock (b : Block) : OnlyWrites [.law, .status] b (selectBlock b) := by
  intro r hr
  obtain ⟨hlaw, hstatus⟩ : r ≠ .law ∧ r ≠ .status := by simpa using hr
  rcases selectBlock_cases b with ⟨-, -, -, h⟩ | ⟨-, -, h⟩ | ⟨-, h⟩
  · simp [h, hlaw, hstatus]
  · simp [h, hlaw, hstatus]
  · simp [h, hlaw, hstatus]

/-! One equation for each case of R91, and for each case of R95. -/

theorem selectBlock_quantized (b : Block) (hsrc : b.srcFmt = .f32) (hmax : f32Gt (b.get .depthMax) 0 = true)
    (hquant : f32Gt (b.get .depthQuant) 0 = true) : selectBlock b = (b.put .law 1).setErr errOk := by
  simp only [selectBlock, hsrc, hmax, hquant, Bool.and_self, if_true]

theorem selectBlock_fallback (b : Block) (hsrc : b.srcFmt = .f32)
    (hnot : ¬(f32Gt (b.get .depthMax) 0 = true ∧ f32Gt (b.get .depthQuant) 0 = true)) :
    selectBlock b = ((b.put .law 0).setSticky .fallback).setErr errInvalidParameters := by
  rw [← Bool.and_eq_true] at hnot
  simp only [selectBlock, hsrc, if_neg hnot]

theorem selectBlock_u16 (b : Block) (hsrc : b.srcFmt = .u16) : selectBlock b = (b.put .law 0).setErr errOk := by
  simp only [selectBlock, hsrc]

theorem deriveBlock_quantized (dp : Word → Word → Word × Word) (b : Block) (hlaw : b.lawTag = 1) :
    deriveBlock dp b = ((b.put .paramA (dp (b.get .depthMax) (b.get .depthQuant)).1).put .paramB
      (dp (b.get .depthMax) (b.get .depthQuant)).2).setErr errOk := by
  simp only [deriveBlock, if_pos hlaw]

theorem deriveBlock_raw (dp : Word → Word → Word × Word) (b : Block) (hlaw : b.lawTag ≠ 1) :
    deriveBlock dp b = ((b.put .paramA 0).put .paramB 0).setErr errOk := by
  simp only [deriveBlock, if_neg hlaw]

/-- Settles O11: each of the three cases of R91 by its equation. -/
theorem selectChoosesTheLaw : Obligations.SelectChoosesTheLaw := by
  refine ⟨rfl, fun s => ⟨_, exec_eq_commandBlock .select s, rfl, onlyWrites_selectBlock s.block, ?_, ?_, ?_⟩⟩
  · intro hsrc hmax hquant
    rw [withBlock_block, commandBlock, selectBlock_quantized s.block hsrc hmax hquant]
    exact ⟨by simp, statusBecomes_setErr s.block _ errOk (by simp)⟩
  · intro hsrc hnot
    rw [withBlock_block, commandBlock, selectBlock_fallback s.block hsrc hnot]
    exact ⟨by simp, err_setErr _ _, by simp, fun k => by simp⟩
  · intro hsrc
    rw [withBlock_block, commandBlock, selectBlock_u16 s.block hsrc]
    exact ⟨by simp, statusBecomes_setErr s.block _ errOk (by simp)⟩

/-- Settles O13: the two parameter registers hold what the test of LAW selects; the open function plays no other part. -/
theorem deriveWritesParameters : Obligations.DeriveWritesParameters := by
  refine ⟨rfl, fun s => ⟨_, exec_eq_commandBlock .derive s, rfl, ?_, ?_, ?_, ?_⟩⟩
  · intro r hr
    obtain ⟨hA, hB, hstatus⟩ : r ≠ .paramA ∧ r ≠ .paramB ∧ r ≠ .status := by simpa using hr
    simp [commandBlock, deriveBlock, hA, hB, hstatus]
  · exact statusBecomes_setErr s.block _ errOk (by simp)
  · intro hlaw
    simp [commandBlock, deriveBlock_quantized _ s.block hlaw]
  · intro hlaw
    simp [commandBlock, deriveBlock_raw _ s.block hlaw]

end Sys2Proof.Machine
end

section
/-! PROOFS. FWD (R105 to R111): the three paths and the illegal combination, and its behaviour beyond the bounds (R123). -/

namespace Sys2Proof.Machine

/-- S_CLAMPED after a saturation (R106, R107): nothing is raised exactly when the sample was not clamped and the code is the
rounded value. -/
theorem raisedBits_saturateCode (c : ExtInt) (upper : Bool) :
    raisedBits (saturateCode c upper).clamped (saturateCode c upper).nan =
      if upper = false ∧ c = .int ((saturateCode c upper).code.toNat : Int) then [] else [.clamped] := by
  rw [saturateCode_clamped]
  by_cases h : upper = false ∧ c = .int ((saturateCode c upper).code.toNat : Int)
  · rw [if_pos h, decide_eq_false (not_not.2 h.2), h.1]
    rfl
  · have hraised : (upper || decide (c ≠ .int ((saturateCode c upper).code.toNat : Int))) = true := by
      rw [not_and_or, Bool.not_eq_false] at h
      simpa using h
    rw [if_neg h, hraised]
    rfl

/-- DOUT holds the code of the result as a number. -/
theorem toNat_get_fwdCommit_dout (b : Block) (r : ForwardResult) : ((fwdCommit b r).get .dout).toNat = r.code.toNat := by
  rw [get_fwdCommit_dout, BitVec.toNat_setWidth]
  have := r.code.isLt
  omega

/-- FWD with a rounded value `c`: the code is `c` clamped to `1..65535`, and S_CLAMPED says whether a clamp changed the sample or
the code. -/
theorem fwdCommit_saturated (b : Block) (c : ExtInt) (upper : Bool) :
    (((fwdCommit b (saturateCode c upper)).get .dout).toNat : Int) = clampInt c 1 65535 ∧
      StatusBecomes b (fwdCommit b (saturateCode c upper)) 0 false
        (if upper = false ∧ c = .int (((fwdCommit b (saturateCode c upper)).get .dout).toNat : Int) then []
          else [.clamped]) := by
  rw [toNat_get_fwdCommit_dout]
  refine ⟨saturateCode_code c upper, ?_⟩
  rw [← raisedBits_saturateCode, ← saturateCode_ne_zero c upper]
  exact (fwdCommit_result b (saturateCode c upper)).2

/-- Settles O15: the three kinds of sample by the three equations of `fwdRawF32`. -/
theorem fwdScalesToMillimetres : Obligations.FwdScalesToMillimetres := by
  intro s hlaw hsrc
  refine ⟨_, exec_fwd_rawF32 s hlaw hsrc, rfl, onlyWrites_fwdCommit s.block _, ?_, ?_, ?_⟩
  · intro hinvalid
    rw [withBlock_block, fwdRawF32_invalid _ hinvalid]
    exact fwdCommit_result s.block ⟨0, false, false⟩
  · intro hneg
    rw [withBlock_block, fwdRawF32_negative _ hneg]
    exact fwdCommit_result s.block ⟨0, true, false⟩
  · intro hpos
    rw [withBlock_block, fwdRawF32_positive _ hpos]
    have hsaturated := fwdCommit_saturated s.block (roundHalfAway (fmul32 (s.block.get .din) f32Thousand)) false
    simp only [true_and] at hsaturated
    exact hsaturated

/-- Settles O16: the three kinds of sample by the equations of `fwdQuant`; above 0 the sample after the upper clamp goes through
the law, whose intermediate is a NaN or is rounded and saturated. -/
theorem fwdFollowsTheInverseDepthLaw : Obligations.FwdFollowsTheInverseDepthLaw := by
  intro s hlaw hsrc
  refine ⟨_, exec_fwd_quantized s hlaw hsrc, rfl, onlyWrites_fwdCommit s.block _, ?_, ?_, ?_⟩
  · intro hinvalid
    rw [withBlock_block, fwdQuant_invalid _ _ _ _ hinvalid]
    exact fwdCommit_result s.block ⟨0, false, false⟩
  · intro hneg
    rw [withBlock_block, fwdQuant_negative _ _ _ _ hneg]
    exact fwdCommit_result s.block ⟨0, true, false⟩
  · intro x upper hpos hupper hx
    have hpath : fwdQuant (s.block.get .din) (s.block.get .paramA) (s.block.get .paramB) (s.block.get .depthMax) =
        forwardCode (fsub32 (fdiv32 (s.block.get .paramA) x) (s.block.get .paramB)) upper := by
      rw [hx, hupper]
      exact fwdQuant_positive _ _ _ _ hpos
    rw [withBlock_block, hpath]
    constructor
    · intro hnan
      rw [forwardCode_nan _ _ hnan]
      cases upper
      · exact fwdCommit_result s.block ⟨0, false, true⟩
      · exact fwdCommit_result s.block ⟨0, true, true⟩
    · intro hnumber
      rw [forwardCode_number _ _ hnumber]
      exact fwdCommit_saturated s.block _ upper

/-- Settles O14: the code is DIN[15:0] itself. -/
theorem fwdPassesU16Through : Obligations.FwdPassesU16Through := by
  intro s hlaw hsrc
  refine ⟨_, exec_fwd_rawU16 s hlaw hsrc, rfl, onlyWrites_fwdCommit s.block _, ?_, ?_⟩
  · rw [withBlock_block, toNat_get_fwdCommit_dout]
    exact dinHalf_toNat s.block
  · rw [← dinHalf_beq_zero]
    exact (fwdCommit_result s.block (fwdRawU16 s.block.dinHalf)).2

/-- Settles O17: FWD is the error outcome of IllegalCommand. -/
theorem fwdQuantizedOnU16IsIllegal : Obligations.FwdQuantizedOnU16IsIllegal := by
  intro s hlaw hsrc
  exact ⟨_, exec_fwd_illegal s hlaw hsrc, rfl, onlyWrites_raiseError .illegalCommand s.block,
    statusBecomes_raiseError .illegalCommand s.block⟩

/-! Beyond the bounds (R123). -/

/-- That the sample was clamped changes only the flag "clamped" of the result. -/
theorem forwardCode_clamped_irrelevant (t : Word) (upper upper' : Bool) :
    (forwardCode t upper).code = (forwardCode t upper').code ∧ (forwardCode t upper).nan = (forwardCode t upper').nan := by
  cases hnan : f32IsNaN t with
  | true => simp only [forwardCode_nan t _ hnan, and_self]
  | false => simp only [forwardCode_number t _ hnan, saturateCode, and_self]

/-- A sample above DEPTH_MAX gives the code and the NaN flag of DEPTH_MAX itself. -/
theorem fwdQuant_above_bound (d a b m : Word) (hm : f32Gt m 0 = true) (hd : f32Gt d m = true) :
    (fwdQuant d a b m).code = (fwdQuant m a b m).code ∧ (fwdQuant d a b m).nan = (fwdQuant m a b m).nan := by
  have hclamps : clampsAbove d m = true := by rw [clampsAbove, hm, hd, Bool.and_self]
  rw [fwdQuant_positive d a b m (clampsAbove_pos d m hclamps).2.2, fwdQuant_positive m a b m hm, hclamps, if_pos rfl, ite_self]
  exact forwardCode_clamped_irrelevant _ _ _

/-- FWD on samples whose results differ in "clamped" alone: every register but DIN and STATUS agrees, and STATUS agrees but for
S_CLAMPED. -/
theorem fwdCommit_agree (b : Block) (d d' : Word) (r r' : ForwardResult) (hcode : r.code = r'.code) (hnan : r.nan = r'.nan) :
    (∀ n, n ≠ .din → n ≠ .status → (fwdCommit (b.put .din d) r).get n = (fwdCommit (b.put .din d') r').get n) ∧
      (fwdCommit (b.put .din d) r).err = (fwdCommit (b.put .din d') r').err ∧
      (fwdCommit (b.put .din d) r).lastInv = (fwdCommit (b.put .din d') r').lastInv ∧
      ∀ k, k ≠ .clamped → (fwdCommit (b.put .din d) r).sticky k = (fwdCommit (b.put .din d') r').sticky k := by
  refine ⟨fun n hdin hstatus => ?_, ?_, ?_, fun k hk => ?_⟩
  · by_cases hdout : n = .dout
    · rw [hdout, get_fwdCommit_dout, get_fwdCommit_dout, hcode]
    · rw [get_fwdCommit_ne _ _ n hdout hstatus, get_fwdCommit_ne _ _ n hdout hstatus, get_put_ne _ _ _ _ hdin,
        get_put_ne _ _ _ _ hdin]
  · rw [err_fwdCommit, err_fwdCommit]
  · rw [lastInv_fwdCommit, lastInv_fwdCommit, hcode]
  · simp [sticky_fwdCommit, hnan, hk]

/-- FWD of the sample `d` under the quantized law. -/
theorem exec_fwd_withDin (s : State) (d : Word) (hlaw : s.block.lawTag = 1) (hsrc : s.block.srcFmt = .f32) :
    exec .fwd (s.withDin d) = .next ((s.withDin d).withBlock (fwdCommit (s.block.put .din d)
      (fwdQuant d (s.block.get .paramA) (s.block.get .paramB) (s.block.get .depthMax)))) :=
  exec_fwd_quantized (s.withDin d) hlaw hsrc

/-- Settles O21: beyond a bound the result differs from the one at the bound in "clamped" alone. -/
theorem fwdClampsToTheBounds : Obligations.FwdClampsToTheBounds := by
  intro s d hlaw hsrc hmax
  constructor
  · intro habove
    obtain ⟨hcode, hnan⟩ := fwdQuant_above_bound d (s.block.get .paramA) (s.block.get .paramB) _ hmax habove
    exact ⟨_, _, exec_fwd_withDin s d hlaw hsrc, exec_fwd_withDin s _ hlaw hsrc, fwdCommit_agree s.block d _ _ _ hcode hnan⟩
  · intro hneg
    refine ⟨_, _, exec_fwd_withDin s d hlaw hsrc, exec_fwd_withDin s 0 hlaw hsrc, ?_⟩
    rw [withBlock_block, withBlock_block, fwdQuant_negative d _ _ _ hneg, fwdQuant_invalid 0 _ _ _ (.inr (by decide))]
    exact ⟨get_fwdCommit_dout _ _, get_fwdCommit_dout _ _, fwdCommit_agree s.block d 0 _ _ rfl rfl⟩

end Sys2Proof.Machine
end

section
/-! PROOFS. INV (R113 to R118), and invalid samples both ways (R122). -/

namespace Sys2Proof.Machine

/-- The code 0 is the sentinel, whatever DIN[31:16] holds. -/
theorem dinHalf_eq_zero_iff (b : Block) : b.dinHalf = 0 ↔ (b.get .din).toNat % 65536 = 0 := by
  rw [← beq_iff_eq, dinHalf_beq_zero, decide_eq_true_eq]

/-- Settles O23: code 0 is the sentinel; any other code is judged by its quotient `q`, a NaN or a value below, at or above 0. -/
theorem invFollowsTheInverseDepthLaw : Obligations.InvFollowsTheInverseDepthLaw := by
  intro s k q hlaw hk hq
  have hpath : k ≠ 0 → invQuant s.block.dinHalf (s.block.get .paramA) (s.block.get .paramB) (s.block.get .depthMax) =
      inverseFrom q (s.block.get .depthMax) := by
    intro hne
    rw [hk, ne_eq, ← dinHalf_eq_zero_iff] at hne
    rw [invQuant_ne_zero _ _ _ _ hne, dinHalf_toNat, ← hk, ← hq]
  refine ⟨_, exec_inv_quantized s hlaw, rfl, onlyWrites_invCommit s.block _, ?_, ?_, ?_, ?_, ?_, ?_⟩
  all_goals rw [withBlock_block]
  · intro hzero
    rw [hk, ← dinHalf_eq_zero_iff] at hzero
    rw [hzero, invQuant_zero]
    exact invCommit_result s.block ⟨qnan, true, false, false⟩
  · intro hne hnan
    rw [hpath hne, inverseFrom_nan _ _ hnan]
    exact invCommit_result s.block ⟨qnan, true, false, true⟩
  · intro hne hneg
    rw [hpath hne, inverseFrom_negative _ _ hneg]
    exact invCommit_result s.block ⟨0, false, true, false⟩
  · intro hne hzero
    rw [hpath hne, inverseFrom_zero _ _ hzero]
    exact invCommit_result s.block ⟨0, false, false, false⟩
  · intro hne hpos hmax habove
    have hclamps : clampsAbove q (s.block.get .depthMax) = true := by rw [clampsAbove, hmax, habove, Bool.and_self]
    rw [hpath hne, inverseFrom_positive _ _ hpos, if_pos hclamps]
    exact invCommit_result s.block ⟨s.block.get .depthMax, false, true, false⟩
  · intro hne hpos hnot
    rw [← Bool.and_eq_true] at hnot
    rw [hpath hne, inverseFrom_positive _ _ hpos, clampsAbove, if_neg hnot]
    exact invCommit_result s.block ⟨q, false, false, false⟩

/-- Settles O26: the output is DIN[15:0] itself. -/
theorem invPassesU16Through : Obligations.InvPassesU16Through := by
  intro s hlaw hout
  obtain ⟨hdout, hstatus⟩ := invCommit_result s.block (invRawU16 s.block.dinHalf)
  refine ⟨_, exec_inv_rawU16 s hlaw hout, rfl, onlyWrites_invCommit s.block _, ?_, ?_⟩
  · rw [withBlock_block, hdout, ← dinHalf_toNat, invRawU16, BitVec.toNat_setWidth]
    exact Nat.mod_eq_of_lt (s.block.dinHalf.isLt.trans (by norm_num))
  · rw [← dinHalf_beq_zero]
    exact hstatus

/-! The depths of R117 in metres grow with the code. -/

theorem f32IsFinite_ofNat (n : Nat) (hn : n ≤ 2 ^ 24) : f32IsFinite (f32OfNat n) = true := by
  rw [f32IsFinite_iff, ← magUnits_strictMono.lt_iff_lt, ← f32Units_eq, f32Units_ofNat n hn, magUnits_inf]
  exact lt_of_le_of_lt (Nat.mul_le_mul_right _ hn) (by norm_num)

theorem f32Thousand_eq_ofNat : f32Thousand = f32OfNat 1000 := by decide +kernel

/-- The quotient of R117 is `k / 1000`, rounded once. -/
theorem fdiv32_ofNat_thousand (k : Nat) (hk : k ≤ 2 ^ 24) :
    fdiv32 (f32OfNat k) f32Thousand = roundPack false (k * 2 ^ 149 * 2 ^ 149) (1000 * 2 ^ 149) := by
  have hfinite : f32IsFinite f32Thousand = true := by decide
  have hnonzero : f32IsZero f32Thousand = false := by decide
  rw [fdiv32_finite _ _ (f32IsFinite_ofNat k hk) hfinite hnonzero, f32Thousand_eq_ofNat, f32Units_ofNat k hk,
    f32Units_ofNat 1000 (by norm_num), f32Sign_ofNat, f32Sign_ofNat, bne_self_eq_false]

/-- Rounding keeps the order of two values that are not negative. -/
theorem f32Le_roundPack (n d n' d' : Nat) (hd : 0 < d) (hd' : 0 < d') (h : n * d' ≤ n' * d) :
    f32Le (roundPack false n d) (roundPack false n' d') = true := by
  have hmag : roundMag n d ≤ roundMag n' d' := roundMag_mono n d n' d' hd hd' h
  refine (f32Le_iff _ _).2 ⟨f32IsNaN_roundPack _ _ _, f32IsNaN_roundPack _ _ _, ?_⟩
  simpa only [f32Key, f32Sign_roundPack, f32Mag_roundPack, Bool.false_eq_true, if_false, Int.ofNat_le] using hmag

theorem f32Le_metres (j k : Nat) (hjk : j ≤ k) (hk : k ≤ 2 ^ 24) :
    f32Le (fdiv32 (f32OfNat j) f32Thousand) (fdiv32 (f32OfNat k) f32Thousand) = true := by
  rw [fdiv32_ofNat_thousand j (hjk.trans hk), fdiv32_ofNat_thousand k hk]
  refine f32Le_roundPack _ _ _ _ (by positivity) (by positivity) ?_
  gcongr

/-- The depths of the codes 1 and 65535 are the patterns of 0.001 and 65.535. -/
theorem metres_ends :
    fdiv32 (f32OfNat 1) f32Thousand = 0x3A83126F ∧ fdiv32 (f32OfNat 65535) f32Thousand = 0x428311EC := by
  decide +kernel

/-- Settles O27: a code from 1 to 65535 lies between the two whose depths are the ends of the range. -/
theorem invScalesToMetres : Obligations.InvScalesToMetres := by
  refine ⟨fun s k hlaw hout hk => ?_, by decide +kernel, by decide +kernel⟩
  refine ⟨_, exec_inv_rawF32 s hlaw hout, rfl, onlyWrites_invCommit s.block _, fun hzero => ?_, fun hne => ?_⟩
  · rw [hk, ← dinHalf_eq_zero_iff] at hzero
    rw [withBlock_block, hzero]
    exact invCommit_result s.block ⟨qnan, true, false, false⟩
  · have hpath : invRawF32 s.block.dinHalf = ⟨fdiv32 (f32OfNat k) f32Thousand, false, false, false⟩ := by
      rw [hk, ne_eq, ← dinHalf_eq_zero_iff] at hne
      rw [invRawF32, if_neg hne, dinHalf_toNat, ← hk]
    obtain ⟨hout, hstatus⟩ := invCommit_result s.block ⟨fdiv32 (f32OfNat k) f32Thousand, false, false, false⟩
    obtain ⟨hfirst, hlast⟩ := metres_ends
    rw [withBlock_block, hpath, hout, ← hfirst, ← hlast]
    exact ⟨rfl, hstatus, f32Le_metres 1 k (by omega) (by omega), f32Le_metres k 65535 (by omega) (by norm_num)⟩

/-- The invalid float samples of R15 as FWD tests for them: a NaN, or equal to 0. -/
theorem f32_invalid_of_pattern (x : Word) (h : f32IsNaN x = true ∨ x = 0x00000000 ∨ x = 0x80000000) :
    f32IsNaN x = true ∨ f32Eq x 0 = true := by
  rcases h with hnan | rfl | rfl
  · exact .inl hnan
  · exact .inr (by decide)
  · exact .inr (by decide)

/-- Settles O28, path by path from what FWD and INV do on the invalid sample and on code 0. -/
theorem invalidSamplesArePreserved : Obligations.InvalidSamplesArePreserved := by
  refine ⟨fun s hsrc hpattern => ?_, fun s hsrc hlaw hzero => ?_, fun s hzero => ?_⟩
  · have hinvalid := f32_invalid_of_pattern _ hpattern
    by_cases hlaw : s.block.lawTag = 1
    · obtain ⟨t, ht, -, -, hpath, -⟩ := fwdFollowsTheInverseDepthLaw s hlaw hsrc
      obtain ⟨hdout, -, hlast, -⟩ := hpath hinvalid
      exact ⟨t, ht, hdout, hlast⟩
    · obtain ⟨t, ht, -, -, hpath, -⟩ := fwdScalesToMillimetres s hlaw hsrc
      obtain ⟨hdout, -, hlast, -⟩ := hpath hinvalid
      exact ⟨t, ht, hdout, hlast⟩
  · obtain ⟨t, ht, -, -, hdout, -, hlast, -⟩ := fwdPassesU16Through s hlaw hsrc
    exact ⟨t, ht, BitVec.eq_of_toNat_eq (hdout.trans hzero), hlast.trans (decide_eq_true hzero)⟩
  · by_cases hlaw : s.block.lawTag = 1
    · obtain ⟨t, ht, -, -, hpath, -⟩ := invFollowsTheInverseDepthLaw s _ _ hlaw rfl rfl
      obtain ⟨hdout, -, hlast, -⟩ := hpath hzero
      exact ⟨t, ht, hlast, by rw [hdout, if_neg (fun h => h.1 hlaw)]⟩
    · cases hout : s.block.rawOutFmt with
      | u16 =>
        obtain ⟨t, ht, -, -, hdout, -, hlast, -⟩ := invPassesU16Through s hlaw hout
        rw [if_pos ⟨hlaw, rfl⟩]
        exact ⟨t, ht, hlast.trans (decide_eq_true hzero), BitVec.eq_of_toNat_eq (hdout.trans hzero)⟩
      | f32 =>
        obtain ⟨hpaths, -⟩ := invScalesToMetres
        obtain ⟨t, ht, -, -, hpath, -⟩ := hpaths s _ hlaw hout rfl
        obtain ⟨hdout, -, hlast, -⟩ := hpath hzero
        exact ⟨t, ht, hlast, by rw [hdout, if_neg (fun h => nomatch h.2)]⟩

end Sys2Proof.Machine
end

section
/-! PROOFS. No command reads CTRL.EFFORT (R120): each command's register effect commutes with a write of CTRL that leaves SRC_FMT
and RAW_OUT_FMT as they are. -/

namespace Sys2Proof.Machine

/-- A write of another register commutes with a write of CTRL. -/
theorem put_put_ctrl (b : Block) (v w : Word) (r : RegName) (hr : r ≠ .ctrl) :
    (b.put .ctrl v).put r w = (b.put r w).put .ctrl v := by
  cases r with
  | ctrl => exact absurd rfl hr
  | _ => rfl

theorem setErr_put_ctrl (b : Block) (v : Word) (code : BitVec 4) :
    (b.put .ctrl v).setErr code = (b.setErr code).put .ctrl v :=
  put_put_ctrl b v _ .status (by decide)

theorem setLastInv_put_ctrl (b : Block) (v : Word) (i : Bool) :
    (b.put .ctrl v).setLastInv i = (b.setLastInv i).put .ctrl v :=
  put_put_ctrl b v _ .status (by decide)

theorem setSticky_put_ctrl (b : Block) (v : Word) (k : Sticky) :
    (b.put .ctrl v).setSticky k = (b.setSticky k).put .ctrl v :=
  put_put_ctrl b v _ .status (by decide)

theorem setStickyIf_put_ctrl (b : Block) (v : Word) (c : Bool) (k : Sticky) :
    (b.put .ctrl v).setStickyIf c k = (b.setStickyIf c k).put .ctrl v := by
  cases c
  · rfl
  · exact setSticky_put_ctrl b v k

theorem raiseError_put_ctrl (b : Block) (v : Word) (k : ErrorKind) :
    raiseError k (b.put .ctrl v) = (raiseError k b).put .ctrl v := by
  rw [raiseError, setErr_put_ctrl, setSticky_put_ctrl, raiseError]

theorem fwdCommit_put_ctrl (b : Block) (v : Word) (r : ForwardResult) :
    fwdCommit (b.put .ctrl v) r = (fwdCommit b r).put .ctrl v := by
  simp only [fwdCommit, put_put_ctrl _ _ _ .dout (by decide), setLastInv_put_ctrl, setStickyIf_put_ctrl, setErr_put_ctrl]

theorem invCommit_put_ctrl (b : Block) (v : Word) (r : InverseResult) :
    invCommit (b.put .ctrl v) r = (invCommit b r).put .ctrl v := by
  simp only [invCommit, put_put_ctrl _ _ _ .dout (by decide), setLastInv_put_ctrl, setStickyIf_put_ctrl, setErr_put_ctrl]

/-! The commands. Those that read a format of CTRL ask that the write leaves it as it is. -/

theorem selectBlock_put_ctrl (b : Block) (v : Word) (hsrc : (b.put .ctrl v).srcFmt = b.srcFmt) :
    selectBlock (b.put .ctrl v) = (selectBlock b).put .ctrl v := by
  rcases selectBlock_cases b with ⟨hf, hmax, hquant, h⟩ | ⟨hf, hnot, h⟩ | ⟨hf, h⟩
  · rw [h, selectBlock_quantized _ (hsrc.trans hf) hmax hquant, put_put_ctrl _ _ _ _ (by decide), setErr_put_ctrl]
  · rw [h, selectBlock_fallback _ (hsrc.trans hf) hnot, put_put_ctrl _ _ _ _ (by decide), setSticky_put_ctrl, setErr_put_ctrl]
  · rw [h, selectBlock_u16 _ (hsrc.trans hf), put_put_ctrl _ _ _ _ (by decide), setErr_put_ctrl]

theorem deriveBlock_put_ctrl (dp : Word → Word → Word × Word) (b : Block) (v : Word) :
    deriveBlock dp (b.put .ctrl v) = (deriveBlock dp b).put .ctrl v := by
  simp only [deriveBlock, put_put_ctrl _ _ _ .paramA (by decide), put_put_ctrl _ _ _ .paramB (by decide), setErr_put_ctrl]
  rfl

theorem fwdBlock_put_ctrl (b : Block) (v : Word) (hsrc : (b.put .ctrl v).srcFmt = b.srcFmt) :
    fwdBlock (b.put .ctrl v) = (fwdBlock b).put .ctrl v := by
  rw [fwdBlock, fwdBlock, hsrc, lawTag_put_ne _ _ _ (by decide)]
  split
  · cases b.srcFmt with
    | u16 => exact raiseError_put_ctrl b v _
    | f32 => exact fwdCommit_put_ctrl b v _
  · cases b.srcFmt with
    | u16 => exact fwdCommit_put_ctrl b v _
    | f32 => exact fwdCommit_put_ctrl b v _

theorem invBlock_put_ctrl (b : Block) (v : Word) (hout : (b.put .ctrl v).rawOutFmt = b.rawOutFmt) :
    invBlock (b.put .ctrl v) = (invBlock b).put .ctrl v := by
  rw [invBlock, invBlock, hout, lawTag_put_ne _ _ _ (by decide)]
  split
  · exact invCommit_put_ctrl b v _
  · cases b.rawOutFmt with
    | u16 => exact invCommit_put_ctrl b v _
    | f32 => exact invCommit_put_ctrl b v _

theorem hencBlock_put_ctrl (order : Config.ByteOrder) (b : Block) (v : Word) :
    hencBlock order (b.put .ctrl v) = (hencBlock order b).put .ctrl v := by
  rw [hencBlock, hencBlock, lawTag_put_ne _ _ _ (by decide)]
  split
  · simp only [put_put_ctrl, setErr_put_ctrl, ne_eq, reduceCtorEq, not_false_eq_true]
  · simp only [put_put_ctrl, setErr_put_ctrl, get_put_ne, ne_eq, reduceCtorEq, not_false_eq_true]

theorem hdrByte_put_ctrl (b : Block) (v : Word) (i : Nat) : (b.put .ctrl v).hdrByte i = b.hdrByte i := rfl

theorem hdecBlock_put_ctrl (order : Config.ByteOrder) (b : Block) (v : Word) :
    hdecBlock order (b.put .ctrl v) = (hdecBlock order b).put .ctrl v := by
  rw [hdecBlock, hdecBlock, hdrByte_put_ctrl, get_put_ne b _ .hdrAvail _ (by decide)]
  cases headerVerdict (b.get .hdrAvail).toNat (b.hdrByte 0) with
  | error k => exact raiseError_put_ctrl b v k
  | raw => simp only [put_put_ctrl, setErr_put_ctrl, ne_eq, reduceCtorEq, not_false_eq_true]
  | quantized => simp only [put_put_ctrl, setErr_put_ctrl, hdrByte_put_ctrl, ne_eq, reduceCtorEq, not_false_eq_true]

theorem clrstBlock_put_ctrl (b : Block) (v : Word) : clrstBlock (b.put .ctrl v) = (clrstBlock b).put .ctrl v := by
  rw [clrstBlock, put_put_ctrl _ _ _ _ (by decide), put_put_ctrl _ _ _ _ (by decide), clrstBlock]

/-- Every command's register effect commutes with a write of CTRL that keeps SRC_FMT and RAW_OUT_FMT. -/
theorem commandBlock_put_ctrl (i : Instr) (b : Block) (v : Word) (hsrc : (b.put .ctrl v).srcFmt = b.srcFmt)
    (hout : (b.put .ctrl v).rawOutFmt = b.rawOutFmt) :
    commandBlock i (b.put .ctrl v) = (commandBlock i b).put .ctrl v := by
  cases i with
  | nop => exact setErr_put_ctrl b v errOk
  | select => exact selectBlock_put_ctrl b v hsrc
  | derive => exact deriveBlock_put_ctrl _ b v
  | fwd => exact fwdBlock_put_ctrl b v hsrc
  | inv => exact invBlock_put_ctrl b v hout
  | henc => exact hencBlock_put_ctrl _ b v
  | hdec => exact hdecBlock_put_ctrl _ b v
  | clrst => exact clrstBlock_put_ctrl b v

/-! Values of CTRL that differ in EFFORT alone. -/

/-- Two words with no difference under a mask agree on each bit of the mask. -/
theorem getLsbD_eq_of_xor_and_eq_zero (v w m : Word) (h : (v ^^^ w) &&& m = 0) (i : Nat) (hm : m.getLsbD i = true) :
    v.getLsbD i = w.getLsbD i := by
  have hbit : ((v ^^^ w) &&& m).getLsbD i = false := by rw [h]; exact BitVec.getLsbD_zero
  rwa [BitVec.getLsbD_and, hm, Bool.and_true, BitVec.getLsbD_xor, bne_eq_false_iff_eq] at hbit

/-- An implemented bit of CTRL outside EFFORT reads the same after a write that differs in EFFORT alone. -/
theorem getLsbD_get_put_ctrl (b : Block) (v : Word) (h : (v ^^^ b.get .ctrl) &&& 0xFFFFFF0F = 0) (i : Nat)
    (hmask : (0xFFFFFF0F : Word).getLsbD i = true) (himplemented : (RegName.implemented .ctrl).getLsbD i = true) :
    ((b.put .ctrl v).get .ctrl).getLsbD i = (b.get .ctrl).getLsbD i := by
  rw [get_put_self b .ctrl v rfl, BitVec.getLsbD_and, himplemented, Bool.and_true]
  exact getLsbD_eq_of_xor_and_eq_zero _ _ _ h i hmask

/-- Settles O38: the other value of CTRL has the same SRC_FMT and RAW_OUT_FMT, so the command and the write of CTRL commute, and
the write leaves every other register alone. -/
theorem noCommandReadsEffort : Obligations.NoCommandReadsEffort := by
  intro i s v h
  have hsrc : (s.block.put .ctrl v).srcFmt = s.block.srcFmt := by
    rw [Block.srcFmt, getLsbD_get_put_ctrl s.block v h 0 rfl rfl, Block.srcFmt]
  have hout : (s.block.put .ctrl v).rawOutFmt = s.block.rawOutFmt := by
    rw [Block.rawOutFmt, getLsbD_get_put_ctrl s.block v h 1 rfl rfl, Block.rawOutFmt]
  refine ⟨_, _, exec_eq_commandBlock i s, exec_eq_commandBlock i _, rfl, fun r hr => ?_⟩
  rw [withBlock_block, withBlock_block, withBlock_block, commandBlock_put_ctrl i s.block v hsrc hout, get_put_ne _ _ _ _ hr]

end Sys2Proof.Machine
end

section
/-! PROOFS. The header units: HENC (R130), HDEC and the order of its checks (R135, R136), and the round trip (R140). -/

namespace Sys2Proof.Machine

/-! Words as four bytes (R33), and the bytes of the header words of R130. -/

/-- A word is its four bytes, the least significant first. -/
theorem packWord_wordByte (w : Word) : packWord (wordByte w 0) (wordByte w 1) (wordByte w 2) (wordByte w 3) = w := by
  have join : ∀ k n : Nat, w.extractLsb' (k + 8) n ++ w.extractLsb' k 8 = w.extractLsb' k (n + 8) :=
    fun _ _ => BitVec.extractLsb'_append_extractLsb'_eq_extractLsb' rfl
  calc packWord (wordByte w 0) (wordByte w 1) (wordByte w 2) (wordByte w 3)
    _ = w.extractLsb' 16 16 ++ wordByte w 1 ++ wordByte w 0 := congrArg (· ++ wordByte w 1 ++ wordByte w 0) (join 16 8)
    _ = w.extractLsb' 8 24 ++ wordByte w 0 := congrArg (· ++ wordByte w 0) (join 8 16)
    _ = w.extractLsb' 0 32 := join 0 24
    _ = w := BitVec.extractLsb'_eq_self

/-- The bytes of a packed word are the bytes packed. -/
theorem wordByte_packWord (b0 b1 b2 b3 : Byte) :
    wordByte (packWord b0 b1 b2 b3) 0 = b0 ∧ wordByte (packWord b0 b1 b2 b3) 1 = b1 ∧
      wordByte (packWord b0 b1 b2 b3) 2 = b2 ∧ wordByte (packWord b0 b1 b2 b3) 3 = b3 := by
  have skip : ∀ {n : Nat} (x : BitVec n) (t : Byte) (k : Nat), (x ++ t).extractLsb' (k + 8) 8 = x.extractLsb' k 8 :=
    fun x t k => BitVec.extractLsb'_append_eq_of_le (Nat.le_add_left 8 k)
  refine ⟨BitVec.extractLsb'_append_eq_right, ?_, ?_, ?_⟩
  · exact (skip _ _ 0).trans BitVec.extractLsb'_append_eq_right
  · exact ((skip _ _ 8).trans (skip _ _ 0)).trans BitVec.extractLsb'_append_eq_right
  · exact ((skip _ _ 16).trans (skip _ _ 8)).trans BitVec.extractLsb'_append_eq_left

/-- Both byte orders are their own inverse. -/
@[simp] theorem wireWord_wireWord (order : Config.ByteOrder) (w : Word) : wireWord order (wireWord order w) = w := by
  cases order with
  | little => rfl
  | big =>
    obtain ⟨h0, h1, h2, h3⟩ := wordByte_packWord (wordByte w 3) (wordByte w 2) (wordByte w 1) (wordByte w 0)
    rw [wireWord, wireWord, byteSwap, byteSwap, h0, h1, h2, h3, packWord_wordByte]

/-- The low byte of a header word of R130. -/
theorem wordByte_append_zero (x : BitVec 24) (t : Byte) : wordByte (x ++ t) 0 = t := BitVec.extractLsb'_append_eq_right

/-- Above its low byte a header word of R130 holds the low three bytes of a parameter. -/
theorem wordByte_append_succ (w : Word) (t : Byte) (j : Nat) (hj : j < 3) :
    wordByte (w.extractLsb' 0 24 ++ t) (j + 1) = wordByte w j := by
  have hskip : wordByte (w.extractLsb' 0 24 ++ t) (j + 1) = (w.extractLsb' 0 24).extractLsb' (8 * j) 8 :=
    BitVec.extractLsb'_append_eq_of_le (Nat.le_add_left 8 (8 * j))
  rw [hskip, wordByte, ← BitVec.setWidth_eq_extractLsb' (by norm_num), BitVec.extractLsb'_setWidth_of_le (by omega)]

/-- A byte stored in a word is its low byte. -/
theorem wordByte_setWidth_zero (t : Byte) : wordByte (t.setWidth 32) 0 = t :=
  (BitVec.extractLsb'_setWidth_of_le (by norm_num)).trans BitVec.extractLsb'_eq_self

/-- HDR_W2 implements its low byte (R32), so a byte is stored there as it is. -/
theorem setWidth_and_implemented_hdrW2 (t : Byte) :
    t.setWidth 32 &&& RegName.implemented .hdrW2 = t.setWidth 32 := by
  have hmask : RegName.implemented .hdrW2 = (BitVec.allOnes 8).setWidth 32 := rfl
  rw [hmask, ← BitVec.setWidth_and, BitVec.and_allOnes]

/-! The header buffer's bytes, word by word (R33). -/

theorem hdrByte_hdrW0 (b : Block) (i : Nat) (hi : i < 4) : b.hdrByte i = wordByte (b.get .hdrW0) i := by
  interval_cases i <;> rfl

theorem hdrByte_hdrW1 (b : Block) (i : Nat) (hi : i < 4) : b.hdrByte (4 + i) = wordByte (b.get .hdrW1) i := by
  interval_cases i <;> rfl

theorem hdrByte_hdrW2 (b : Block) : b.hdrByte 8 = wordByte (b.get .hdrW2) 0 := rfl

/-! HENC. -/

/-- What HENC writes under either law (R130): the header buffer, HDR_LEN and `ERR <- 0`. -/
def writeHeader (b : Block) (w0 w1 w2 len : Word) : Block :=
  ((((b.put .hdrW0 w0).put .hdrW1 w1).put .hdrW2 w2).put .hdrLen len).setErr errOk

theorem hencBlock_raw (order : Config.ByteOrder) (b : Block) (hlaw : b.lawTag = 0) :
    hencBlock order b = writeHeader b 0 0 0 1 := by
  rw [hencBlock, if_pos hlaw, writeHeader]

theorem hencBlock_quantized (order : Config.ByteOrder) (b : Block) (hlaw : b.lawTag ≠ 0) :
    hencBlock order b = writeHeader b ((wireWord order (b.get .paramA)).extractLsb' 0 24 ++ (0x01 : Byte))
      ((wireWord order (b.get .paramB)).extractLsb' 0 24 ++ wordByte (wireWord order (b.get .paramA)) 3)
      ((wordByte (wireWord order (b.get .paramB)) 3).setWidth 32) 9 := by
  rw [hencBlock, if_neg hlaw]
  rfl

/-- HENC's writes are those of `writeHeader`, with some header. -/
theorem hencBlock_eq_writeHeader (order : Config.ByteOrder) (b : Block) :
    ∃ w0 w1 w2 len, hencBlock order b = writeHeader b w0 w1 w2 len := by
  by_cases hlaw : b.lawTag = 0
  · exact ⟨_, _, _, _, hencBlock_raw order b hlaw⟩
  · exact ⟨_, _, _, _, hencBlock_quantized order b hlaw⟩

theorem onlyWrites_writeHeader (b : Block) (w0 w1 w2 len : Word) :
    OnlyWrites [.hdrW0, .hdrW1, .hdrW2, .hdrLen, .status] b (writeHeader b w0 w1 w2 len) := by
  intro r hr
  obtain ⟨h0, h1, h2, hlen, hstatus⟩ : r ≠ .hdrW0 ∧ r ≠ .hdrW1 ∧ r ≠ .hdrW2 ∧ r ≠ .hdrLen ∧ r ≠ .status := by
    simpa using hr
  simp [writeHeader, h0, h1, h2, hlen, hstatus]

theorem statusBecomes_writeHeader (b : Block) (w0 w1 w2 len : Word) :
    StatusBecomes b (writeHeader b w0 w1 w2 len) 0 b.lastInv [] :=
  statusBecomes_setErr b _ errOk (by simp)

/-- The header buffer and HDR_LEN after HENC's writes, each less its reserved bits. -/
theorem get_writeHeader (b : Block) (w0 w1 w2 len : Word) :
    (writeHeader b w0 w1 w2 len).get .hdrW0 = w0 ∧ (writeHeader b w0 w1 w2 len).get .hdrW1 = w1 ∧
      (writeHeader b w0 w1 w2 len).get .hdrW2 = w2 &&& RegName.implemented .hdrW2 ∧
      (writeHeader b w0 w1 w2 len).get .hdrLen = len &&& RegName.implemented .hdrLen := by
  simp [writeHeader, get_put_self _ _ _ (show RegName.stored .hdrW2 = true from rfl),
    get_put_self _ _ _ (show RegName.stored .hdrLen = true from rfl)]

/-- Under RAW the header is the one tag byte 0, with the rest of the buffer 0. -/
theorem get_hencBlock_raw (order : Config.ByteOrder) (b : Block) (hlaw : b.lawTag = 0) :
    (hencBlock order b).get .hdrW0 = 0 ∧ (hencBlock order b).get .hdrW1 = 0 ∧ (hencBlock order b).get .hdrW2 = 0 ∧
      (hencBlock order b).get .hdrLen = 1 := by
  rw [hencBlock_raw order b hlaw]
  exact get_writeHeader b 0 0 0 1

/-- Under the other law the header is nine bytes: the tag and the wire bytes of A and B. -/
theorem get_hencBlock_quantized (order : Config.ByteOrder) (b : Block) (hlaw : b.lawTag ≠ 0) :
    (hencBlock order b).get .hdrW0 = (wireWord order (b.get .paramA)).extractLsb' 0 24 ++ (0x01 : Byte) ∧
      (hencBlock order b).get .hdrW1 =
        (wireWord order (b.get .paramB)).extractLsb' 0 24 ++ wordByte (wireWord order (b.get .paramA)) 3 ∧
      (hencBlock order b).get .hdrW2 = (wordByte (wireWord order (b.get .paramB)) 3).setWidth 32 ∧
      (hencBlock order b).get .hdrLen = 9 := by
  rw [hencBlock_quantized order b hlaw]
  obtain ⟨h0, h1, h2, hlen⟩ := get_writeHeader b _ _ _ 9
  exact ⟨h0, h1, h2.trans (setWidth_and_implemented_hdrW2 _), hlen⟩

theorem hdrByte_zero_hencBlock_raw (order : Config.ByteOrder) (b : Block) (hlaw : b.lawTag = 0) :
    (hencBlock order b).hdrByte 0 = 0 := by
  obtain ⟨h0, -, -, -⟩ := get_hencBlock_raw order b hlaw
  rw [hdrByte_hdrW0 _ 0 (by norm_num), h0]
  rfl

/-- The nine wire bytes under the quantized law (R81): tag 1, then the bytes of A, then those of B. -/
theorem hdrByte_hencBlock_quantized (order : Config.ByteOrder) (b : Block) (hlaw : b.lawTag ≠ 0) :
    (hencBlock order b).hdrByte 0 = 1 ∧
      (∀ j < 4, (hencBlock order b).hdrByte (1 + j) = wordByte (wireWord order (b.get .paramA)) j) ∧
      (∀ j < 4, (hencBlock order b).hdrByte (5 + j) = wordByte (wireWord order (b.get .paramB)) j) := by
  obtain ⟨h0, h1, h2, -⟩ := get_hencBlock_quantized order b hlaw
  refine ⟨?_, fun j hj => ?_, fun j hj => ?_⟩
  · rw [hdrByte_hdrW0 _ 0 (by norm_num), h0, wordByte_append_zero]
  · obtain hlow | rfl : j < 3 ∨ j = 3 := by omega
    · rw [Nat.add_comm, hdrByte_hdrW0 _ (j + 1) (by omega), h0, wordByte_append_succ _ _ j hlow]
    · exact (hdrByte_hdrW1 _ 0 (by norm_num)).trans (by rw [h1, wordByte_append_zero])
  · obtain hlow | rfl : j < 3 ∨ j = 3 := by omega
    · rw [show 5 + j = 4 + (j + 1) by omega, hdrByte_hdrW1 _ (j + 1) (by omega), h1, wordByte_append_succ _ _ j hlow]
    · exact (hdrByte_hdrW2 _).trans (by rw [h2, wordByte_setWidth_zero])

/-- Settles O31: the register file is `writeHeader` of the header of the active law, whose words and bytes are read back. -/
theorem hencWritesTheWireHeader : Obligations.HencWritesTheWireHeader := by
  refine ⟨rfl, fun s => ⟨_, exec_eq_commandBlock .henc s, rfl, ?_⟩⟩
  rw [withBlock_block, commandBlock]
  obtain ⟨w0, w1, w2, len, hwrites⟩ := hencBlock_eq_writeHeader Config.headerByteOrder s.block
  refine ⟨?_, ?_, get_hencBlock_raw _ s.block, fun hlaw => ?_⟩
  · rw [hwrites]
    exact onlyWrites_writeHeader s.block w0 w1 w2 len
  · rw [hwrites]
    exact statusBecomes_writeHeader s.block w0 w1 w2 len
  · obtain ⟨h0, h1, h2, hlen⟩ := get_hencBlock_quantized Config.headerByteOrder s.block hlaw
    exact ⟨hlen, h0, h1, h2, hdrByte_hencBlock_quantized Config.headerByteOrder s.block hlaw⟩

/-! HDEC. -/

/-- What HDEC writes when it accepts a header (R135): LAW, the parameters, HDR_LEN and `ERR <- 0`. -/
def acceptHeader (b : Block) (law pa pb len : Word) : Block :=
  ((((b.put .law law).put .paramA pa).put .paramB pb).put .hdrLen len).setErr errOk

theorem onlyWrites_acceptHeader (b : Block) (law pa pb len : Word) :
    OnlyWrites [.law, .paramA, .paramB, .hdrLen, .status] b (acceptHeader b law pa pb len) := by
  intro r hr
  obtain ⟨hlaw, hA, hB, hlen, hstatus⟩ : r ≠ .law ∧ r ≠ .paramA ∧ r ≠ .paramB ∧ r ≠ .hdrLen ∧ r ≠ .status := by
    simpa using hr
  simp [acceptHeader, hlaw, hA, hB, hlen, hstatus]

theorem statusBecomes_acceptHeader (b : Block) (law pa pb len : Word) :
    StatusBecomes b (acceptHeader b law pa pb len) 0 b.lastInv [] :=
  statusBecomes_setErr b _ errOk (by simp)

/-- LAW, the parameters and HDR_LEN after HDEC's writes, each less its reserved bits. -/
theorem get_acceptHeader (b : Block) (law pa pb len : Word) :
    (acceptHeader b law pa pb len).get .law = law &&& RegName.implemented .law ∧
      (acceptHeader b law pa pb len).get .paramA = pa ∧ (acceptHeader b law pa pb len).get .paramB = pb ∧
      (acceptHeader b law pa pb len).get .hdrLen = len &&& RegName.implemented .hdrLen := by
  simp [acceptHeader, get_put_self _ _ _ (show RegName.stored .law = true from rfl),
    get_put_self _ _ _ (show RegName.stored .hdrLen = true from rfl)]

/-! The checks in their order (R136), and the register file for each verdict (R135). -/

theorem headerVerdict_empty (tag : Byte) : headerVerdict 0 tag = .error .payloadCorrupt := rfl

theorem headerVerdict_unknown (n : Nat) (tag : Byte) (hn : n ≠ 0) (htag : 2 ≤ tag.toNat) :
    headerVerdict n tag = .error .unsupportedFormat := by
  have hne : tag ≠ 0 ∧ tag ≠ 1 := by
    constructor <;> rintro rfl <;> simp at htag
  rw [headerVerdict, if_neg hn, if_pos hne]

theorem headerVerdict_raw (n : Nat) (hn : n ≠ 0) : headerVerdict n 0 = .raw := by
  simp [headerVerdict, hn]

theorem headerVerdict_truncated (n : Nat) (hn : n ≠ 0) (hshort : n < 9) : headerVerdict n 1 = .error .payloadCorrupt := by
  simp [headerVerdict, hn, hshort]

theorem headerVerdict_quantized (n : Nat) (hlong : 9 ≤ n) : headerVerdict n 1 = .quantized := by
  simp [headerVerdict, show n ≠ 0 by omega, hlong]

section
variable (order : Config.ByteOrder) (b : Block)

theorem hdecBlock_error (k : ErrorKind) (h : headerVerdict (b.get .hdrAvail).toNat (b.hdrByte 0) = .error k) :
    hdecBlock order b = raiseError k b := by
  rw [hdecBlock, h]

theorem hdecBlock_raw (h : headerVerdict (b.get .hdrAvail).toNat (b.hdrByte 0) = .raw) :
    hdecBlock order b = acceptHeader b 0 0 0 1 := by
  rw [hdecBlock, h, acceptHeader]

theorem hdecBlock_quantized (h : headerVerdict (b.get .hdrAvail).toNat (b.hdrByte 0) = .quantized) :
    hdecBlock order b = acceptHeader b 1
      (wireWord order (packWord (b.hdrByte 1) (b.hdrByte 2) (b.hdrByte 3) (b.hdrByte 4)))
      (wireWord order (packWord (b.hdrByte 5) (b.hdrByte 6) (b.hdrByte 7) (b.hdrByte 8))) 9 := by
  rw [hdecBlock, h, acceptHeader]

/-- A verdict of error changes only STATUS, by the outcome of R182. -/
theorem hdecBlock_error_result (k : ErrorKind) (h : headerVerdict (b.get .hdrAvail).toNat (b.hdrByte 0) = .error k) :
    OnlyWrites [.status] b (hdecBlock order b) ∧ StatusBecomes b (hdecBlock order b) k.code b.lastInv [k.sticky] := by
  rw [hdecBlock_error order b k h]
  exact ⟨onlyWrites_raiseError k b, statusBecomes_raiseError k b⟩

end

/-- Settles O32: for each outcome of the checks the verdict of R136, then the register file that HDEC gives for it. -/
theorem hdecChecksInOrder : Obligations.HdecChecksInOrder := by
  refine ⟨rfl, fun s n tag hn htag => ⟨_, exec_eq_commandBlock .hdec s, rfl, ?_, ?_, ?_, ?_, ?_⟩⟩
  all_goals rw [withBlock_block, commandBlock]
  · intro hzero
    refine hdecBlock_error_result _ s.block .payloadCorrupt ?_
    rw [← hn, hzero, headerVerdict_empty]
  · intro hne hunknown
    refine hdecBlock_error_result _ s.block .unsupportedFormat ?_
    rw [← hn, ← htag, headerVerdict_unknown n tag hne hunknown]
  · intro hne hone hshort
    refine hdecBlock_error_result _ s.block .payloadCorrupt ?_
    rw [← hn, ← htag, hone, headerVerdict_truncated n hne hshort]
  · intro hne hzero
    rw [hdecBlock_raw _ s.block (by rw [← hn, ← htag, hzero, headerVerdict_raw n hne])]
    exact ⟨onlyWrites_acceptHeader s.block 0 0 0 1, statusBecomes_acceptHeader s.block 0 0 0 1,
      get_acceptHeader s.block 0 0 0 1⟩
  · intro hlong hone
    rw [hdecBlock_quantized _ s.block (by rw [← hn, ← htag, hone, headerVerdict_quantized n hlong])]
    obtain ⟨hlaw, hA, hB, hlen⟩ := get_acceptHeader s.block 1 _ _ 9
    exact ⟨onlyWrites_acceptHeader s.block 1 _ _ 9, statusBecomes_acceptHeader s.block 1 _ _ 9, hlaw, hlen, hA, hB⟩

/-! The round trip. -/

/-- HDEC of a RAW header, whatever else the receiving block holds. -/
theorem hdecBlock_of_hencBlock_raw (order : Config.ByteOrder) (b c : Block) (hlaw : b.lawTag = 0)
    (hbyte : c.hdrByte 0 = (hencBlock order b).hdrByte 0) (havail : (c.get .hdrAvail).toNat ≠ 0) :
    hdecBlock order c = acceptHeader c 0 0 0 1 := by
  rw [hdrByte_zero_hencBlock_raw order b hlaw] at hbyte
  exact hdecBlock_raw order c (by rw [hbyte, headerVerdict_raw _ havail])

/-- HDEC of a quantized header gives back the parameters encoded, under either byte order: the wire words are the packed wire
bytes, and the byte order undoes itself. -/
theorem hdecBlock_of_hencBlock_quantized (order : Config.ByteOrder) (b c : Block) (hlaw : b.lawTag ≠ 0)
    (hbytes : ∀ i < 9, c.hdrByte i = (hencBlock order b).hdrByte i) (havail : 9 ≤ (c.get .hdrAvail).toNat) :
    hdecBlock order c = acceptHeader c 1 (b.get .paramA) (b.get .paramB) 9 := by
  obtain ⟨htag, hA, hB⟩ := hdrByte_hencBlock_quantized order b hlaw
  have hbyteA : ∀ j < 4, c.hdrByte (1 + j) = wordByte (wireWord order (b.get .paramA)) j :=
    fun j hj => (hbytes _ (by omega)).trans (hA j hj)
  have hbyteB : ∀ j < 4, c.hdrByte (5 + j) = wordByte (wireWord order (b.get .paramB)) j :=
    fun j hj => (hbytes _ (by omega)).trans (hB j hj)
  have hpackA : packWord (c.hdrByte 1) (c.hdrByte 2) (c.hdrByte 3) (c.hdrByte 4) = wireWord order (b.get .paramA) := by
    rw [hbyteA 0 (by norm_num), hbyteA 1 (by norm_num), hbyteA 2 (by norm_num), hbyteA 3 (by norm_num), packWord_wordByte]
  have hpackB : packWord (c.hdrByte 5) (c.hdrByte 6) (c.hdrByte 7) (c.hdrByte 8) = wireWord order (b.get .paramB) := by
    rw [hbyteB 0 (by norm_num), hbyteB 1 (by norm_num), hbyteB 2 (by norm_num), hbyteB 3 (by norm_num), packWord_wordByte]
  have hverdict : headerVerdict (c.get .hdrAvail).toNat (c.hdrByte 0) = .quantized := by
    rw [hbytes 0 (by norm_num), htag, headerVerdict_quantized _ havail]
  rw [hdecBlock_quantized order c hverdict, hpackA, hpackB, wireWord_wireWord, wireWord_wireWord]

/-- Settles O33: for each law, HDEC's writes on the header that HENC wrote. -/
theorem headerRoundTripRestoresParameters : Obligations.HeaderRoundTripRestoresParameters := by
  intro s htag
  refine ⟨_, exec_eq_commandBlock .henc s, fun u hbytes havail => ⟨_, exec_eq_commandBlock .hdec u, ?_⟩⟩
  simp only [withBlock_block, commandBlock] at hbytes havail ⊢
  rcases htag with hraw | hquantized
  · obtain ⟨-, -, -, hlen⟩ := get_hencBlock_raw Config.headerByteOrder s.block hraw
    rw [hlen] at hbytes havail
    rw [hdecBlock_of_hencBlock_raw _ s.block u.block hraw (hbytes 0 (by decide)) (Nat.ne_of_gt havail)]
    obtain ⟨hlaw, hA, hB, -⟩ := get_acceptHeader u.block 0 0 0 1
    exact ⟨err_setErr _ _, fun hone => absurd (hraw.symm.trans hone) (by decide), fun _ => ⟨hlaw, hA, hB⟩⟩
  · have hne : s.block.lawTag ≠ 0 := by rw [hquantized]; decide
    obtain ⟨-, -, -, hlen⟩ := get_hencBlock_quantized Config.headerByteOrder s.block hne
    rw [hlen] at hbytes havail
    rw [hdecBlock_of_hencBlock_quantized _ s.block u.block hne hbytes havail]
    obtain ⟨hlaw, hA, hB, -⟩ := get_acceptHeader u.block 1 (s.block.get .paramA) (s.block.get .paramB) 9
    exact ⟨err_setErr _ _, fun _ => ⟨hlaw, hA, hB⟩, fun hzero => absurd hzero hne⟩

end Sys2Proof.Machine
end

section
/-! PROOFS. The control commands: NOP (R150) and CLRST (R151). -/

namespace Sys2Proof.Machine

theorem onlyWrites_nopBlock (b : Block) : OnlyWrites [.status] b (nopBlock b) := by
  intro r hr
  exact get_setErr b errOk r (by simpa using hr)

/-- Settles O9: NOP's one write is `ERR <- 0`. -/
theorem nopRecordsSuccessOnly : Obligations.NopRecordsSuccessOnly :=
  ⟨rfl, fun s => ⟨_, exec_eq_commandBlock .nop s, rfl, onlyWrites_nopBlock s.block,
    statusBecomes_setErr s.block s.block errOk rfl⟩⟩

/-- Where STATUS reads 0, each of its fields does (R36). -/
theorem status_fields_of_get_status_eq_zero (b : Block) (h : b.get .status = 0) :
    b.err = 0 ∧ b.lastInv = false ∧ ∀ k, b.sticky k = false := by
  refine ⟨?_, ?_, fun k => ?_⟩
  · rw [Block.err, h]
    rfl
  · rw [Block.lastInv, h]
    rfl
  · rw [Block.sticky, h]
    exact BitVec.getLsbD_zero

theorem onlyWrites_clrstBlock (b : Block) : OnlyWrites [.status, .hdrLen] b (clrstBlock b) := by
  intro r hr
  obtain ⟨hstatus, hlen⟩ : r ≠ .status ∧ r ≠ .hdrLen := by simpa using hr
  rw [clrstBlock, get_put_ne _ _ _ _ hlen, get_put_ne _ _ _ _ hstatus]

theorem get_clrstBlock_status (b : Block) : (clrstBlock b).get .status = 0 := by
  rw [clrstBlock, get_put_ne _ _ _ _ (by decide), get_put_of_legal _ _ _ rfl (by decide)]

theorem get_clrstBlock_hdrLen (b : Block) : (clrstBlock b).get .hdrLen = 0 := get_put_hdrLen_zero _

/-- Settles O10: the two registers CLRST writes read 0, and with STATUS each of its fields. -/
theorem clrstClearsStatusAndLength : Obligations.ClrstClearsStatusAndLength :=
  ⟨rfl, fun s => ⟨_, exec_eq_commandBlock .clrst s, rfl, onlyWrites_clrstBlock s.block,
    get_clrstBlock_status s.block, get_clrstBlock_hdrLen s.block,
    status_fields_of_get_status_eq_zero _ (get_clrstBlock_status s.block)⟩⟩

end Sys2Proof.Machine
end

section
/-! PROOFS. How a command word ends (R180): each command succeeds, takes SELECT's advisory outcome (R183) or raises a precise
error (R182). -/

namespace Sys2Proof.Machine

/-- A step with a legal command word next answers the command's register file. -/
theorem step_legal_word (s : State) (w : Word) (rest : List Access) (i : Instr)
    (hport : s.host.port = wr .cmd w :: rest) (hd : decode w = .ok i) :
    step s = .next ((s.withPort rest).withBlock (commandBlock i s.block)) := by
  rw [step_port s _ rest hport, performAccess_cmd_word, runCommand, hd]
  exact exec_eq_commandBlock i (s.withPort rest)

/-! How each command ends: FWD and HDEC may raise an error, SELECT may advise, the others only succeed. -/

theorem err_selectBlock (b : Block) : (selectBlock b).err = 0 ∨ (selectBlock b).err = 1 := by
  rcases selectBlock_cases b with ⟨-, -, -, h⟩ | ⟨-, -, h⟩ | ⟨-, h⟩
  · exact .inl (by rw [h, err_setErr, errOk])
  · exact .inr (by rw [h, err_setErr, errInvalidParameters])
  · exact .inl (by rw [h, err_setErr, errOk])

theorem err_deriveBlock (dp : Word → Word → Word × Word) (b : Block) : (deriveBlock dp b).err = 0 := by
  by_cases hlaw : b.lawTag = 1
  · rw [deriveBlock_quantized dp b hlaw, err_setErr, errOk]
  · rw [deriveBlock_raw dp b hlaw, err_setErr, errOk]

theorem err_invBlock (b : Block) : (invBlock b).err = 0 := by
  rcases invBlock_cases b with ⟨-, h⟩ | ⟨-, -, h⟩ | ⟨-, -, h⟩
  all_goals rw [h, err_invCommit]

theorem err_hencBlock (order : Config.ByteOrder) (b : Block) : (hencBlock order b).err = 0 := by
  obtain ⟨w0, w1, w2, len, hwrites⟩ := hencBlock_eq_writeHeader order b
  obtain ⟨herr, -, -⟩ := statusBecomes_writeHeader b w0 w1 w2 len
  rw [hwrites, herr]

theorem err_clrstBlock (b : Block) : (clrstBlock b).err = 0 := by
  obtain ⟨herr, -, -⟩ := status_fields_of_get_status_eq_zero _ (get_clrstBlock_status b)
  exact herr

/-- FWD's one error is the illegal combination of R111. -/
theorem fwdBlock_succeeds_or_raises (b : Block) : (fwdBlock b).err = 0 ∨ ∃ k, fwdBlock b = raiseError k b := by
  rcases fwdBlock_cases b with ⟨-, -, h⟩ | ⟨-, -, h⟩ | ⟨-, -, h⟩ | ⟨-, -, h⟩
  · exact .inr ⟨_, h⟩
  all_goals exact .inl (by rw [h, err_fwdCommit])

/-- HDEC's errors are those of its checks (R136). -/
theorem hdecBlock_succeeds_or_raises (order : Config.ByteOrder) (b : Block) :
    (hdecBlock order b).err = 0 ∨ ∃ k, hdecBlock order b = raiseError k b := by
  cases hverdict : headerVerdict (b.get .hdrAvail).toNat (b.hdrByte 0) with
  | error k => exact .inr ⟨k, hdecBlock_error order b k hverdict⟩
  | raw => exact .inl (by rw [hdecBlock_raw order b hverdict, acceptHeader, err_setErr, errOk])
  | quantized => exact .inl (by rw [hdecBlock_quantized order b hverdict, acceptHeader, err_setErr, errOk])

/-- The three outcomes of R180; a command that raises an error has had no effect before it. -/
theorem commandBlock_outcomes (i : Instr) (b : Block) :
    (commandBlock i b).err = 0 ∨ ((commandBlock i b).err = 1 ∧ i = .select) ∨ ∃ k, commandBlock i b = raiseError k b := by
  cases i with
  | nop => exact .inl (err_setErr b errOk)
  | select => exact (err_selectBlock b).imp_right fun h => .inl ⟨h, rfl⟩
  | derive => exact .inl (err_deriveBlock _ b)
  | fwd => exact (fwdBlock_succeeds_or_raises b).imp_right .inr
  | inv => exact .inl (err_invBlock b)
  | henc => exact .inl (err_hencBlock _ b)
  | hdec => exact (hdecBlock_succeeds_or_raises _ b).imp_right .inr
  | clrst => exact .inl (err_clrstBlock b)

theorem ErrorKind.code_cases (k : ErrorKind) : k.code = 2 ∨ k.code = 3 ∨ k.code = 4 := by
  cases k <;> decide

/-- An error is precise (R180): it leaves one of its three codes and changes nothing but STATUS. -/
theorem raiseError_precise (k : ErrorKind) (b : Block) :
    ((raiseError k b).err = 2 ∨ (raiseError k b).err = 3 ∨ (raiseError k b).err = 4) ∧
      OnlyWrites [.status] b (raiseError k b) := by
  rw [err_raiseError]
  exact ⟨k.code_cases, onlyWrites_raiseError k b⟩

/-- Settles O35: a legal word ends as its command does; any other word raises IllegalCommand. -/
theorem everyCommandEndsInOneOfThreeOutcomes : Obligations.EveryCommandEndsInOneOfThreeOutcomes := by
  intro s w rest hport
  cases hd : decode w with
  | error e => exact ⟨_, step_illegal_word s w rest e hport hd, rfl, .inr (.inr (raiseError_precise _ s.block))⟩
  | ok i =>
    refine ⟨_, step_legal_word s w rest i hport hd, rfl, ?_⟩
    rw [withBlock_block]
    rcases commandBlock_outcomes i s.block with hok | ⟨hadvisory, rfl⟩ | ⟨k, hraise⟩
    · exact .inl hok
    · exact .inr (.inl ⟨hadvisory, rfl⟩)
    · rw [hraise]
      exact .inr (.inr (raiseError_precise k s.block))

end Sys2Proof.Machine
end

section
/-! PROOFS. What the commands and the host writes leave alone (R72, R54), and the invariant every step keeps: the register file
stays legal (R24, R29, R34, R36, R39). -/

namespace Sys2Proof.Machine

/-! The registers a command writes (R72). -/

theorem onlyWrites_mono {ws ws' : List RegName} {b c : Block} (h : OnlyWrites ws b c) (hsub : ws ⊆ ws') :
    OnlyWrites ws' b c := fun r hr => h r fun hmem => hr (hsub hmem)

theorem onlyWrites_deriveBlock (dp : Word → Word → Word × Word) (b : Block) :
    OnlyWrites [.paramA, .paramB, .status] b (deriveBlock dp b) := by
  intro r hr
  obtain ⟨hA, hB, hstatus⟩ : r ≠ .paramA ∧ r ≠ .paramB ∧ r ≠ .status := by simpa using hr
  simp [deriveBlock, hA, hB, hstatus]

theorem onlyWrites_fwdBlock (b : Block) : OnlyWrites [.dout, .status] b (fwdBlock b) := by
  rcases fwdBlock_cases b with ⟨-, -, h⟩ | ⟨-, -, h⟩ | ⟨-, -, h⟩ | ⟨-, -, h⟩ <;> rw [h]
  · exact onlyWrites_mono (onlyWrites_raiseError _ b) (by simp)
  all_goals exact onlyWrites_fwdCommit b _

theorem onlyWrites_invBlock (b : Block) : OnlyWrites [.dout, .status] b (invBlock b) := by
  rcases invBlock_cases b with ⟨-, h⟩ | ⟨-, -, h⟩ | ⟨-, -, h⟩
  all_goals rw [h]; exact onlyWrites_invCommit b _

/-- HDEC raises one of the two errors of R136 or accepts the header of one of the two laws (R135). -/
theorem hdecBlock_cases (order : Config.ByteOrder) (b : Block) :
    (∃ k, k ≠ .illegalCommand ∧ hdecBlock order b = raiseError k b) ∨ hdecBlock order b = acceptHeader b 0 0 0 1 ∨
      ∃ pa pb, hdecBlock order b = acceptHeader b 1 pa pb 9 := by
  rcases headerVerdict_cases (b.get .hdrAvail).toNat (b.hdrByte 0) with ⟨-, h⟩ | ⟨-, -, -, h⟩ | ⟨-, -, h⟩ | ⟨-, -, -, h⟩ |
    ⟨-, -, h⟩
  · exact .inl ⟨_, by decide, hdecBlock_error order b _ h⟩
  · exact .inl ⟨_, by decide, hdecBlock_error order b _ h⟩
  · exact .inr (.inl (hdecBlock_raw order b h))
  · exact .inl ⟨_, by decide, hdecBlock_error order b _ h⟩
  · exact .inr (.inr ⟨_, _, hdecBlock_quantized order b h⟩)

theorem onlyWrites_hdecBlock (order : Config.ByteOrder) (b : Block) :
    OnlyWrites [.law, .paramA, .paramB, .hdrLen, .status] b (hdecBlock order b) := by
  rcases hdecBlock_cases order b with ⟨k, -, h⟩ | h | ⟨pa, pb, h⟩ <;> rw [h]
  · exact onlyWrites_mono (onlyWrites_raiseError k b) (by simp)
  all_goals exact onlyWrites_acceptHeader b _ _ _ _

theorem onlyWrites_commandBlock (i : Instr) (b : Block) : OnlyWrites (commandWrites i) b (commandBlock i b) := by
  cases i with
  | nop => exact onlyWrites_nopBlock b
  | select => exact onlyWrites_selectBlock b
  | derive => exact onlyWrites_deriveBlock _ b
  | fwd => exact onlyWrites_fwdBlock b
  | inv => exact onlyWrites_invBlock b
  | henc =>
    obtain ⟨w0, w1, w2, len, hwrites⟩ := hencBlock_eq_writeHeader Config.headerByteOrder b
    rw [commandBlock, hwrites]
    exact onlyWrites_writeHeader b w0 w1 w2 len
  | hdec => exact onlyWrites_hdecBlock _ b
  | clrst => exact onlyWrites_clrstBlock b

/-- Settles O36: the frame of each command. -/
theorem commandsWriteOnlyTheirRegisters : Obligations.CommandsWriteOnlyTheirRegisters := fun i s =>
  ⟨_, exec_eq_commandBlock i s, rfl, onlyWrites_commandBlock i s.block⟩

/-! What a step makes of the register file. -/

/-- `step_cases` on register files: a step leaves the block, writes a register for the host, runs a command or raises
IllegalCommand. -/
theorem step_block_cases (s t : State) (h : step s = .next t) :
    t.block = s.block ∨
    (∃ r v rest, r ≠ RegName.cmd ∧ s.host.port = wr r v :: rest ∧ t.block = hostWrite r v s.block) ∨
    (∃ i, s.Issues i ∧ t.block = commandBlock i s.block) ∨
    (∃ w e rest, s.host.port = wr .cmd w :: rest ∧ decode w = .error e ∧ t.block = raiseError .illegalCommand s.block) := by
  rcases step_cases s t h with hsame | hwrite | ⟨w, i, rest, u, hport, hd, hexec, rfl⟩ | hillegal
  · exact .inl hsame
  · exact .inr (.inl hwrite)
  · rw [exec_eq_commandBlock] at hexec
    cases hexec
    exact .inr (.inr (.inl ⟨i, ⟨w, rest, hport, hd⟩, rfl⟩))
  · exact .inr (.inr (.inr hillegal))

/-! CTRL after a host write (R23, R24, R39). -/

theorem getLsbD_ctrlStored (v : Word) (i : Nat) (hi : i < 32) :
    (ctrlStored v).getLsbD i = if i < 2 then v.getLsbD i
      else decide (4 ≤ i) && (effortStored (v.extractLsb' 4 4)).getLsbD (i - 4) := by
  have masks : ∀ i < 32, (3#32).getLsbD i = decide (i < 2) := by decide
  have mask := masks i hi
  by_cases hlow : i < 2
  · simp [ctrlStored, mask, hlow, show i < 4 by omega]
  · by_cases h4 : i < 4
    · simp [ctrlStored, mask, hlow, h4]
    · simp [ctrlStored, mask, hlow, h4, hi, show 4 ≤ i by omega, show i - 4 < 32 by omega, -BitVec.getLsbD_eq_getElem]

/-- CTRL stores no reserved bit of a host write. -/
theorem ctrlStored_and_implemented (v : Word) : ctrlStored v &&& RegName.implemented .ctrl = ctrlStored v := by
  have mask : ∀ i < 32, (RegName.implemented .ctrl).getLsbD i = decide (i < 2 ∨ 4 ≤ i ∧ i < 8) := by decide
  apply BitVec.eq_of_getLsbD_eq
  intro i hi
  rw [BitVec.getLsbD_and, mask i hi, getLsbD_ctrlStored v i hi]
  by_cases hlow : i < 2
  · simp [hlow]
  · by_cases h8 : 4 ≤ i ∧ i < 8
    · simp [h8]
    · have hhigh : 4 ≤ i → (effortStored (v.extractLsb' 4 4)).getLsbD (i - 4) = false := fun h =>
        BitVec.getLsbD_of_ge _ _ (by omega)
      simp only [hlow, if_false, Bool.and_eq_left_iff_imp, Bool.and_eq_true, decide_eq_true_eq, and_imp]
      intro h hbit
      rw [hhigh h] at hbit
      cases hbit

theorem get_hostWrite_ctrl (v : Word) (b : Block) : (hostWrite .ctrl v b).get .ctrl = ctrlStored v :=
  get_put_of_legal b .ctrl _ rfl (ctrlStored_and_implemented v)

theorem effortStored_toNat (e : BitVec 4) : (effortStored e).toNat = min e.toNat 9 := by
  unfold effortStored
  split
  · omega
  · simp; omega

/-- R24: EFFORT after a host write of CTRL. -/
theorem effort_hostWrite_ctrl (v : Word) (b : Block) :
    (hostWrite .ctrl v b).effort = min (v.extractLsb' 4 4).toNat 9 := by
  have hfield : (ctrlStored v).extractLsb' 4 4 = effortStored (v.extractLsb' 4 4) := by
    apply BitVec.eq_of_getLsbD_eq
    intro i hi
    simp [hi, getLsbD_ctrlStored v (4 + i) (by omega), show ¬4 + i < 2 by omega]
  rw [Block.effort, get_hostWrite_ctrl, hfield, effortStored_toNat]

/-! The other registers after a host write. -/

/-- A host write of ID, LAW, DOUT or HDR_LEN is ignored (R39), and no other write reaches them. -/
theorem get_hostWrite_readOnly (r r' : RegName) (v : Word) (b : Block) (h : r ∈ [RegName.id, .law, .dout, .hdrLen]) :
    (hostWrite r' v b).get r = b.get r := by
  by_cases hne : r = r'
  · subst hne
    fin_cases h <;> rfl
  · exact onlyWrites_hostWrite r' v b r (by simpa using hne)

theorem get_hostWrite_of_ne (r r' : RegName) (v : Word) (b : Block) (h : r ≠ r') :
    (hostWrite r' v b).get r = b.get r := onlyWrites_hostWrite r' v b r (by simpa using h)

/-- No host write reaches ERR: W1C clears sticky bits alone (R37). -/
theorem err_hostWrite (r : RegName) (v : Word) (b : Block) : (hostWrite r v b).err = b.err := by
  by_cases hr : RegName.status = r
  · subst hr
    exact err_hostWrite_status v b
  · rw [Block.err, get_hostWrite_of_ne _ _ v b hr, Block.err]

/-! The invariant. Reserved bits are kept 0 by every register write; each field's range by the few writers of the field. -/

/-- Every reserved bit of the register file is 0 (R39). -/
def Block.ReservedZero (b : Block) : Prop :=
  b.ctrl &&& RegName.implemented .ctrl = b.ctrl ∧ b.law &&& RegName.implemented .law = b.law ∧
    b.hdrW2 &&& RegName.implemented .hdrW2 = b.hdrW2 ∧ b.hdrLen &&& RegName.implemented .hdrLen = b.hdrLen ∧
    b.status &&& RegName.implemented .status = b.status

/-- The fields with a range hold values in it (R24, R29, R34, R36). -/
def Block.FieldsInRange (b : Block) : Prop :=
  b.effort ≤ 9 ∧ (b.get .law = 0 ∨ b.get .law = 1) ∧ (b.get .hdrLen = 0 ∨ b.get .hdrLen = 1 ∨ b.get .hdrLen = 9) ∧
    b.err.toNat ≤ 4

theorem legal_iff (b : Block) : b.Legal ↔ b.ReservedZero ∧ b.FieldsInRange := by
  simp only [Block.Legal, Block.ReservedZero, Block.FieldsInRange, and_assoc]

theorem reservedZero_put (b : Block) (r : RegName) (v : Word) (h : b.ReservedZero) : (b.put r v).ReservedZero := by
  obtain ⟨hctrl, hlaw, hw2, hlen, hstatus⟩ := h
  have twice : ∀ m : Word, v &&& m &&& m = v &&& m := fun m => by rw [BitVec.and_assoc, BitVec.and_self]
  cases r with
  | ctrl => exact ⟨twice _, hlaw, hw2, hlen, hstatus⟩
  | law => exact ⟨hctrl, twice _, hw2, hlen, hstatus⟩
  | hdrW2 => exact ⟨hctrl, hlaw, twice _, hlen, hstatus⟩
  | hdrLen => exact ⟨hctrl, hlaw, hw2, twice _, hstatus⟩
  | status => exact ⟨hctrl, hlaw, hw2, hlen, twice _⟩
  | _ => exact ⟨hctrl, hlaw, hw2, hlen, hstatus⟩

section
variable {P : Block → Prop} (hput : ∀ (b : Block) (r : RegName) (v : Word), P b → P (b.put r v))
include hput

/-! Commands and host writes are made of register writes: what every write keeps, they keep. -/

theorem hostWrite_induction (r : RegName) (v : Word) (b : Block) (h : P b) : P (hostWrite r v b) := by
  cases r with
  | id | law | dout | hdrLen | cmd => exact h
  | _ => rw [hostWrite]; exact hput _ _ _ h

theorem setErr_induction (b : Block) (code : BitVec 4) (h : P b) : P (b.setErr code) := hput b .status _ h

theorem setLastInv_induction (b : Block) (v : Bool) (h : P b) : P (b.setLastInv v) := hput b .status _ h

theorem setSticky_induction (b : Block) (k : Sticky) (h : P b) : P (b.setSticky k) := hput b .status _ h

theorem setStickyIf_induction (b : Block) (c : Bool) (k : Sticky) (h : P b) : P (b.setStickyIf c k) := by
  cases c
  · exact h
  · exact setSticky_induction hput b k h

theorem raiseError_induction (k : ErrorKind) (b : Block) (h : P b) : P (raiseError k b) :=
  setSticky_induction hput _ _ (setErr_induction hput _ _ h)

/-- The writes of a successful FWD or INV: DOUT and the fields of STATUS (R110, R118). -/
theorem commit_induction (b : Block) (out : Word) (invalid clamped nan : Bool) (h : P b) :
    P (((((b.put .dout out).setLastInv invalid).setStickyIf clamped .clamped).setStickyIf nan .nan).setErr errOk) := by
  apply_rules [setErr_induction, setStickyIf_induction, setLastInv_induction]

theorem fwdBlock_induction (b : Block) (h : P b) : P (fwdBlock b) := by
  rcases fwdBlock_cases b with ⟨-, -, hfwd⟩ | ⟨-, -, hfwd⟩ | ⟨-, -, hfwd⟩ | ⟨-, -, hfwd⟩ <;> rw [hfwd]
  · exact raiseError_induction hput _ b h
  all_goals exact commit_induction hput b _ _ _ _ h

theorem invBlock_induction (b : Block) (h : P b) : P (invBlock b) := by
  rcases invBlock_cases b with ⟨-, hinv⟩ | ⟨-, -, hinv⟩ | ⟨-, -, hinv⟩
  all_goals rw [hinv]; exact commit_induction hput b _ _ _ _ h

theorem selectBlock_induction (b : Block) (h : P b) : P (selectBlock b) := by
  rcases selectBlock_cases b with ⟨-, -, -, hsel⟩ | ⟨-, -, hsel⟩ | ⟨-, hsel⟩
  all_goals rw [hsel]; apply_rules [setErr_induction, setSticky_induction]

theorem hencBlock_induction (order : Config.ByteOrder) (b : Block) (h : P b) : P (hencBlock order b) := by
  obtain ⟨w0, w1, w2, len, hwrites⟩ := hencBlock_eq_writeHeader order b
  rw [hwrites, writeHeader]
  apply_rules [setErr_induction]

theorem hdecBlock_induction (order : Config.ByteOrder) (b : Block) (h : P b) : P (hdecBlock order b) := by
  rcases hdecBlock_cases order b with ⟨k, -, hdec⟩ | hdec | ⟨pa, pb, hdec⟩ <;> rw [hdec]
  · exact raiseError_induction hput k b h
  all_goals rw [acceptHeader]; apply_rules [setErr_induction]

theorem commandBlock_induction (i : Instr) (b : Block) (h : P b) : P (commandBlock i b) := by
  cases i with
  | nop => exact setErr_induction hput b errOk h
  | select => exact selectBlock_induction hput b h
  | derive => exact setErr_induction hput _ errOk (hput _ .paramB _ (hput _ .paramA _ h))
  | fwd => exact fwdBlock_induction hput b h
  | inv => exact invBlock_induction hput b h
  | henc => exact hencBlock_induction hput _ b h
  | hdec => exact hdecBlock_induction hput _ b h
  | clrst => exact hput _ .hdrLen _ (hput _ .status _ h)

end

/-- LAW after a command: as before, or one of the two laws (R29). -/
theorem law_commandBlock (i : Instr) (b : Block) :
    (commandBlock i b).get .law = b.get .law ∨ (commandBlock i b).get .law = 0 ∨ (commandBlock i b).get .law = 1 := by
  cases i with
  | select =>
    rcases selectBlock_cases b with ⟨-, -, -, h⟩ | ⟨-, -, h⟩ | ⟨-, h⟩ <;> rw [commandBlock, h]
    · exact .inr (.inr (by simp))
    · exact .inr (.inl (by simp))
    · exact .inr (.inl (by simp))
  | hdec =>
    rcases hdecBlock_cases Config.headerByteOrder b with ⟨k, -, h⟩ | h | ⟨pa, pb, h⟩ <;> rw [commandBlock, h]
    · exact .inl (get_raiseError b k .law (by decide))
    · exact .inr (.inl (get_acceptHeader b 0 0 0 1).1)
    · exact .inr (.inr (get_acceptHeader b 1 pa pb 9).1)
  | _ => exact .inl (onlyWrites_commandBlock _ b .law (by decide))

/-- HDR_LEN after a command: as before, or a header's length, or 0 (R34). -/
theorem hdrLen_commandBlock (i : Instr) (b : Block) :
    (commandBlock i b).get .hdrLen = b.get .hdrLen ∨ (commandBlock i b).get .hdrLen = 0 ∨
      (commandBlock i b).get .hdrLen = 1 ∨ (commandBlock i b).get .hdrLen = 9 := by
  cases i with
  | henc =>
    by_cases hlaw : b.lawTag = 0
    · obtain ⟨-, -, -, hlen⟩ := get_hencBlock_raw Config.headerByteOrder b hlaw
      exact .inr (.inr (.inl hlen))
    · obtain ⟨-, -, -, hlen⟩ := get_hencBlock_quantized Config.headerByteOrder b hlaw
      exact .inr (.inr (.inr hlen))
  | hdec =>
    rcases hdecBlock_cases Config.headerByteOrder b with ⟨k, -, h⟩ | h | ⟨pa, pb, h⟩ <;> rw [commandBlock, h]
    · exact .inl (get_raiseError b k .hdrLen (by decide))
    · obtain ⟨-, -, -, hlen⟩ := get_acceptHeader b 0 0 0 1
      exact .inr (.inr (.inl hlen))
    · obtain ⟨-, -, -, hlen⟩ := get_acceptHeader b 1 pa pb 9
      exact .inr (.inr (.inr hlen))
  | clrst => exact .inr (.inl (get_clrstBlock_hdrLen b))
  | _ => exact .inl (onlyWrites_commandBlock _ b .hdrLen (by decide))

theorem ErrorKind.code_le_four (k : ErrorKind) : k.code.toNat ≤ 4 := by cases k <;> decide

/-- ERR after a command is one of the codes of R181. -/
theorem err_commandBlock_le (i : Instr) (b : Block) : (commandBlock i b).err.toNat ≤ 4 := by
  rcases commandBlock_outcomes i b with h | ⟨h, -⟩ | ⟨k, h⟩
  · rw [h]; decide
  · rw [h]; decide
  · rw [h, err_raiseError]; exact k.code_le_four

theorem effort_eq_of_get_ctrl {b c : Block} (h : c.get .ctrl = b.get .ctrl) : c.effort = b.effort := by
  rw [Block.effort, h, Block.effort]

theorem ctrl_commandBlock (i : Instr) (b : Block) : (commandBlock i b).get .ctrl = b.get .ctrl :=
  onlyWrites_commandBlock i b .ctrl (by cases i <;> decide)

theorem fieldsInRange_commandBlock (i : Instr) (b : Block) (h : b.FieldsInRange) : (commandBlock i b).FieldsInRange := by
  obtain ⟨heffort, hlaw, hlen, -⟩ := h
  refine ⟨(effort_eq_of_get_ctrl (ctrl_commandBlock i b)).trans_le heffort, ?_, ?_, err_commandBlock_le i b⟩
  · rcases law_commandBlock i b with h | h
    · rwa [h]
    · exact h
  · rcases hdrLen_commandBlock i b with h | h
    · rwa [h]
    · exact h

theorem fieldsInRange_hostWrite (r : RegName) (v : Word) (b : Block) (h : b.FieldsInRange) :
    (hostWrite r v b).FieldsInRange := by
  obtain ⟨heffort, hlaw, hlen, herr⟩ := h
  refine ⟨?_, ?_, ?_, by rwa [err_hostWrite]⟩
  · by_cases hr : RegName.ctrl = r
    · subst hr
      rw [effort_hostWrite_ctrl]
      exact min_le_right _ _
    · exact (effort_eq_of_get_ctrl (get_hostWrite_of_ne _ _ v b hr)).trans_le heffort
  · rwa [get_hostWrite_readOnly .law r v b (by decide)]
  · rwa [get_hostWrite_readOnly .hdrLen r v b (by decide)]

theorem fieldsInRange_raiseError (k : ErrorKind) (b : Block) (h : b.FieldsInRange) : (raiseError k b).FieldsInRange := by
  obtain ⟨heffort, hlaw, hlen, -⟩ := h
  refine ⟨(effort_eq_of_get_ctrl (get_raiseError b k .ctrl (by decide))).trans_le heffort, ?_, ?_, ?_⟩
  · rwa [get_raiseError b k .law (by decide)]
  · rwa [get_raiseError b k .hdrLen (by decide)]
  · rw [err_raiseError]; exact k.code_le_four

/-- Settles O3: a step that touches the register file writes registers for the host, for a command or for the error outcome;
register writes keep reserved bits 0, and each of the three keeps the fields in range. -/
theorem stepKeepsLegal : Obligations.StepKeepsLegal := by
  intro s t hlegal hstep
  rw [legal_iff] at hlegal ⊢
  obtain ⟨hzero, hrange⟩ := hlegal
  rcases step_block_cases s t hstep with h | ⟨r, v, rest, -, -, h⟩ | ⟨i, -, h⟩ | ⟨w, e, rest, -, -, h⟩ <;> rw [h]
  · exact ⟨hzero, hrange⟩
  · exact ⟨hostWrite_induction reservedZero_put r v _ hzero, fieldsInRange_hostWrite r v _ hrange⟩
  · exact ⟨commandBlock_induction reservedZero_put i _ hzero, fieldsInRange_commandBlock i _ hrange⟩
  · exact ⟨raiseError_induction reservedZero_put _ _ hzero, fieldsInRange_raiseError _ _ hrange⟩

/-- Settles O2, by evaluating the invariant on the register file of R42 and the host agent at reset. -/
theorem resetIsLegal : Obligations.ResetIsLegal := by
  unfold Obligations.ResetIsLegal
  decide

end Sys2Proof.Machine
end

section
/-! PROOFS. Who changes what, over every step: LAW (R92), the STATUS fields (R36, R43), the host's registers (R72); and what a host
write does to its own register (R54). -/

namespace Sys2Proof.Machine

/-! LAW (R92). -/

/-- Settles O39: only SELECT and HDEC have LAW among their registers, and an HDEC that raises an error leaves it alone. -/
theorem lawChangesOnlyBySelectOrHdec : Obligations.LawChangesOnlyBySelectOrHdec := by
  intro s t hstep hchange
  rcases step_block_cases s t hstep with h | ⟨r, v, rest, -, -, h⟩ | ⟨i, hissues, h⟩ | ⟨w, e, rest, -, -, h⟩ <;>
    rw [h] at hchange
  · exact absurd rfl hchange
  · exact absurd (get_hostWrite_readOnly .law r v _ (by decide)) hchange
  · cases i with
    | select => exact .inl hissues
    | hdec =>
      refine .inr ⟨hissues, ?_⟩
      rw [h]
      refine (hdecBlock_succeeds_or_raises _ _).resolve_right ?_
      rintro ⟨k, hraise⟩
      rw [commandBlock, hraise] at hchange
      exact hchange (get_raiseError _ k .law (by decide))
    | _ => exact absurd (onlyWrites_commandBlock _ _ .law (by decide)) hchange
  · exact absurd (get_raiseError _ _ .law (by decide)) hchange

/-! The registers of the host (R72). -/

/-- Settles O41: a host write reaches its own register alone, and no command has one of these among its registers. -/
theorem hostRegistersChangeOnlyByHostWrites : Obligations.HostRegistersChangeOnlyByHostWrites := by
  intro s t r hr hstep hchange
  rcases step_block_cases s t hstep with h | ⟨r', v, rest, -, hport, h⟩ | ⟨i, -, h⟩ | ⟨w, e, rest, -, -, h⟩ <;>
    rw [h] at hchange
  · exact absurd rfl hchange
  · obtain rfl : r = r' := by
      by_contra hne
      exact hchange (get_hostWrite_of_ne r r' v _ hne)
    exact ⟨v, rest, hport⟩
  · have hnot : ∀ r ∈ [RegName.ctrl, .depthMax, .depthQuant, .din, .hdrAvail], r ∉ commandWrites i := by cases i <;> decide
    exact absurd (onlyWrites_commandBlock i _ r (hnot r hr)) hchange
  · have hnot : ∀ r ∈ [RegName.ctrl, .depthMax, .depthQuant, .din, .hdrAvail], r ≠ .status := by decide
    exact absurd (get_raiseError _ _ r (hnot r hr)) hchange

/-! The fields of STATUS (R36, R43). -/

theorem lastInv_hostWrite (r : RegName) (v : Word) (b : Block) : (hostWrite r v b).lastInv = b.lastInv := by
  by_cases hr : RegName.status = r
  · subst hr
    exact lastInv_hostWrite_status v b
  · rw [Block.lastInv, get_hostWrite_of_ne _ _ v b hr, Block.lastInv]

/-- A host write clears a sticky bit exactly when it is a write of 1 to it in STATUS (R37), and sets none. -/
theorem sticky_hostWrite (r : RegName) (v : Word) (b : Block) (k : Sticky) :
    (hostWrite r v b).sticky k = (b.sticky k && !(decide (r = .status) && v.getLsbD k.bit)) := by
  by_cases hr : RegName.status = r
  · subst hr
    simp
  · rw [Block.sticky, get_hostWrite_of_ne _ _ v b hr, ← Block.sticky, decide_eq_false (Ne.symm hr)]
    simp

/-- The sticky bits that each command may set (R36). -/
def commandRaises : Instr → List Sticky
  | .nop | .derive | .henc | .clrst => []
  | .select => [.fallback]
  | .fwd => [.illegal, .clamped, .nan]
  | .inv => [.clamped, .nan]
  | .hdec => [.unsup, .corrupt]

/-- STATUS after a command that keeps R36's rules for the sticky bits it may set and for LAST_INV. -/
def StatusWithinRules (i : Instr) (b c : Block) : Prop :=
  ∃ code invalid raised, StatusBecomes b c code invalid raised ∧ raised ⊆ commandRaises i ∧
    (invalid ≠ b.lastInv → (i = .fwd ∨ i = .inv) ∧ code = 0)

theorem statusWithinRules_of_lastInv {i : Instr} {b c : Block} {code : BitVec 4} {raised : List Sticky}
    (h : StatusBecomes b c code b.lastInv raised) (hsub : raised ⊆ commandRaises i) : StatusWithinRules i b c :=
  ⟨code, b.lastInv, raised, h, hsub, fun hne => absurd rfl hne⟩

theorem raisedBits_subset (clamped nan : Bool) : raisedBits clamped nan ⊆ [.clamped, .nan] := by
  cases clamped <;> cases nan <;> decide

theorem statusWithinRules_selectBlock (b : Block) : StatusWithinRules .select b (selectBlock b) := by
  rcases selectBlock_cases b with ⟨-, -, -, h⟩ | ⟨-, -, h⟩ | ⟨-, h⟩ <;> rw [h]
  · exact statusWithinRules_of_lastInv (statusBecomes_setErr b _ errOk (by simp)) (by simp)
  · have hstatus : StatusBecomes b (((b.put .law 0).setSticky .fallback).setErr errInvalidParameters) 1 b.lastInv
        [.fallback] := ⟨err_setErr _ _, by simp, fun k => by simp⟩
    exact statusWithinRules_of_lastInv hstatus (by decide)
  · exact statusWithinRules_of_lastInv (statusBecomes_setErr b _ errOk (by simp)) (by simp)

theorem statusWithinRules_fwdBlock (b : Block) : StatusWithinRules .fwd b (fwdBlock b) := by
  have hcommit : ∀ r : ForwardResult, StatusWithinRules .fwd b (fwdCommit b r) := fun r =>
    ⟨_, _, _, (fwdCommit_result b r).2, List.Subset.trans (raisedBits_subset _ _) (by decide), fun _ => ⟨.inl rfl, rfl⟩⟩
  rcases fwdBlock_cases b with ⟨-, -, h⟩ | ⟨-, -, h⟩ | ⟨-, -, h⟩ | ⟨-, -, h⟩ <;> rw [h]
  · exact statusWithinRules_of_lastInv (statusBecomes_raiseError _ b) (by decide)
  all_goals exact hcommit _

theorem statusWithinRules_invBlock (b : Block) : StatusWithinRules .inv b (invBlock b) := by
  rcases invBlock_cases b with ⟨-, h⟩ | ⟨-, -, h⟩ | ⟨-, -, h⟩
  all_goals
    rw [h]
    exact ⟨_, _, _, (invCommit_result b _).2, raisedBits_subset _ _, fun _ => ⟨.inr rfl, rfl⟩⟩

theorem statusWithinRules_hdecBlock (order : Config.ByteOrder) (b : Block) : StatusWithinRules .hdec b (hdecBlock order b) := by
  rcases hdecBlock_cases order b with ⟨k, hk, h⟩ | h | ⟨pa, pb, h⟩ <;> rw [h]
  · have hsticky : [k.sticky] ⊆ commandRaises .hdec := by
      cases k with
      | illegalCommand => exact absurd rfl hk
      | unsupportedFormat => decide
      | payloadCorrupt => decide
    exact statusWithinRules_of_lastInv (statusBecomes_raiseError k b) hsticky
  all_goals exact statusWithinRules_of_lastInv (statusBecomes_acceptHeader b _ _ _ _) (by simp)

/-- Every command but CLRST keeps the rules of R36. -/
theorem statusWithinRules_commandBlock (i : Instr) (b : Block) (hi : i ≠ .clrst) : StatusWithinRules i b (commandBlock i b) := by
  cases i with
  | nop => exact statusWithinRules_of_lastInv (statusBecomes_setErr b b errOk rfl) (by simp)
  | select => exact statusWithinRules_selectBlock b
  | derive => exact statusWithinRules_of_lastInv (statusBecomes_setErr b _ errOk (by simp)) (by simp)
  | fwd => exact statusWithinRules_fwdBlock b
  | inv => exact statusWithinRules_invBlock b
  | henc =>
    obtain ⟨w0, w1, w2, len, hwrites⟩ := hencBlock_eq_writeHeader Config.headerByteOrder b
    rw [commandBlock, hwrites]
    exact statusWithinRules_of_lastInv (statusBecomes_writeHeader b w0 w1 w2 len) (by simp)
  | hdec => exact statusWithinRules_hdecBlock _ b
  | clrst => exact absurd rfl hi

/-- CLRST clears the fields of STATUS. -/
theorem lastInv_clrstBlock (b : Block) : (clrstBlock b).lastInv = false := by
  obtain ⟨-, hlast, -⟩ := status_fields_of_get_status_eq_zero _ (get_clrstBlock_status b)
  exact hlast

theorem sticky_clrstBlock (b : Block) (k : Sticky) : (clrstBlock b).sticky k = false := by
  obtain ⟨-, -, hsticky⟩ := status_fields_of_get_status_eq_zero _ (get_clrstBlock_status b)
  exact hsticky k

theorem lastInv_commandBlock_ne {i : Instr} {b : Block} (h : (commandBlock i b).lastInv ≠ b.lastInv) :
    ((i = .fwd ∨ i = .inv) ∧ (commandBlock i b).err = 0) ∨ (i = .clrst ∧ (commandBlock i b).lastInv = false) := by
  by_cases hi : i = .clrst
  · subst hi
    exact .inr ⟨rfl, lastInv_clrstBlock b⟩
  · obtain ⟨code, invalid, raised, ⟨herr, hlast, -⟩, -, hrule⟩ := statusWithinRules_commandBlock i b hi
    obtain ⟨hwriter, hcode⟩ := hrule (hlast ▸ h)
    exact .inl ⟨hwriter, herr.trans hcode⟩

theorem mem_commandRaises_of_sticky {i : Instr} {b : Block} {k : Sticky} (hold : b.sticky k = false)
    (hnew : (commandBlock i b).sticky k = true) : k ∈ commandRaises i := by
  by_cases hi : i = .clrst
  · subst hi
    rw [commandBlock, sticky_clrstBlock] at hnew
    cases hnew
  · obtain ⟨code, invalid, raised, ⟨-, -, hsticky⟩, hsub, -⟩ := statusWithinRules_commandBlock i b hi
    rw [hsticky, hold, Bool.false_or, decide_eq_true_eq] at hnew
    exact hsub hnew

/-- No command but CLRST clears a sticky bit. -/
theorem eq_clrst_of_sticky_cleared {i : Instr} {b : Block} {k : Sticky} (hold : b.sticky k = true)
    (hnew : (commandBlock i b).sticky k = false) : i = .clrst := by
  by_contra hi
  obtain ⟨code, invalid, raised, ⟨-, -, hsticky⟩, -⟩ := statusWithinRules_commandBlock i b hi
  rw [hsticky, hold, Bool.true_or] at hnew
  cases hnew

/-- Settles O40, writer by writer: a host write reaches the sticky bits only, and clears them; a command keeps R36's rules; an
illegal word sets ERR and S_ILLEGAL. -/
theorem statusFlagsHaveTheirWriters : Obligations.StatusFlagsHaveTheirWriters := by
  intro s t hstep
  rcases step_block_cases s t hstep with h | ⟨r, v, rest, -, hport, h⟩ | ⟨i, hissues, h⟩ | ⟨w, e, rest, hport, hd, h⟩ <;>
    rw [h]
  · exact ⟨fun hne => absurd rfl hne, fun hne => absurd rfl hne, fun k hold hnew => absurd (hold.symm.trans hnew) (by decide),
      fun k hold hnew => absurd (hold.symm.trans hnew) (by decide)⟩
  · refine ⟨fun hne => absurd (err_hostWrite r v _) hne, fun hne => absurd (lastInv_hostWrite r v _) hne,
      fun k hold hnew => ?_, fun k hold hnew => ?_⟩ <;> rw [sticky_hostWrite, hold] at hnew
    · cases hnew
    · simp only [Bool.true_and, Bool.not_eq_false', Bool.and_eq_true, decide_eq_true_eq] at hnew
      obtain ⟨rfl, hbit⟩ := hnew
      exact .inr ⟨v, rest, hport, hbit⟩
  · refine ⟨fun _ => ?_, fun hne => ?_, fun k hold hnew => ?_, fun k hold hnew => ?_⟩
    · obtain ⟨w, rest, hport, -⟩ := hissues
      exact ⟨w, rest, hport⟩
    · rcases lastInv_commandBlock_ne hne with ⟨rfl | rfl, herr⟩ | ⟨rfl, hlast⟩
      · exact .inl ⟨.inl hissues, herr⟩
      · exact .inl ⟨.inr hissues, herr⟩
      · exact .inr ⟨hissues, hlast⟩
    · have hmem : k ∈ commandRaises i := mem_commandRaises_of_sticky hold hnew
      cases i with
      | nop | derive | henc | clrst => cases hmem
      | select => fin_cases hmem; exact hissues
      | fwd => fin_cases hmem <;> [exact .inr hissues; exact .inl hissues; exact .inl hissues]
      | inv => fin_cases hmem <;> exact .inr hissues
      | hdec => fin_cases hmem <;> exact hissues
    · exact .inl (eq_clrst_of_sticky_cleared hold hnew ▸ hissues)
  · refine ⟨fun _ => ⟨w, rest, hport⟩, fun hne => absurd (lastInv_raiseError _ _) hne, fun k hold hnew => ?_,
      fun k hold hnew => ?_⟩ <;> rw [sticky_raiseError, hold] at hnew
    · simp only [Bool.false_or, decide_eq_true_eq] at hnew
      subst hnew
      exact .inl ⟨w, rest, e, hport, hd⟩
    · rw [Bool.true_or] at hnew
      cases hnew

/-! A host write and its own register (R54). -/

/-- The registers that store the word written as it is. -/
theorem get_hostWrite_full (r : RegName) (v : Word) (b : Block)
    (h : r ∈ [RegName.depthMax, .depthQuant, .paramA, .paramB, .din, .hdrW0, .hdrW1, .hdrAvail]) :
    (hostWrite r v b).get r = v := by
  fin_cases h <;> rfl

/-- CTRL after a host write: the two formats as written, the reserved bits 0 (R23, R39). -/
theorem formats_hostWrite_ctrl (v : Word) (b : Block) :
    ((hostWrite .ctrl v b).get .ctrl).getLsbD 0 = v.getLsbD 0 ∧ ((hostWrite .ctrl v b).get .ctrl).getLsbD 1 = v.getLsbD 1 ∧
      (hostWrite .ctrl v b).get .ctrl &&& 0xFFFFFF0C = 0 := by
  rw [get_hostWrite_ctrl]
  refine ⟨getLsbD_ctrlStored v 0 (by norm_num), getLsbD_ctrlStored v 1 (by norm_num), ?_⟩
  rw [← ctrlStored_and_implemented v, BitVec.and_assoc, show RegName.implemented .ctrl &&& 0xFFFFFF0C = 0 from rfl]
  exact BitVec.and_zero

/-- STATUS after a host write: W1C on its implemented bits (R37). -/
theorem get_hostWrite_status (v : Word) (b : Block) :
    (hostWrite .status v b).get .status = b.get .status &&& ~~~(v &&& 0x00003F00) := by
  rw [hostWrite, get_put_self b .status _ rfl, w1c, BitVec.and_assoc, BitVec.and_comm _ (RegName.implemented .status),
    ← BitVec.and_assoc, get_and_implemented b .status rfl]
  rfl

/-- Settles O43: the step is the host write, which each kind of register takes by its own rule. -/
theorem hostWriteTakesEffect : Obligations.HostWriteTakesEffect := by
  intro s r v rest hr hport
  refine ⟨_, step_wr s r v rest hport hr, rfl, onlyWrites_hostWrite r v s.block, get_hostWrite_full r v s.block, ?_,
    get_hostWrite_readOnly r r v s.block, ?_, ?_⟩
  · rintro rfl
    exact get_put_self s.block .hdrW2 v rfl
  · rintro rfl
    obtain ⟨h0, h1, hreserved⟩ := formats_hostWrite_ctrl v s.block
    exact ⟨h0, h1, effort_hostWrite_ctrl v s.block, hreserved⟩
  · rintro rfl
    exact get_hostWrite_status v s.block

/-- Settles O44: EFFORT is the smaller of the value written and 9. -/
theorem ctrlWriteStoresEffort : Obligations.CtrlWriteStoresEffort := by
  intro s v rest hport
  refine ⟨_, step_wr s .ctrl v rest hport (by decide), onlyWrites_hostWrite .ctrl v s.block, fun hlow => ?_, fun hhigh => ?_⟩
  · exact (effort_hostWrite_ctrl v s.block).trans (min_eq_left hlow)
  · exact (effort_hostWrite_ctrl v s.block).trans (min_eq_right (by omega))

end Sys2Proof.Machine
end

section
/-! PROOFS. A command depends only on its operands (R72, R121, R132, R139): on two register files that agree on them it makes the
same writes. -/

namespace Sys2Proof.Machine

/-- `x` comes of `b`, and `y` of `c`, by the same writes: a register reads the same in both or is unwritten in both, and a field
of STATUS that agreed before agrees after. -/
structure SameWrites (b c x y : Block) : Prop where
  registers : ∀ r, r ≠ .status → x.get r = y.get r ∨ (x.get r = b.get r ∧ y.get r = c.get r)
  lastInv : b.lastInv = c.lastInv → x.lastInv = y.lastInv
  sticky : ∀ k, b.sticky k = c.sticky k → x.sticky k = y.sticky k

namespace SameWrites
variable {b c x y : Block}

theorem refl (b c : Block) : SameWrites b c b c := ⟨fun _ _ => .inr ⟨rfl, rfl⟩, id, fun _ => id⟩

theorem put (h : SameWrites b c x y) {r : RegName} (v : Word) (hr : RegName.status ≠ r) :
    SameWrites b c (x.put r v) (y.put r v) where
  registers r' hr' := by
    by_cases hne : r' = r
    · subst hne
      cases hstored : r'.stored with
      | true => exact .inl (by rw [get_put_self x r' v hstored, get_put_self y r' v hstored])
      | false =>
        match r', hstored with
        | .id, _ | .cmd, _ => exact .inl rfl
    · rw [get_put_ne x r r' v hne, get_put_ne y r r' v hne]
      exact h.registers r' hr'
  lastInv hbc := by rw [lastInv_put_ne x r v hr, lastInv_put_ne y r v hr, h.lastInv hbc]
  sticky k hbc := by rw [sticky_put_ne x r v k hr, sticky_put_ne y r v k hr, h.sticky k hbc]

theorem setErr (h : SameWrites b c x y) (code : BitVec 4) : SameWrites b c (x.setErr code) (y.setErr code) where
  registers r hr := by rw [get_setErr x code r hr, get_setErr y code r hr]; exact h.registers r hr
  lastInv hbc := by rw [lastInv_setErr, lastInv_setErr, h.lastInv hbc]
  sticky k hbc := by rw [sticky_setErr, sticky_setErr, h.sticky k hbc]

theorem setLastInv (h : SameWrites b c x y) (v : Bool) : SameWrites b c (x.setLastInv v) (y.setLastInv v) where
  registers r hr := by rw [get_setLastInv x v r hr, get_setLastInv y v r hr]; exact h.registers r hr
  lastInv _ := by rw [lastInv_setLastInv, lastInv_setLastInv]
  sticky k hbc := by rw [sticky_setLastInv, sticky_setLastInv, h.sticky k hbc]

theorem setStickyIf (h : SameWrites b c x y) (v : Bool) (j : Sticky) :
    SameWrites b c (x.setStickyIf v j) (y.setStickyIf v j) where
  registers r hr := by rw [get_setStickyIf x v j r hr, get_setStickyIf y v j r hr]; exact h.registers r hr
  lastInv hbc := by rw [lastInv_setStickyIf, lastInv_setStickyIf, h.lastInv hbc]
  sticky k hbc := by rw [sticky_setStickyIf, sticky_setStickyIf, h.sticky k hbc]

theorem setSticky (h : SameWrites b c x y) (j : Sticky) : SameWrites b c (x.setSticky j) (y.setSticky j) :=
  h.setStickyIf true j

/-- CLRST's write of STATUS: every field is 0 after it. -/
theorem clearStatus (h : SameWrites b c x y) : SameWrites b c (x.put .status 0) (y.put .status 0) where
  registers r hr := by rw [get_put_ne x .status r 0 hr, get_put_ne y .status r 0 hr]; exact h.registers r hr
  lastInv _ := by rw [lastInv_put_status, lastInv_put_status]
  sticky k _ := by rw [sticky_put_status, sticky_put_status]

/-! The error outcome and the commits, each a chain of the writes above. -/

theorem raiseError (b c : Block) (k : ErrorKind) : SameWrites b c (Machine.raiseError k b) (Machine.raiseError k c) :=
  ((refl b c).setErr _).setSticky _

theorem fwdCommit (b c : Block) (r : ForwardResult) : SameWrites b c (Machine.fwdCommit b r) (Machine.fwdCommit c r) :=
  (((((refl b c).put _ (by decide)).setLastInv _).setStickyIf _ _).setStickyIf _ _).setErr _

theorem invCommit (b c : Block) (r : InverseResult) : SameWrites b c (Machine.invCommit b r) (Machine.invCommit c r) :=
  (((((refl b c).put _ (by decide)).setLastInv _).setStickyIf _ _).setStickyIf _ _).setErr _

theorem writeHeader (b c : Block) (w0 w1 w2 len : Word) :
    SameWrites b c (Machine.writeHeader b w0 w1 w2 len) (Machine.writeHeader c w0 w1 w2 len) :=
  (((((refl b c).put _ (by decide)).put _ (by decide)).put _ (by decide)).put _ (by decide)).setErr _

theorem acceptHeader (b c : Block) (law pa pb len : Word) :
    SameWrites b c (Machine.acceptHeader b law pa pb len) (Machine.acceptHeader c law pa pb len) :=
  (((((refl b c).put _ (by decide)).put _ (by decide)).put _ (by decide)).put _ (by decide)).setErr _

end SameWrites

/-! The commands, each with the operands of its row. -/

/-- What a command does on two register files that agree on its operands. -/
abbrev SameEffect (b c x y : Block) : Prop := x.err = y.err ∧ SameWrites b c x y

theorem lawTag_congr {b c : Block} (h : b.get .law = c.get .law) : b.lawTag = c.lawTag := by
  rw [Block.lawTag, h, Block.lawTag]

theorem dinHalf_congr {b c : Block} (h : b.get .din = c.get .din) : b.dinHalf = c.dinHalf := by
  rw [Block.dinHalf, h, Block.dinHalf]

theorem selectBlock_sameEffect (b c : Block) (h : AgreeOnOperands .select b c) :
    SameEffect b c (selectBlock b) (selectBlock c) := by
  obtain ⟨hsrc, hmax, hquant⟩ := h
  rcases selectBlock_cases b with ⟨hf, hm, hq, hb⟩ | ⟨hf, hnot, hb⟩ | ⟨hf, hb⟩
  · rw [hb, selectBlock_quantized c (hsrc ▸ hf) (hmax ▸ hm) (hquant ▸ hq)]
    exact ⟨by rw [err_setErr, err_setErr], ((SameWrites.refl b c).put _ (by decide)).setErr _⟩
  · rw [hb, selectBlock_fallback c (hsrc ▸ hf) (by rwa [← hmax, ← hquant])]
    exact ⟨by rw [err_setErr, err_setErr], (((SameWrites.refl b c).put _ (by decide)).setSticky _).setErr _⟩
  · rw [hb, selectBlock_u16 c (hsrc ▸ hf)]
    exact ⟨by rw [err_setErr, err_setErr], ((SameWrites.refl b c).put _ (by decide)).setErr _⟩

theorem deriveBlock_sameEffect (dp : Word → Word → Word × Word) (b c : Block) (h : AgreeOnOperands .derive b c) :
    SameEffect b c (deriveBlock dp b) (deriveBlock dp c) := by
  obtain ⟨hlaw, hmax, hquant⟩ := h
  rw [deriveBlock, deriveBlock, lawTag_congr hlaw, hmax, hquant]
  exact ⟨by rw [err_setErr, err_setErr], (((SameWrites.refl b c).put _ (by decide)).put _ (by decide)).setErr _⟩

theorem fwdBlock_sameEffect (b c : Block) (h : AgreeOnOperands .fwd b c) : SameEffect b c (fwdBlock b) (fwdBlock c) := by
  have hcommit : ∀ r, SameEffect b c (fwdCommit b r) (fwdCommit c r) := fun r =>
    ⟨by rw [err_fwdCommit, err_fwdCommit], SameWrites.fwdCommit b c r⟩
  obtain ⟨hlaw, hsrc, hdin, hmax, hA, hB⟩ := h
  rw [fwdBlock, fwdBlock, lawTag_congr hlaw, hsrc, dinHalf_congr hdin, hdin, hmax, hA, hB]
  split
  · cases c.srcFmt with
    | u16 => exact ⟨by rw [err_raiseError, err_raiseError], SameWrites.raiseError b c _⟩
    | f32 => exact hcommit _
  · cases c.srcFmt with
    | u16 => exact hcommit _
    | f32 => exact hcommit _

theorem invBlock_sameEffect (b c : Block) (h : AgreeOnOperands .inv b c) : SameEffect b c (invBlock b) (invBlock c) := by
  have hcommit : ∀ r, SameEffect b c (invCommit b r) (invCommit c r) := fun r =>
    ⟨by rw [err_invCommit, err_invCommit], SameWrites.invCommit b c r⟩
  obtain ⟨hlaw, hout, hdin, hmax, hA, hB⟩ := h
  rw [invBlock, invBlock, lawTag_congr hlaw, hout, dinHalf_congr hdin, hmax, hA, hB]
  split
  · exact hcommit _
  · cases c.rawOutFmt with
    | u16 => exact hcommit _
    | f32 => exact hcommit _

theorem hencBlock_sameEffect (order : Config.ByteOrder) (b c : Block) (h : AgreeOnOperands .henc b c) :
    SameEffect b c (hencBlock order b) (hencBlock order c) := by
  obtain ⟨hlaw, hA, hB⟩ := h
  refine ⟨by rw [err_hencBlock, err_hencBlock], ?_⟩
  by_cases htag : b.lawTag = 0
  · rw [hencBlock_raw order b htag, hencBlock_raw order c (lawTag_congr hlaw ▸ htag)]
    exact SameWrites.writeHeader b c _ _ _ _
  · rw [hencBlock_quantized order b htag, hencBlock_quantized order c (lawTag_congr hlaw ▸ htag), hA, hB]
    exact SameWrites.writeHeader b c _ _ _ _

/-- The header buffer's bytes are read from its three words. -/
theorem hdrByte_congr {b c : Block} (h0 : b.get .hdrW0 = c.get .hdrW0) (h1 : b.get .hdrW1 = c.get .hdrW1)
    (h2 : b.get .hdrW2 = c.get .hdrW2) : b.hdrByte = c.hdrByte := by
  funext i
  rw [Block.hdrByte, h0, h1, h2, Block.hdrByte]

theorem hdecBlock_sameEffect (order : Config.ByteOrder) (b c : Block) (h : AgreeOnOperands .hdec b c) :
    SameEffect b c (hdecBlock order b) (hdecBlock order c) := by
  obtain ⟨h0, h1, h2, havail⟩ := h
  have haccept : ∀ law pa pb len, SameEffect b c (acceptHeader b law pa pb len) (acceptHeader c law pa pb len) :=
    fun law pa pb len => ⟨by rw [acceptHeader, acceptHeader, err_setErr, err_setErr], SameWrites.acceptHeader b c law pa pb len⟩
  rw [hdecBlock, hdecBlock, hdrByte_congr h0 h1 h2, havail]
  cases headerVerdict (c.get .hdrAvail).toNat (c.hdrByte 0) with
  | error k => exact ⟨by rw [err_raiseError, err_raiseError], SameWrites.raiseError b c k⟩
  | raw => exact haccept _ _ _ _
  | quantized => exact haccept _ _ _ _

theorem commandBlock_sameEffect (i : Instr) (b c : Block) (h : AgreeOnOperands i b c) :
    SameEffect b c (commandBlock i b) (commandBlock i c) := by
  cases i with
  | nop => exact ⟨(err_setErr b _).trans (err_setErr c _).symm, (SameWrites.refl b c).setErr _⟩
  | select => exact selectBlock_sameEffect b c h
  | derive => exact deriveBlock_sameEffect _ b c h
  | fwd => exact fwdBlock_sameEffect b c h
  | inv => exact invBlock_sameEffect b c h
  | henc => exact hencBlock_sameEffect _ b c h
  | hdec => exact hdecBlock_sameEffect _ b c h
  | clrst =>
    exact ⟨(err_clrstBlock b).trans (err_clrstBlock c).symm,
      (SameWrites.refl b c).clearStatus.put (r := .hdrLen) 0 (by decide)⟩

/-- Settles O37: each command makes the same writes, as its operands alone say. -/
theorem commandsDependOnlyOnTheirOperands : Obligations.CommandsDependOnlyOnTheirOperands := by
  intro i s s' t t' hagree ht ht'
  rw [exec_eq_commandBlock] at ht ht'
  cases ht
  cases ht'
  obtain ⟨herr, hsame⟩ := commandBlock_sameEffect i s.block s'.block hagree
  exact ⟨herr, hsame.registers, hsame.lastInv, hsame.sticky⟩

/-- Settles O34: the round trip of R140 on the register effects, whose byte order undoes itself. -/
theorem headerRoundTripUnderEitherByteOrder : Obligations.HeaderRoundTripUnderEitherByteOrder := by
  intro order b c hlaw hbytes havail
  rw [hdecBlock_of_hencBlock_quantized order b c (by rw [hlaw]; decide) hbytes havail]
  obtain ⟨hlawOut, hA, hB, -⟩ := get_acceptHeader c 1 (b.get .paramA) (b.get .paramB) 9
  exact ⟨err_setErr _ _, hlawOut, hA, hB⟩

end Sys2Proof.Machine
end

section
/-! PROOFS. Command words placed on the port (R38, R70), a machine with nothing to do (R195), and systems of several blocks (R66, R193). -/

namespace Sys2Proof.Machine

/-- Settles O5, by decoding the six words. -/
theorem wordsWrittenOutDecode : Obligations.WordsWrittenOutDecode := ⟨rfl, rfl, rfl, rfl, rfl, rfl⟩

/-- Settles O6: the encoder's word decodes to its command, and so do the word's bits as a number. -/
theorem decodeReadsEncodedCommand : Obligations.DecodeReadsEncodedCommand := by
  intro i _
  refine ⟨decode_encode i, ?_⟩
  rw [decodeTableWord, if_pos (encode i).isLt, BitVec.ofNat_toNat, BitVec.setWidth_eq, decode_encode]

/-- Settles O8: the access is taken off the port and the word's command runs; `withFetchWord` puts such an access in front. -/
theorem stepRunsDecodedCommand : Obligations.StepRunsDecodedCommand := by
  refine ⟨fun s w i rest hport hd => ?_, fun s i => ?_⟩
  · rw [step_port s _ rest hport, performAccess_cmd_word, runCommand, hd]
  · rw [step_port _ _ s.host.port rfl, BitVec.ofNat_toNat, BitVec.setWidth_eq]
    exact performAccess_cmd i s

/-- Settles O47: with no access issued, no call begun and none waiting, the host's own step changes nothing. -/
theorem quiescentMachineStays : Obligations.QuiescentMachineStays := by
  rintro s ⟨hport, hphase, hcalls⟩
  rw [step_host s hport, hostAdvance, hphase, hcalls]

/-- A step at a place replaces what stands there, by its own next state, and nothing else. -/
theorem stepAt_next (sys sys' : System) (i : Nat) (s : State) (hs : sys[i]? = some s) (h : sys.stepAt i = .next sys') :
    ∃ t, step s = .next t ∧ sys' = sys.set i t := by
  rw [System.stepAt, hs] at h
  cases hstep : step s with
  | next t =>
    simp only [hstep, Host.Outcome.next.injEq] at h
    exact ⟨t, rfl, h.symm⟩
  | fault f => simp only [hstep, reduceCtorEq] at h
  | refused r => simp only [hstep, reduceCtorEq] at h

/-- Settles O48: an empty place leaves the system as it is; otherwise one place is replaced. -/
theorem instancesDoNotInterfere : Obligations.InstancesDoNotInterfere := by
  intro sys sys' i h
  cases hs : sys[i]? with
  | none =>
    rw [System.stepAt, hs] at h
    cases h
    exact ⟨rfl, fun _ _ => rfl, fun s hsome => nomatch hsome⟩
  | some s =>
    obtain ⟨t, hstep, rfl⟩ := stepAt_next sys sys' i s hs h
    obtain ⟨hi, -⟩ := List.getElem?_eq_some_iff.1 hs
    refine ⟨List.length_set, fun j hj => List.getElem?_set_ne hj.symm, fun u hu => ?_⟩
    cases hu
    exact ⟨t, hstep, List.getElem?_set_self hi⟩

end Sys2Proof.Machine
end

section
/-! PROOFS. SELECT on patterns (R91), and what FWD and INV always give: codes, depths in range, and when a NaN arises (R105 to
R118, R124 for 16-bit samples). -/

namespace Sys2Proof.Machine

/-! SELECT (R91). -/

/-- The values above 0 are the patterns from the smallest subnormal to `+inf`. -/
theorem f32Gt_zero_iff_toNat (u : Word) : f32Gt u 0 = true ↔ 0 < u.toNat ∧ u.toNat ≤ 0x7F800000 := by
  have := u.isLt
  rw [f32Gt_zero_iff, f32Key_pos_iff, Bool.eq_false_iff, ne_eq, f32IsNaN_iff, f32Mag_eq, f32Sign_eq, decide_eq_false_iff_not]
  omega

/-- For a float source SELECT chooses the quantized law exactly when both controls are above 0. -/
theorem law_selectBlock_eq_one_iff (b : Block) (hsrc : b.srcFmt = .f32) :
    (selectBlock b).get .law = 1 ↔ f32Gt (b.get .depthMax) 0 = true ∧ f32Gt (b.get .depthQuant) 0 = true := by
  by_cases h : f32Gt (b.get .depthMax) 0 = true ∧ f32Gt (b.get .depthQuant) 0 = true
  · have hlaw : (selectBlock b).get .law = 1 := by rw [selectBlock_quantized b hsrc h.1 h.2]; simp
    exact iff_of_true hlaw h
  · have hlaw : (selectBlock b).get .law = 0 := by rw [selectBlock_fallback b hsrc h]; simp
    exact iff_of_false (by rw [hlaw]; decide) h

/-- Settles O12: both tests of R91 on the patterns. -/
theorem selectTestsPositivePatterns : Obligations.SelectTestsPositivePatterns := by
  intro s t hsrc hexec
  rw [exec_eq_commandBlock] at hexec
  cases hexec
  rw [withBlock_block, commandBlock, law_selectBlock_eq_one_iff s.block hsrc, f32Gt_zero_iff_toNat, f32Gt_zero_iff_toNat]

/-! FWD. -/

/-- Outside R111's combination FWD commits a result. -/
theorem fwdBlock_eq_fwdCommit (b : Block) (h : ¬(b.lawTag = 1 ∧ b.srcFmt = .u16)) : ∃ r, fwdBlock b = fwdCommit b r := by
  rcases fwdBlock_cases b with ⟨hlaw, hsrc, -⟩ | ⟨-, -, hfwd⟩ | ⟨-, -, hfwd⟩ | ⟨-, -, hfwd⟩
  · exact absurd ⟨hlaw, hsrc⟩ h
  all_goals exact ⟨_, hfwd⟩

/-- The invalid flag of a committed code is the test of DOUT for the sentinel. -/
theorem lastInv_fwdCommit_eq_decide (b : Block) (r : ForwardResult) :
    (fwdCommit b r).lastInv = decide ((fwdCommit b r).get .dout = 0) := by
  rw [lastInv_fwdCommit, Bool.eq_iff_iff, beq_iff_eq, decide_eq_true_eq, BitVec.toNat_eq, BitVec.toNat_eq,
    toNat_get_fwdCommit_dout]
  rfl

/-- Settles O18: FWD commits a result, whose code has 16 bits and whose flags raise S_CLAMPED and S_NAN alone. -/
theorem fwdCompletesWithACode : Obligations.FwdCompletesWithACode := by
  intro s hlegal
  obtain ⟨r, hfwd⟩ := fwdBlock_eq_fwdCommit s.block hlegal
  refine ⟨_, exec_eq_commandBlock .fwd s, rfl, ?_⟩
  rw [withBlock_block, commandBlock, hfwd]
  refine ⟨onlyWrites_fwdCommit s.block r, ?_, lastInv_fwdCommit_eq_decide s.block r, err_fwdCommit s.block r, ?_, ?_⟩
  · rw [toNat_get_fwdCommit_dout]
    exact Nat.le_of_lt_succ r.code.isLt
  · intro k hk
    rw [sticky_fwdCommit, hk, Bool.true_or, Bool.true_or]
  · intro k hclamped hnan
    simp [sticky_fwdCommit, hclamped, hnan]

/-- Settles O19: above 0 the code is a saturated one, in `1..65535`, unless the intermediate is a NaN. -/
theorem validSampleNeverGivesTheSentinel : Obligations.ValidSampleNeverGivesTheSentinel := by
  refine ⟨fun x a b m hpos hnan => ?_, fun x hpos => ?_⟩
  · rw [fwdQuant_positive x a b m hpos] at hnan ⊢
    cases hnumber : f32IsNaN (fsub32 (fdiv32 a (if clampsAbove x m then m else x)) b) with
    | true =>
      rw [forwardCode_nan _ _ hnumber] at hnan
      cases hnan
    | false =>
      rw [forwardCode_number _ _ hnumber]
      exact saturateCode_range _ _
  · rw [fwdRawF32_positive x hpos]
    exact saturateCode_range _ _

theorem f32IsZero_of_pos (x : Word) (h : f32Gt x 0 = true) : f32IsZero x = false := by
  obtain ⟨-, hkey⟩ := (f32Gt_zero_iff x).1 h
  obtain ⟨-, hmag⟩ := (f32Key_pos_iff x).1 hkey
  rw [Bool.eq_false_iff, ne_eq, f32IsZero_iff]
  exact hmag

/-- Settles O20: by a finite value above 0 a quotient is a NaN only with its dividend, and the difference adds B's cases. -/
theorem fwdNanIntermediateArises : Obligations.FwdNanIntermediateArises := by
  intro x a b hfinite hpos
  obtain ⟨hnan, hinf⟩ := f32_of_finite x hfinite
  rw [f32IsNaN_fsub32, f32IsNaN_fdiv32, hnan, hinf, f32IsZero_of_pos x hpos]
  simp only [Bool.false_eq_true, and_false, or_false]

/-! INV. -/

/-- Settles O24: a code is a finite value, so the sum is a NaN only with B. -/
theorem invNanQuotientArises : Obligations.InvNanQuotientArises := by
  intro k a b hk
  obtain ⟨hnan, hinf⟩ := f32_of_finite _ (f32IsFinite_ofNat k (hk.trans (by norm_num)))
  rw [f32IsNaN_fdiv32, f32IsNaN_fadd32, hnan, hinf]
  simp only [Bool.false_eq_true, false_or, false_and, or_false]
  tauto

theorem f32Sign_of_pos (u : Word) (h : f32Gt u 0 = true) : f32Sign u = false := by
  obtain ⟨-, hkey⟩ := (f32Gt_zero_iff u).1 h
  obtain ⟨hsign, -⟩ := (f32Key_pos_iff u).1 hkey
  exact hsign

theorem f32IsNaN_of_pos (u : Word) (h : f32Gt u 0 = true) : f32IsNaN u = false := by
  obtain ⟨hnan, -⟩ := (f32Gt_zero_iff u).1 h
  exact hnan

theorem f32Le_of_not_gt (a b : Word) (ha : f32IsNaN a = false) (hb : f32IsNaN b = false) (h : f32Gt a b = false) :
    f32Le a b = true := by
  rw [Bool.eq_false_iff, ne_eq, f32Gt_iff] at h
  exact (f32Le_iff a b).2 ⟨ha, hb, not_lt.1 fun hlt => h ⟨hb, ha, hlt⟩⟩

/-- A depth of R114: not a NaN, its sign bit 0, and at most a DEPTH_MAX above 0. -/
def DepthInRange (m q : Word) : Prop :=
  f32IsNaN q = false ∧ f32Sign q = false ∧ (f32Gt m 0 = true → f32Le q m = true)

theorem depthInRange_zero (m : Word) : DepthInRange m 0 := by
  refine ⟨by decide, by decide, fun hm => ?_⟩
  obtain ⟨hnan, hkey⟩ := (f32Gt_zero_iff m).1 hm
  exact (f32Le_iff 0 m).2 ⟨by decide, hnan, by rw [f32Key_zero]; exact hkey.le⟩

theorem depthInRange_max (m : Word) (hm : f32Gt m 0 = true) : DepthInRange m m := by
  have hnan := f32IsNaN_of_pos m hm
  exact ⟨hnan, f32Sign_of_pos m hm, fun _ => (f32Le_iff m m).2 ⟨hnan, hnan, le_rfl⟩⟩

theorem depthInRange_unclamped (m q : Word) (hq : f32Gt q 0 = true) (hclamp : clampsAbove q m = false) :
    DepthInRange m q := by
  refine ⟨f32IsNaN_of_pos q hq, f32Sign_of_pos q hq, fun hm => ?_⟩
  rw [clampsAbove, hm, Bool.true_and] at hclamp
  exact f32Le_of_not_gt q m (f32IsNaN_of_pos q hq) (f32IsNaN_of_pos m hm) hclamp

/-- The quotient judged by R114: the invalid output, or a depth in range. -/
theorem inverseFrom_range (q m : Word) :
    ((inverseFrom q m).out = qnan ∧ (inverseFrom q m).invalid = true) ∨
      ((inverseFrom q m).invalid = false ∧ DepthInRange m (inverseFrom q m).out) := by
  cases hnan : f32IsNaN q with
  | true => rw [inverseFrom_nan q m hnan]; exact .inl ⟨rfl, rfl⟩
  | false =>
    rcases f32_trichotomy q hnan with hneg | hzero | hpos
    · rw [inverseFrom_negative q m hneg]; exact .inr ⟨rfl, depthInRange_zero m⟩
    · rw [inverseFrom_zero q m hzero]; exact .inr ⟨rfl, depthInRange_zero m⟩
    · rw [inverseFrom_positive q m hpos]
      cases hclamp : clampsAbove q m with
      | true => exact .inr ⟨rfl, depthInRange_max m (clampsAbove_pos q m hclamp).1⟩
      | false => exact .inr ⟨rfl, depthInRange_unclamped m q hpos hclamp⟩

theorem invQuant_range (k : Half) (a b m : Word) :
    ((invQuant k a b m).out = qnan ∧ (invQuant k a b m).invalid = true) ∨
      ((invQuant k a b m).invalid = false ∧ DepthInRange m (invQuant k a b m).out) := by
  by_cases hk : k = 0
  · rw [hk, invQuant_zero]; exact .inl ⟨rfl, rfl⟩
  · rw [invQuant_ne_zero k a b m hk]; exact inverseFrom_range _ m

/-- Settles O25: DOUT and LAST_INV are the output and the flag of `invQuant`. -/
theorem invDepthStaysInRange : Obligations.InvDepthStaysInRange := by
  intro s hlaw
  refine ⟨_, exec_inv_quantized s hlaw, ?_⟩
  rw [withBlock_block, get_invCommit_dout, lastInv_invCommit]
  exact invQuant_range _ _ _ _

/-! The round trip of a 16-bit sample (R124). -/

theorem lawTag_fwdCommit (b : Block) (r : ForwardResult) : (fwdCommit b r).lawTag = b.lawTag :=
  lawTag_congr (get_fwdCommit_ne b r .law (by decide) (by decide))

theorem rawOutFmt_fwdCommit (b : Block) (r : ForwardResult) : (fwdCommit b r).rawOutFmt = b.rawOutFmt := by
  rw [Block.rawOutFmt, get_fwdCommit_ne b r .ctrl (by decide) (by decide), Block.rawOutFmt]

/-- A 16-bit value stored in a word is its low half. -/
theorem extractLsb'_setWidth_half (x : Half) : (x.setWidth 32).extractLsb' 0 16 = x :=
  (BitVec.extractLsb'_setWidth_of_le (by norm_num)).trans BitVec.extractLsb'_eq_self

@[simp] theorem dinHalf_put_din (b : Block) (x : Half) : (b.put .din (x.setWidth 32)).dinHalf = x := by
  rw [Block.dinHalf, get_put_din, extractLsb'_setWidth_half]

@[simp] theorem withDin_block (s : State) (v : Word) : (s.withDin v).block = s.block.put .din v := rfl

/-- Settles O29: FWD hands the sample on as its code, and INV hands the code on. -/
theorem u16SampleRoundTripIsExact : Obligations.U16SampleRoundTripIsExact := by
  intro s x hlaw hsrc hout hdin
  have hhalf : s.block.dinHalf = x := by rw [Block.dinHalf, hdin, extractLsb'_setWidth_half]
  refine ⟨_, _, exec_fwd_rawU16 s hlaw hsrc, exec_inv_rawU16 _ ?_ ?_, ?_⟩
  · rwa [withDin_block, withBlock_block, lawTag_put_ne _ _ _ (by decide), lawTag_fwdCommit]
  · rwa [withDin_block, withBlock_block, rawOutFmt_put_ne _ _ _ (by decide), rawOutFmt_fwdCommit]
  · rw [withBlock_block, withDin_block, withBlock_block, get_fwdCommit_dout, get_invCommit_dout, dinHalf_put_din, hhalf]
    rfl

end Sys2Proof.Machine
end

section
/-! PROOFS. The hypotheses on `derive_params` (R101), and the two laws in exact arithmetic (R102). -/

namespace Sys2Proof.Machine

/-- A sample in `[Q, M]` with `Q` above 0 is above 0 and is not clamped. -/
theorem sample_in_range (q x m : Word) (hq : f32Gt q 0 = true) (hlow : f32Le q x = true) (hhigh : f32Le x m = true) :
    f32Gt x 0 = true ∧ clampsAbove x m = false := by
  obtain ⟨-, hkeyq⟩ := (f32Gt_zero_iff q).1 hq
  obtain ⟨-, hnan, hqx⟩ := (f32Le_iff q x).1 hlow
  obtain ⟨-, -, hxm⟩ := (f32Le_iff x m).1 hhigh
  refine ⟨(f32Gt_zero_iff x).2 ⟨hnan, by omega⟩, ?_⟩
  rw [Bool.eq_false_iff]
  intro hclamp
  obtain ⟨-, habove, -⟩ := clampsAbove_pos x m hclamp
  obtain ⟨-, -, hmx⟩ := (f32Gt_iff x m).1 habove
  omega

theorem clampInt_int_of_mem (c lo hi : Int) (h1 : lo ≤ c) (h2 : c ≤ hi) : clampInt (.int c) lo hi = c := by
  simp only [clampInt, if_neg (not_lt.2 h1), if_neg (not_lt.2 h2)]

/-- Settles O53: the sample goes through the law as it is, and H_range keeps the rounded value inside the codes. -/
theorem hRangeKeepsCodesUnsaturated : Obligations.HRangeKeepsCodesUnsaturated := by
  intro dp s hlaw hsrc hquant hrange hparams hlow hhigh
  obtain ⟨hpos, hclamp⟩ := sample_in_range _ _ _ hquant hlow hhigh
  obtain ⟨hnan, c, hround, h1, h2⟩ := hrange _ hlow hhigh
  rw [unroundedCode, ← hparams] at hnan hround
  have hpath : fwdQuant (s.block.get .din) (s.block.get .paramA) (s.block.get .paramB) (s.block.get .depthMax) =
      saturateCode (.int c) false := by
    rw [fwdQuant_positive _ _ _ _ hpos, hclamp, if_neg Bool.false_ne_true, forwardCode_number _ _ hnan, hround]
  obtain ⟨hcode, hstatus⟩ := fwdCommit_saturated s.block (.int c) false
  rw [clampInt_int_of_mem c 1 65535 h1 h2] at hcode
  rw [hcode, if_pos ⟨rfl, rfl⟩] at hstatus
  refine ⟨_, exec_fwd_quantized s hlaw hsrc, ?_⟩
  rw [withBlock_block, hpath, hcode]
  exact ⟨hstatus, hround⟩

/-- No depth lies between 100.0 and 10.0. -/
theorem defaults_empty (d : Word) (h1 : f32Le 0x42C80000 d = true) (h2 : f32Le d 0x41200000 = true) : False := by
  obtain ⟨-, -, hqd⟩ := (f32Le_iff _ d).1 h1
  obtain ⟨-, -, hdm⟩ := (f32Le_iff d _).1 h2
  exact absurd (hqd.trans hdm) (by decide)

theorem f32Le_of_f32Lt (a b : Word) (h : f32Lt a b = true) : f32Le a b = true := by
  obtain ⟨ha, hb, hlt⟩ := (f32Lt_iff a b).1 h
  exact (f32Le_iff a b).2 ⟨ha, hb, hlt.le⟩

/-- Settles O54: each hypothesis speaks of depths in `[Q, M]`, or is asked only when `Q <= M`. -/
theorem defaultsMakeRangeHypothesesVacuous : Obligations.DefaultsMakeRangeHypothesesVacuous := by
  intro dp
  refine ⟨fun d h1 h2 => (defaults_empty d h1 h2).elim, fun hle => absurd hle (by decide), fun stepBound hmono => ⟨hmono, ?_⟩⟩
  exact fun d h1 h2 => (defaults_empty d (f32Le_of_f32Lt _ _ h1) (f32Le_of_f32Lt _ _ h2)).elim

/-- Settles O55: with `k = a/d - b`, the sum `k + b` is `a/d`, which is not 0, and `a` divided by it is `d`. -/
theorem exactLawsAreInverse : Obligations.ExactLawsAreInverse := by
  intro a b d k hd hkb hk
  have hsum : k + b = a / d := by rw [hk, exactCode, sub_add_cancel]
  rw [hsum] at hkb
  rw [exactDepth, hsum]
  exact div_div_cancel₀ (div_ne_zero_iff.1 hkb).1

end Sys2Proof.Machine
end

section
/-! PROOFS. Binary32 (R11): the comparisons are the order of the exact values, and the operations are the exact results rounded
once; the exact conversion; the literals of the host assembler (R76). -/

namespace Sys2Proof.Machine

/-! The order of the patterns is the order of the values. -/

/-- A function of magnitudes on signed numbers: `f` of the absolute value, with the sign. -/
def oddExt (f : Nat → Nat) (k : Int) : Int := if 0 ≤ k then (f k.toNat : Int) else -(f (-k).toNat : Int)

theorem oddExt_signed (f : Nat → Nat) (hf : f 0 = 0) (s : Bool) (n : Nat) :
    oddExt f (if s then -(n : Int) else n) = if s then -(f n : Int) else f n := by
  cases s with
  | false => simp [oddExt]
  | true =>
    simp only [oddExt, if_true, Int.neg_nonneg, neg_neg, Int.toNat_natCast]
    by_cases hn : n = 0
    · simp [hn, hf]
    · rw [if_neg (by omega)]

theorem oddExt_mono {f : Nat → Nat} (hf : Monotone f) : Monotone (oddExt f) := by
  intro j k hjk
  unfold oddExt
  by_cases hj : 0 ≤ j
  · rw [if_pos hj, if_pos (hj.trans hjk)]
    exact Int.ofNat_le.2 (hf (by omega))
  · rw [if_neg hj]
    by_cases hk : 0 ≤ k
    · rw [if_pos hk]; omega
    · have hmag : f (-k).toNat ≤ f (-j).toNat := hf (by omega)
      rw [if_neg hk]; omega

theorem oddExt_strictMono {f : Nat → Nat} (hf : StrictMono f) : StrictMono (oddExt f) := by
  intro j k hjk
  unfold oddExt
  by_cases hj : 0 ≤ j
  · rw [if_pos hj, if_pos (hj.trans hjk.le)]
    exact Int.ofNat_lt.2 (hf (by omega))
  · have hneg : f 0 < f (-j).toNat := hf (by omega)
    rw [if_neg hj]
    by_cases hk : 0 ≤ k
    · rw [if_pos hk]; omega
    · have hmag : f (-k).toNat < f (-j).toNat := hf (by omega)
      rw [if_neg hk]; omega

/-- The value of a signed magnitude pattern, in units. -/
def signedUnits (k : Int) : Int := oddExt magUnits k

theorem signedUnits_strictMono : StrictMono signedUnits := oddExt_strictMono magUnits_strictMono

/-- The value of a pattern is that of its key. -/
theorem f32SUnits_eq_signedUnits (u : Word) : f32SUnits u = signedUnits (f32Key u) := by
  rw [f32SUnits, f32Key, f32Units_eq, signedUnits, oddExt_signed _ magUnits_zero]

theorem f32Rat_eq_signedUnits (u : Word) : f32Rat u = (signedUnits (f32Key u) : ℚ) / 2 ^ 149 := by
  rw [f32Rat, f32SUnits_eq_signedUnits]

theorem f32Rat_lt_iff (a b : Word) : f32Rat a < f32Rat b ↔ f32Key a < f32Key b := by
  rw [f32Rat_eq_signedUnits, f32Rat_eq_signedUnits, div_lt_div_iff_of_pos_right (by positivity), Int.cast_lt,
    signedUnits_strictMono.lt_iff_lt]

theorem f32Rat_le_iff (a b : Word) : f32Rat a ≤ f32Rat b ↔ f32Key a ≤ f32Key b := by
  rw [← not_lt, f32Rat_lt_iff, not_lt]

theorem f32Rat_eq_iff (a b : Word) : f32Rat a = f32Rat b ↔ f32Key a = f32Key b := by
  rw [le_antisymm_iff, le_antisymm_iff, f32Rat_le_iff, f32Rat_le_iff]

/-- On finite values the comparisons are the order of the exact values. -/
theorem comparisons_finite (a b : Word) (ha : f32IsFinite a = true) (hb : f32IsFinite b = true) :
    (f32Lt a b = true ↔ f32Rat a < f32Rat b) ∧ (f32Gt a b = true ↔ f32Rat b < f32Rat a) ∧
      (f32Le a b = true ↔ f32Rat a ≤ f32Rat b) ∧ (f32Eq a b = true ↔ f32Rat a = f32Rat b) := by
  obtain ⟨hna, -⟩ := f32_of_finite a ha
  obtain ⟨hnb, -⟩ := f32_of_finite b hb
  rw [f32Lt_iff, f32Gt_iff, f32Le_iff, f32Eq_iff, f32Rat_lt_iff, f32Rat_lt_iff, f32Rat_le_iff, f32Rat_eq_iff]
  simp only [hna, hnb, true_and, and_self]

/-! The infinities are the ends of the order. -/

/-- Equal keys that are not 0 are equal patterns: the two zeros alone share a key. -/
theorem eq_of_f32Key_eq_of_ne_zero (a b : Word) (hb : f32Key b ≠ 0) (h : f32Key a = f32Key b) : a = b := by
  rw [← f32WithSign_mag a, ← f32WithSign_mag b]
  unfold f32Key at h hb
  cases hsa : f32Sign a <;> cases hsb : f32Sign b <;> simp only [hsa, hsb, Bool.false_eq_true, if_true, if_false] at h hb
  · rw [show f32Mag a = f32Mag b by omega]
  · omega
  · omega
  · rw [show f32Mag a = f32Mag b by omega]

theorem f32Key_eq_iff (a b : Word) (hb : f32Key b ≠ 0) : f32Key a = f32Key b ↔ a = b :=
  ⟨eq_of_f32Key_eq_of_ne_zero a b hb, fun h => h ▸ rfl⟩

/-- Between the infinities lie all values that are no NaN. -/
theorem f32Key_bounds (a : Word) (h : f32IsNaN a = false) : f32Key 0xFF800000 ≤ f32Key a ∧ f32Key a ≤ f32Key 0x7F800000 := by
  rw [Bool.eq_false_iff, ne_eq, f32IsNaN_iff] at h
  rw [show f32Key 0xFF800000 = -0x7F800000 by decide, show f32Key 0x7F800000 = 0x7F800000 by decide, f32Key]
  cases f32Sign a <;> simp only [Bool.false_eq_true, if_true, if_false] <;> omega

theorem comparisons_posInf (a : Word) (h : f32IsNaN a = false) :
    f32Lt a 0x7F800000 = decide (a ≠ 0x7F800000) ∧ f32Gt 0x7F800000 a = decide (a ≠ 0x7F800000) ∧
      f32Lt 0x7F800000 a = false ∧ f32Gt a 0x7F800000 = false ∧
      f32Le a 0x7F800000 = true ∧ f32Le 0x7F800000 a = decide (a = 0x7F800000) ∧
      f32Eq a 0x7F800000 = decide (a = 0x7F800000) ∧ f32Eq 0x7F800000 a = decide (a = 0x7F800000) := by
  have hnan : f32IsNaN 0x7F800000 = false := by decide
  obtain ⟨-, hle⟩ := f32Key_bounds a h
  simp only [← f32Key_eq_iff a 0x7F800000 (by decide), ne_eq, f32Gt, f32Lt, f32Le, f32Eq, h, hnan, Bool.not_false,
    Bool.true_and, true_and, decide_eq_decide, decide_eq_true_eq, decide_eq_false_iff_not]
  generalize f32Key 0x7F800000 = K at *
  refine ⟨?_, ?_, ?_, ?_, ?_, ?_, ?_⟩ <;> omega

theorem comparisons_negInf (a : Word) (h : f32IsNaN a = false) :
    f32Lt 0xFF800000 a = decide (a ≠ 0xFF800000) ∧ f32Gt a 0xFF800000 = decide (a ≠ 0xFF800000) ∧
      f32Lt a 0xFF800000 = false ∧ f32Gt 0xFF800000 a = false ∧
      f32Le 0xFF800000 a = true ∧ f32Le a 0xFF800000 = decide (a = 0xFF800000) ∧
      f32Eq a 0xFF800000 = decide (a = 0xFF800000) ∧ f32Eq 0xFF800000 a = decide (a = 0xFF800000) := by
  have hnan : f32IsNaN 0xFF800000 = false := by decide
  obtain ⟨hge, -⟩ := f32Key_bounds a h
  simp only [← f32Key_eq_iff a 0xFF800000 (by decide), ne_eq, f32Gt, f32Lt, f32Le, f32Eq, h, hnan, Bool.not_false,
    Bool.true_and, true_and, decide_eq_decide, decide_eq_true_eq, decide_eq_false_iff_not]
  generalize f32Key 0xFF800000 = K at *
  refine ⟨?_, ?_, ?_, ?_, ?_, ?_, ?_⟩ <;> omega

theorem comparisons_nan (a b : Word) (h : f32IsNaN a = true ∨ f32IsNaN b = true) :
    f32Lt a b = false ∧ f32Gt a b = false ∧ f32Le a b = false ∧ f32Eq a b = false := by
  rcases h with h | h
  · simp [f32Gt, f32Lt, f32Le, f32Eq, h]
  · simp [f32Gt, f32Lt, f32Le, f32Eq, h]

/-- Settles O57: the keys order the patterns as the values, with the infinities at the ends. -/
theorem comparisonsFollowTheValues : Obligations.ComparisonsFollowTheValues :=
  ⟨comparisons_finite, comparisons_posInf, comparisons_negInf, comparisons_nan⟩

/-! The conversion. -/

theorem f32Rat_ofNat (n : Nat) (hn : n ≤ 2 ^ 24) : f32Rat (f32OfNat n) = n := by
  rw [f32Rat_eq, f32Sign_ofNat, ← f32Units_eq, f32Units_ofNat n hn, if_neg Bool.false_ne_true, one_mul, Nat.cast_mul, Nat.cast_pow,
    Nat.cast_ofNat]
  exact mul_div_cancel_right₀ _ (by positivity)

/-- Settles O58: an integer up to 2^24 is representable. -/
theorem conversionIsExact : Obligations.ConversionIsExact := fun n hn =>
  ⟨f32IsFinite_ofNat n (hn.trans (by norm_num)), f32Rat_ofNat n (hn.trans (by norm_num))⟩

/-! The rounded results. -/

theorem roundMag_zero (d : Nat) (hd : 0 < d) : roundMag 0 d = 0 := by
  have h := roundMag_exact 0 d hd (by norm_num)
  rwa [magUnits_zero, Nat.zero_mul] at h

/-- `roundPack_isRounded` for every sign: a zero is rounded to the zero of the sign asked for. -/
theorem roundPack_isRounded_of_eq (s : Bool) (n d : Nat) (hd : 0 < d) (x : ℚ)
    (hx : x = (if s then -1 else 1) * ((n : ℚ) / d / 2 ^ 149)) : IsRoundedToEven x (roundPack s n d) := by
  rw [hx]
  rcases Nat.eq_zero_or_pos n with rfl | hn
  · rw [Nat.cast_zero, zero_div, zero_div, mul_zero]
    exact isRoundedToEven_zero _ (by rw [f32Mag_roundPack, roundMag_zero d hd])
  · exact roundPack_isRounded s n d hd fun _ => hn.ne'

/-- Settles O60: the literal is the decimal in units of 2^-149, rounded once, with the sign as written. -/
theorem literalIsNearestValue : Obligations.LiteralIsNearestValue := by
  intro r x
  refine ⟨bitsOfLiteral x, rfl, roundPack_isRounded_of_eq _ _ _ (by positivity) _ ?_, f32Sign_roundPack _ _ _⟩
  rw [Decimal.value]
  push_cast
  ring

theorem fadd32_isRounded (a b : Word) (ha : f32IsFinite a = true) (hb : f32IsFinite b = true) :
    IsRoundedToEven (f32Rat a + f32Rat b) (fadd32 a b) := by
  have hsum : f32Rat a + f32Rat b = ((f32SUnits a + f32SUnits b : Int) : ℚ) / 2 ^ 149 := by
    rw [f32Rat, f32Rat, ← add_div, Int.cast_add]
  rw [hsum, fadd32_finite a b ha hb]
  generalize f32SUnits a + f32SUnits b = total
  by_cases hzero : total = 0
  · rw [if_pos hzero, hzero, Int.cast_zero, zero_div]
    refine isRoundedToEven_zero _ ?_
    split <;> decide
  · rw [if_neg hzero]
    refine roundPack_isRounded_of_eq _ _ _ one_pos _ ?_
    rw [Nat.cast_one, div_one, Nat.cast_natAbs, Int.cast_abs]
    by_cases hneg : total < 0
    · rw [abs_of_neg (Int.cast_lt_zero.2 hneg), if_pos (decide_eq_true hneg)]
      ring
    · rw [abs_of_nonneg (Int.cast_nonneg (not_lt.1 hneg)), decide_eq_false hneg, if_neg Bool.false_ne_true, one_mul]

theorem f32Rat_neg (u : Word) : f32Rat (f32Neg u) = -f32Rat u := by
  rw [f32Rat, f32Rat, f32SUnits_neg, Int.cast_neg, neg_div]

theorem fsub32_isRounded (a b : Word) (ha : f32IsFinite a = true) (hb : f32IsFinite b = true) :
    IsRoundedToEven (f32Rat a - f32Rat b) (fsub32 a b) := by
  rw [sub_eq_add_neg, ← f32Rat_neg]
  exact fadd32_isRounded a (f32Neg b) ha (by rwa [f32IsFinite_neg])

/-- The sign of a product or a quotient. -/
theorem sign_mul_sign (s s' : Bool) :
    (if s then (-1 : ℚ) else 1) * (if s' then -1 else 1) = if (s != s') then -1 else 1 := by
  cases s <;> cases s' <;> norm_num

theorem f32Rat_eq_units (u : Word) : f32Rat u = (if f32Sign u then -1 else 1) * ((f32Units u : ℚ) / 2 ^ 149) := by
  rw [f32Rat_eq, f32Units_eq]

theorem fmul32_isRounded (a b : Word) (ha : f32IsFinite a = true) (hb : f32IsFinite b = true) :
    IsRoundedToEven (f32Rat a * f32Rat b) (fmul32 a b) := by
  rw [fmul32_finite a b ha hb]
  refine roundPack_isRounded_of_eq _ _ _ (by positivity) _ ?_
  rw [f32Rat_eq_units, f32Rat_eq_units, mul_mul_mul_comm, sign_mul_sign]
  push_cast
  ring

theorem f32Units_pos (u : Word) (h : f32IsZero u = false) : 0 < f32Units u := by
  rw [Bool.eq_false_iff, ne_eq, f32IsZero_iff] at h
  rw [f32Units_eq, ← magUnits_zero]
  exact magUnits_strictMono (Nat.pos_of_ne_zero h)

theorem fdiv32_isRounded (a b : Word) (ha : f32IsFinite a = true) (hb : f32IsFinite b = true) (h0 : f32IsZero b = false) :
    IsRoundedToEven (f32Rat a / f32Rat b) (fdiv32 a b) := by
  have hpos : (0 : ℚ) < f32Units b := Nat.cast_pos.2 (f32Units_pos b h0)
  have hsign : ((if f32Sign b then (-1 : ℚ) else 1))⁻¹ = if f32Sign b then -1 else 1 := by cases f32Sign b <;> norm_num
  rw [fdiv32_finite a b ha hb h0]
  refine roundPack_isRounded_of_eq _ _ _ (f32Units_pos b h0) _ ?_
  rw [f32Rat_eq_units, f32Rat_eq_units, mul_div_mul_comm, div_eq_mul_inv (ite _ _ _), hsign, sign_mul_sign]
  push_cast
  ring

/-! Division by zero, and the operations on infinities. -/

theorem fdiv32_by_zero (a b : Word) (ha : f32IsFinite a = true) (h0 : f32IsZero a = false) (hb : f32IsZero b = true) :
    fdiv32 a b = f32WithSign (f32Sign a != f32Sign b) 0x7F800000 := by
  obtain ⟨hna, hia⟩ := f32_of_finite a ha
  obtain ⟨hib, hnb⟩ := f32IsZero_not_inf b hb
  simp only [fdiv32, hna, hia, h0, hnb, hib, hb, Bool.or_self, Bool.false_eq_true, if_false, if_true]

section
variable (a b : Word) (ha : f32IsInf a = true)
include ha

theorem fadd32_inf_left (hb : f32IsFinite b = true) : fadd32 a b = a := by
  obtain ⟨hna, -, -⟩ := f32_of_inf a ha
  obtain ⟨hnb, hib⟩ := f32_of_finite b hb
  simp only [fadd32, hna, ha, hnb, hib, Bool.or_self, Bool.false_and, Bool.false_eq_true, if_false, if_true]

theorem fadd32_inf_right (hb : f32IsFinite b = true) : fadd32 b a = a := by
  obtain ⟨hna, -, -⟩ := f32_of_inf a ha
  obtain ⟨hnb, hib⟩ := f32_of_finite b hb
  simp only [fadd32, hna, ha, hnb, hib, Bool.or_self, Bool.false_eq_true, if_false, if_true]

theorem fadd32_inf_inf (hb : f32IsInf b = true) (hs : f32Sign a = f32Sign b) : fadd32 a b = a := by
  obtain ⟨hna, -, -⟩ := f32_of_inf a ha
  obtain ⟨hnb, -, -⟩ := f32_of_inf b hb
  simp only [fadd32, hna, ha, hnb, hb, hs, bne_self_eq_false, Bool.or_self, Bool.and_false, Bool.false_eq_true, if_false, if_true]

theorem fmul32_inf_left (hb : f32IsNaN b = false) (h0 : f32IsZero b = false) :
    fmul32 a b = f32WithSign (f32Sign a != f32Sign b) 0x7F800000 := by
  obtain ⟨hna, -, hza⟩ := f32_of_inf a ha
  simp only [fmul32, hna, ha, hza, hb, h0, Bool.or_self, Bool.true_or, Bool.false_eq_true, if_false, if_true]

theorem fmul32_inf_right (hb : f32IsNaN b = false) (h0 : f32IsZero b = false) :
    fmul32 b a = f32WithSign (f32Sign b != f32Sign a) 0x7F800000 := by
  obtain ⟨hna, -, hza⟩ := f32_of_inf a ha
  simp only [fmul32, hna, ha, hza, hb, h0, Bool.or_self, Bool.or_true, Bool.false_eq_true, if_false, if_true]

theorem fdiv32_inf_left (hb : f32IsFinite b = true) : fdiv32 a b = f32WithSign (f32Sign a != f32Sign b) 0x7F800000 := by
  obtain ⟨hna, -, -⟩ := f32_of_inf a ha
  obtain ⟨hnb, hib⟩ := f32_of_finite b hb
  simp only [fdiv32, hna, ha, hnb, hib, Bool.or_self, Bool.false_eq_true, if_false, if_true]

theorem fdiv32_inf_right (hb : f32IsFinite b = true) : fdiv32 b a = f32WithSign (f32Sign b != f32Sign a) 0 := by
  obtain ⟨hna, -, -⟩ := f32_of_inf a ha
  obtain ⟨hnb, hib⟩ := f32_of_finite b hb
  simp only [fdiv32, hna, ha, hnb, hib, Bool.or_self, Bool.false_eq_true, if_false, if_true]

end

/-- A finite value with an infinity, on either side of each operation. -/
theorem operations_inf_finite (a b : Word) (ha : f32IsInf a = true) (hb : f32IsFinite b = true) :
    fadd32 a b = a ∧ fadd32 b a = a ∧ fsub32 a b = a ∧ fsub32 b a = f32Neg a ∧
      (f32IsZero b = false → ∀ r ∈ [fmul32 a b, fmul32 b a], f32IsInf r = true ∧ f32Sign r = xor (f32Sign a) (f32Sign b)) ∧
      (f32IsInf (fdiv32 a b) = true ∧ f32Sign (fdiv32 a b) = xor (f32Sign a) (f32Sign b)) ∧
      (f32IsZero (fdiv32 b a) = true ∧ f32Sign (fdiv32 b a) = xor (f32Sign a) (f32Sign b)) := by
  obtain ⟨hnb, -⟩ := f32_of_finite b hb
  have hswap : (f32Sign b != f32Sign a) = (f32Sign a != f32Sign b) := bne_comm
  refine ⟨fadd32_inf_left a b ha hb, fadd32_inf_right a b ha hb, ?_, ?_, fun h0 r hr => ?_, ?_, ?_⟩
  · exact fadd32_inf_left a _ ha (by rwa [f32IsFinite_neg])
  · exact fadd32_inf_right _ b (by rwa [f32IsInf_neg]) hb
  · obtain rfl : r = f32WithSign (f32Sign a != f32Sign b) 0x7F800000 := by
      rw [fmul32_inf_left a b ha hnb h0, fmul32_inf_right a b ha hnb h0, hswap] at hr
      simpa using hr
    exact f32WithSign_inf _
  · rw [fdiv32_inf_left a b ha hb]
    exact f32WithSign_inf _
  · rw [fdiv32_inf_right a b ha hb, hswap]
    exact f32WithSign_zero _

/-- Two infinities, where the result is no NaN. -/
theorem operations_inf_inf (a b : Word) (ha : f32IsInf a = true) (hb : f32IsInf b = true) :
    (f32Sign a = f32Sign b → fadd32 a b = a) ∧ (f32Sign a ≠ f32Sign b → fsub32 a b = a) ∧
      f32IsInf (fmul32 a b) = true ∧ f32Sign (fmul32 a b) = xor (f32Sign a) (f32Sign b) := by
  obtain ⟨hnb, -, hzb⟩ := f32_of_inf b hb
  refine ⟨fadd32_inf_inf a b ha hb, fun hs => fadd32_inf_inf a _ ha (by rwa [f32IsInf_neg]) ?_, ?_⟩
  · rw [f32Sign_neg]
    exact Bool.eq_not_of_ne hs
  · rw [fmul32_inf_left a b ha hnb hzb]
    exact f32WithSign_inf _

/-- Settles O56: the finite results by the one rounding, then division by zero, the infinities, and the NaN conditions. -/
theorem arithmeticRoundsToNearestEven : Obligations.ArithmeticRoundsToNearestEven := by
  refine ⟨fun a b ha hb => ⟨fadd32_isRounded a b ha hb, fsub32_isRounded a b ha hb, fmul32_isRounded a b ha hb,
    fdiv32_isRounded a b ha hb⟩, fun a b ha h0 hb => ?_, operations_inf_finite, operations_inf_inf,
    fun a b => ⟨f32IsNaN_fadd32 a b, f32IsNaN_fsub32 a b, f32IsNaN_fmul32 a b, f32IsNaN_fdiv32 a b⟩⟩
  rw [fdiv32_by_zero a b ha h0 hb]
  exact f32WithSign_inf _

end Sys2Proof.Machine
end

section
/-! PROOFS. The codes of the inverse-depth law fall with depth (R106, R101): each operation of the path keeps or turns the order of
the keys. -/

namespace Sys2Proof.Machine

/-! The operations and the order. -/

theorem f32Key_of_pos (u : Word) (h : f32Gt u 0 = true) : f32Key u = f32Mag u := by
  rw [f32Key, f32Sign_of_pos u h, if_neg Bool.false_ne_true]

theorem f32Gt_zero_of_le (u v : Word) (hu : f32Gt u 0 = true) (h : f32Le u v = true) : f32Gt v 0 = true := by
  obtain ⟨-, hkey⟩ := (f32Gt_zero_iff u).1 hu
  obtain ⟨-, hnan, hle⟩ := (f32Le_iff u v).1 h
  exact (f32Gt_zero_iff v).2 ⟨hnan, hkey.trans_le hle⟩

/-- A value that is no NaN is finite or one of the infinities. -/
theorem f32_finite_or_inf (u : Word) (h : f32IsNaN u = false) :
    f32IsFinite u = true ∨ u = 0x7F800000 ∨ u = 0xFF800000 := by
  rcases f32_kinds u with ⟨hnan, -⟩ | ⟨-, hinf, -⟩ | ⟨-, -, hfin⟩
  · rw [h] at hnan
    cases hnan
  · rw [f32IsInf_iff] at hinf
    refine .inr ?_
    rw [← f32WithSign_mag u, hinf]
    cases f32Sign u <;> decide
  · exact .inl hfin

theorem f32Key_strict_bounds (u : Word) (h : f32IsFinite u = true) :
    f32Key 0xFF800000 < f32Key u ∧ f32Key u < f32Key 0x7F800000 := by
  rw [f32IsFinite_iff] at h
  rw [show f32Key 0xFF800000 = -0x7F800000 by decide, show f32Key 0x7F800000 = 0x7F800000 by decide, f32Key]
  cases f32Sign u <;> simp only [Bool.false_eq_true, if_true, if_false] <;> omega

/-- A monotone function of the keys of values that are no NaN need only be compared on finite values and at the two ends: from
`u <= v` either both are finite, or they are equal, or `u` is `-inf`, or `v` is `+inf`. -/
theorem f32Key_le_cases (u v : Word) (hu : f32IsNaN u = false) (hv : f32IsNaN v = false) (h : f32Key u ≤ f32Key v) :
    (f32IsFinite u = true ∧ f32IsFinite v = true) ∨ u = v ∨ u = 0xFF800000 ∨ v = 0x7F800000 := by
  rcases f32_finite_or_inf u hu with hfu | rfl | rfl
  · rcases f32_finite_or_inf v hv with hfv | rfl | rfl
    · exact .inl ⟨hfu, hfv⟩
    · exact .inr (.inr (.inr rfl))
    · exact absurd h (not_le.2 (f32Key_strict_bounds u hfu).1)
  · have hle := (f32Key_bounds v hv).2
    exact .inr (.inl (eq_of_f32Key_eq_of_ne_zero v _ (by decide) (le_antisymm hle h)).symm)
  · exact .inr (.inr (.inl rfl))

theorem f32SUnits_le_of_key (u v : Word) (h : f32Key u ≤ f32Key v) : f32SUnits u ≤ f32SUnits v := by
  rw [f32SUnits_eq_signedUnits, f32SUnits_eq_signedUnits]
  exact signedUnits_strictMono.monotone h

/-- A sum of finite values in the order of the patterns: the exact sum, rounded. -/
theorem f32Key_fadd32_finite (a b : Word) (ha : f32IsFinite a = true) (hb : f32IsFinite b = true) :
    f32Key (fadd32 a b) = oddExt (fun n => roundMag n 1) (f32SUnits a + f32SUnits b) := by
  rw [fadd32_finite a b ha hb]
  generalize f32SUnits a + f32SUnits b = total
  by_cases hzero : total = 0
  · rw [if_pos hzero, hzero, oddExt, if_pos le_rfl, Int.toNat_zero, roundMag_zero 1 one_pos]
    split <;> decide
  · rw [if_neg hzero, f32Key, f32Sign_roundPack, f32Mag_roundPack, oddExt]
    by_cases hneg : total < 0
    · rw [if_pos (decide_eq_true hneg), if_neg (not_le.2 hneg), show total.natAbs = (-total).toNat by omega]
    · rw [decide_eq_false hneg, if_neg Bool.false_ne_true, if_pos (not_lt.1 hneg), show total.natAbs = total.toNat by omega]

theorem roundMag_one_mono : Monotone fun n => roundMag n 1 := fun n m h =>
  roundMag_mono n 1 m 1 one_pos one_pos (Nat.mul_le_mul_right 1 h)

/-- Adding a finite value keeps the order. -/
theorem f32Key_fadd32_mono (q q' b : Word) (hq : f32IsNaN q = false) (hq' : f32IsNaN q' = false)
    (hb : f32IsFinite b = true) (h : f32Key q ≤ f32Key q') : f32Key (fadd32 q b) ≤ f32Key (fadd32 q' b) := by
  obtain ⟨hnb, hib⟩ := f32_of_finite b hb
  have hnan : ∀ u, f32IsNaN u = false → f32IsNaN (fadd32 u b) = false := fun u hu => by
    rw [Bool.eq_false_iff, ne_eq, f32IsNaN_fadd32, hu, hnb, hib]
    simp
  rcases f32Key_le_cases q q' hq hq' h with ⟨hf, hf'⟩ | rfl | rfl | rfl
  · rw [f32Key_fadd32_finite q b hf hb, f32Key_fadd32_finite q' b hf' hb]
    exact oddExt_mono roundMag_one_mono (add_le_add_left (f32SUnits_le_of_key q q' h) _)
  · exact le_rfl
  · rw [fadd32_inf_left 0xFF800000 b (by decide) hb]
    exact (f32Key_bounds _ (hnan q' hq')).1
  · rw [fadd32_inf_left 0x7F800000 b (by decide) hb]
    exact (f32Key_bounds _ (hnan q hq)).2

/-- Dividing a finite value above 0 by values above 0 turns the order. -/
theorem f32Key_fdiv32_anti (a x y : Word) (ha : f32IsFinite a = true) (hapos : f32Gt a 0 = true) (hx : f32Gt x 0 = true)
    (hy : f32Gt y 0 = true) (h : f32Key x ≤ f32Key y) : f32Key (fdiv32 a y) ≤ f32Key (fdiv32 a x) := by
  have hfinite : ∀ d, f32Gt d 0 = true → f32IsFinite d = true →
      fdiv32 a d = roundPack false (f32Units a * 2 ^ 149) (f32Units d) := fun d hd hfd => by
    rw [fdiv32_finite a d ha hfd (f32IsZero_of_pos d hd), f32Sign_of_pos a hapos, f32Sign_of_pos d hd, bne_self_eq_false]
  have hkey : ∀ n d, f32Key (roundPack false n d) = roundMag n d := fun n d => by
    rw [f32Key, f32Sign_roundPack, f32Mag_roundPack, if_neg Bool.false_ne_true]
  rcases f32Key_le_cases x y (f32IsNaN_of_pos x hx) (f32IsNaN_of_pos y hy) h with ⟨hfx, hfy⟩ | rfl | rfl | rfl
  · have hunits : f32Units x ≤ f32Units y := by
      rw [f32Key_of_pos x hx, f32Key_of_pos y hy, Int.ofNat_le] at h
      rw [f32Units_eq, f32Units_eq]
      exact magUnits_strictMono.monotone h
    rw [hfinite x hx hfx, hfinite y hy hfy, hkey, hkey, Int.ofNat_le]
    exact roundMag_mono _ _ _ _ (f32Units_pos y (f32IsZero_of_pos y hy)) (f32Units_pos x (f32IsZero_of_pos x hx))
      (Nat.mul_le_mul_left _ hunits)
  · exact le_rfl
  · exact absurd hx (by decide)
  · rw [fdiv32_inf_right _ a (by decide) ha, f32Sign_of_pos a hapos]
    rcases f32_finite_or_inf x (f32IsNaN_of_pos x hx) with hfx | rfl | rfl
    · rw [hfinite x hx hfx, hkey]
      exact Int.natCast_nonneg _
    · rw [fdiv32_inf_right _ a (by decide) ha, f32Sign_of_pos a hapos]
    · exact absurd hx (by decide)

/-- R12's rounding of a finite value, as a function of its signed units. -/
theorem roundHalfAway_eq_oddExt (t : Word) (h : f32IsFinite t = true) :
    roundHalfAway t = .int (oddExt (fun n => (2 * n + 2 ^ 149) / 2 ^ 150) (f32SUnits t)) := by
  obtain ⟨hnan, hinf⟩ := f32_of_finite t h
  rw [f32SUnits, oddExt_signed _ (by norm_num)]
  simp only [roundHalfAway, hnan, hinf, Bool.false_eq_true, if_false]

theorem clampInt_int_mono (lo hi : Int) (h : lo ≤ hi) : Monotone fun v => clampInt (.int v) lo hi := by
  intro v w hvw
  simp only [clampInt]
  split <;> split <;> omega

/-- Rounding to an integer and saturating keep the order. -/
theorem clampInt_roundHalfAway_mono (t t' : Word) (ht : f32IsNaN t = false) (ht' : f32IsNaN t' = false)
    (h : f32Key t ≤ f32Key t') : clampInt (roundHalfAway t) 1 65535 ≤ clampInt (roundHalfAway t') 1 65535 := by
  rcases f32Key_le_cases t t' ht ht' h with ⟨hf, hf'⟩ | rfl | rfl | rfl
  · rw [roundHalfAway_eq_oddExt t hf, roundHalfAway_eq_oddExt t' hf']
    refine clampInt_int_mono 1 65535 (by norm_num) (oddExt_mono (fun n m hnm => ?_) (f32SUnits_le_of_key t t' h))
    exact Nat.div_le_div_right (by omega)
  · exact le_rfl
  · exact (clampInt_mem _ 1 65535 (by norm_num)).1
  · exact (clampInt_mem _ 1 65535 (by norm_num)).2

/-! The path of R106. -/

/-- The sample after the upper clamp. -/
def clampedSample (x m : Word) : Word := if clampsAbove x m then m else x

theorem clampedSample_pos (x m : Word) (hx : f32Gt x 0 = true) : f32Gt (clampedSample x m) 0 = true := by
  unfold clampedSample
  split
  · exact (clampsAbove_pos x m ‹_›).1
  · exact hx

theorem f32Key_clampedSample_mono (x y m : Word) (hx : f32IsNaN x = false) (hy : f32IsNaN y = false)
    (h : f32Key x ≤ f32Key y) : f32Key (clampedSample x m) ≤ f32Key (clampedSample y m) := by
  have hle : ∀ u, f32IsNaN u = false → f32Gt m 0 = true → clampsAbove u m = false → f32Key u ≤ f32Key m := by
    intro u hu hm hnot
    rw [clampsAbove, hm, Bool.true_and] at hnot
    obtain ⟨-, -, hkey⟩ := (f32Le_iff u m).1 (f32Le_of_not_gt u m hu (f32IsNaN_of_pos m hm) hnot)
    exact hkey
  unfold clampedSample
  cases hcx : clampsAbove x m <;> cases hcy : clampsAbove y m
  · exact h
  · exact hle x hx (clampsAbove_pos y m hcy).1 hcx
  · obtain ⟨hm, habove, -⟩ := clampsAbove_pos x m hcx
    obtain ⟨-, -, hmx⟩ := (f32Gt_iff x m).1 habove
    have hym : f32Key y ≤ f32Key m := hle y hy hm hcy
    omega
  · exact le_rfl

/-- For finite parameters with A above 0 the intermediate is no NaN, and the code is its rounded and saturated value. -/
theorem fwdQuant_code_of_finite (x a b m : Word) (ha : f32IsFinite a = true) (hapos : f32Gt a 0 = true)
    (hb : f32IsFinite b = true) (hx : f32Gt x 0 = true) :
    f32IsNaN (fdiv32 a (clampedSample x m)) = false ∧ f32IsNaN (fsub32 (fdiv32 a (clampedSample x m)) b) = false ∧
      ((fwdQuant x a b m).code.toNat : Int) =
        clampInt (roundHalfAway (fsub32 (fdiv32 a (clampedSample x m)) b)) 1 65535 := by
  obtain ⟨hna, hia⟩ := f32_of_finite a ha
  obtain ⟨hnb, hib⟩ := f32_of_finite b hb
  have hnx := f32IsNaN_of_pos _ (clampedSample_pos x m hx)
  have hquot : f32IsNaN (fdiv32 a (clampedSample x m)) = false := by
    rw [Bool.eq_false_iff, ne_eq, f32IsNaN_fdiv32, hna, hia, hnx, f32IsZero_of_pos a hapos]
    simp
  have hdiff : f32IsNaN (fsub32 (fdiv32 a (clampedSample x m)) b) = false := by
    rw [Bool.eq_false_iff, ne_eq, f32IsNaN_fsub32, hquot, hnb, hib]
    simp
  refine ⟨hquot, hdiff, ?_⟩
  rw [fwdQuant_positive x a b m hx, ← clampedSample, forwardCode_number _ _ hdiff]
  exact saturateCode_code _ _

/-- Settles O22: the clamp keeps the order of two samples, the division turns it, and the rest of the path keeps it. -/
theorem forwardCodesFallWithDepth : Obligations.ForwardCodesFallWithDepth := by
  intro x y a b m ha hapos hb hx hxy
  obtain ⟨hnx, hny, hkey⟩ := (f32Le_iff x y).1 hxy
  have hy : f32Gt y 0 = true := f32Gt_zero_of_le x y hx hxy
  obtain ⟨hqx, htx, hcodex⟩ := fwdQuant_code_of_finite x a b m ha hapos hb hx
  obtain ⟨hqy, hty, hcodey⟩ := fwdQuant_code_of_finite y a b m ha hapos hb hy
  have hclamped := f32Key_clampedSample_mono x y m hnx hny hkey
  have hquot := f32Key_fdiv32_anti a _ _ ha hapos (clampedSample_pos x m hx) (clampedSample_pos y m hy) hclamped
  have hdiff := f32Key_fadd32_mono _ _ (f32Neg b) hqy hqx (by rwa [f32IsFinite_neg]) hquot
  have hround := clampInt_roundHalfAway_mono _ _ hty htx hdiff
  rw [← hcodex, ← hcodey] at hround
  exact Int.ofNat_le.1 hround

end Sys2Proof.Machine
end

section
/-! PROOFS. The raw round trip of a float sample (R107, R117, R124): two binary32 roundings and one to an integer, each with its
error. -/

namespace Sys2Proof.Machine

/-- A quotient below `2^(24+e)` units is rounded with an error of at most half of `2^e` units. -/
theorem roundMag_error (n d e : Nat) (hd : 0 < d) (hfin : roundMag n d < 0x7F800000) (hn : n < 2 ^ (24 + e) * d) :
    2 * |(magUnits (roundMag n d) * d : Int) - n| ≤ 2 ^ e * d := by
  have hscale : roundScale n d ≤ e := by
    have hlt : n / d < 2 ^ (24 + e) := (Nat.div_lt_iff_lt_mul hd).2 hn
    have hlog : Nat.log2 (n / d) < 24 + e ∨ n / d = 0 := by
      by_cases hzero : n / d = 0
      · exact .inr hzero
      · exact .inl ((Nat.log2_lt hzero).2 hlt)
    unfold roundScale
    rcases hlog with hlog | hzero
    · omega
    · rw [hzero, Nat.log2_zero]; omega
  have hgap : magUnits (floorMag n d + 1) * d = magUnits (floorMag n d) * d + 2 ^ roundScale n d * d := by
    rw [magUnits_floorMag, magUnits_floorMag_succ]
    ring
  have hpow : 2 ^ roundScale n d * d ≤ 2 ^ e * d := Nat.mul_le_mul_right d (Nat.pow_le_pow_right two_pos hscale)
  obtain ⟨hlow, hhigh⟩ := floorMag_spec n d hd
  have hnear := roundMag_nearest n d hd hfin (floorMag n d)
  have hnear' := roundMag_nearest n d hd hfin (floorMag n d + 1)
  zify at hgap hpow hlow hhigh
  rw [abs_of_nonpos (show (magUnits (floorMag n d) * d : Int) - n ≤ 0 by linarith)] at hnear
  rw [abs_of_nonneg (show 0 ≤ (magUnits (floorMag n d + 1) * d : Int) - n by linarith)] at hnear'
  linarith

/-- The same in rational terms, for a value below `2^200` units, which is far from overflow. -/
theorem roundPack_error (n d e : Nat) (hd : 0 < d) (he : 24 + e ≤ 200) (hn : n < 2 ^ (24 + e) * d) :
    f32IsFinite (roundPack false n d) = true ∧
      |f32Rat (roundPack false n d) - (n : ℚ) / d / 2 ^ 149| ≤ 2 ^ e / 2 ^ 150 := by
  have hfin : roundMag n d < 0x7F800000 := by
    refine lt_of_le_of_ne (roundMag_le_inf n d) fun hinf => ?_
    rw [roundMag_inf_iff n d hd, two_overflow, mul_assoc, Nat.mul_le_mul_left_iff two_pos] at hinf
    have hpow : 2 ^ (24 + e) * d ≤ (2 ^ 25 - 1) * 2 ^ 252 * d :=
      Nat.mul_le_mul_right d ((Nat.pow_le_pow_right two_pos he).trans (by norm_num))
    exact absurd (hinf.trans_lt hn) (not_lt.2 hpow)
  refine ⟨by rwa [f32IsFinite_iff, f32Mag_roundPack], ?_⟩
  have hdq : (0 : ℚ) < d := Nat.cast_pos.2 hd
  have herr : 2 * |(magUnits (roundMag n d) * d : ℚ) - n| ≤ 2 ^ e * d := by
    have hcast := (Int.cast_le (R := ℚ)).2 (roundMag_error n d e hd hfin hn)
    push_cast at hcast
    exact hcast
  have hdiff : f32Rat (roundPack false n d) - (n : ℚ) / d / 2 ^ 149 =
      ((magUnits (roundMag n d) * d : ℚ) - n) / (d * 2 ^ 149) := by
    rw [f32Rat_eq, f32Sign_roundPack, f32Mag_roundPack, if_neg Bool.false_ne_true, one_mul]
    field_simp
  rw [hdiff, abs_div, abs_of_pos (show (0 : ℚ) < d * 2 ^ 149 by positivity), div_le_div_iff₀ (by positivity) (by positivity)]
  calc |(magUnits (roundMag n d) * d : ℚ) - n| * 2 ^ 150
    _ = 2 * |(magUnits (roundMag n d) * d : ℚ) - n| * 2 ^ 149 := by ring
    _ ≤ 2 ^ e * d * 2 ^ 149 := by gcongr
    _ = 2 ^ e * (d * 2 ^ 149) := by ring

/-- A quotient of at least a representable value rounds to at least that value. -/
theorem magUnits_le_magUnits_roundMag (p n d : Nat) (hd : 0 < d) (hp : p < 0x7F800000) (h : magUnits p * d ≤ n) :
    magUnits p ≤ magUnits (roundMag n d) := by
  rw [magUnits_le_iff]
  calc p = roundMag (magUnits p * d) d := (roundMag_exact p d hd hp).symm
    _ ≤ roundMag n d := roundMag_mono _ d n d hd hd (Nat.mul_le_mul_right d h)

/-- The samples of R124's second point: positive, finite, and with a value between the ends' values. -/
theorem sample_bounds (x : Word) (hlow : f32Le 0x3A03126F x = true) (hhigh : f32Le x 0x428311EC = true) :
    f32Gt x 0 = true ∧ f32IsFinite x = true ∧ f32Units 0x3A03126F ≤ f32Units x ∧ f32Units x ≤ f32Units 0x428311EC := by
  obtain ⟨-, -, hkeylow⟩ := (f32Le_iff _ x).1 hlow
  obtain ⟨-, -, hkeyhigh⟩ := (f32Le_iff x _).1 hhigh
  have hlowpos : f32Gt 0x3A03126F 0 = true := by decide
  have hhighpos : f32Gt 0x428311EC 0 = true := by decide
  have hpos : f32Gt x 0 = true := f32Gt_zero_of_le _ x hlowpos hlow
  rw [f32Key_of_pos _ hlowpos, f32Key_of_pos x hpos, Int.ofNat_le] at hkeylow
  rw [f32Key_of_pos _ hhighpos, f32Key_of_pos x hpos, Int.ofNat_le] at hkeyhigh
  refine ⟨hpos, (f32IsFinite_iff x).2 (hkeyhigh.trans_lt (by decide)), ?_, ?_⟩
  · rw [f32Units_eq, f32Units_eq]
    exact magUnits_strictMono.monotone hkeylow
  · rw [f32Units_eq, f32Units_eq]
    exact magUnits_strictMono.monotone hkeyhigh

theorem f32Rat_of_pos (x : Word) (h : f32Gt x 0 = true) : f32Rat x = (f32Units x : ℚ) / 2 ^ 149 := by
  rw [f32Rat_eq_units, f32Sign_of_pos x h, if_neg Bool.false_ne_true, one_mul]

/-- The millimetres of such a sample in units: at least a half, at most 65535.25. -/
theorem millimetres_bounds (x : Word) (hlow : f32Le 0x3A03126F x = true) (hhigh : f32Le x 0x428311EC = true) :
    2 ^ 148 ≤ f32Units x * 1000 ∧ f32Units x * 1000 * 4 ≤ (65535 * 4 + 1) * 2 ^ 149 := by
  obtain ⟨-, -, hunitslow, hunitshigh⟩ := sample_bounds x hlow hhigh
  have hmin : 2 ^ 148 ≤ f32Units 0x3A03126F * 1000 := by decide +kernel
  have hmax : f32Units 0x428311EC * 1000 * 4 ≤ (65535 * 4 + 1) * 2 ^ 149 := by decide +kernel
  exact ⟨hmin.trans (Nat.mul_le_mul_right _ hunitslow),
    (Nat.mul_le_mul_right 4 (Nat.mul_le_mul_right 1000 hunitshigh)).trans hmax⟩

theorem millimetres_le (x : Word) (hlow : f32Le 0x3A03126F x = true) (hhigh : f32Le x 0x428311EC = true) :
    f32Rat x * 1000 ≤ 65535 + 1 / 4 := by
  obtain ⟨hpos, -⟩ := sample_bounds x hlow hhigh
  obtain ⟨-, hupper⟩ := millimetres_bounds x hlow hhigh
  have hupperq : (f32Units x : ℚ) * 1000 * 4 ≤ (65535 * 4 + 1) * 2 ^ 149 := by exact_mod_cast hupper
  rw [f32Rat_of_pos x hpos, div_mul_eq_mul_div, div_le_iff₀ (by positivity)]
  linarith

/-- The product of R107 is the millimetres, rounded once. -/
theorem fmul32_thousand (x : Word) (hpos : f32Gt x 0 = true) (hfin : f32IsFinite x = true) :
    fmul32 x f32Thousand = roundPack false (f32Units x * 1000 * 2 ^ 149) (2 ^ 149) := by
  have hthousand : f32Units f32Thousand = 1000 * 2 ^ 149 := by decide +kernel
  rw [fmul32_finite x _ hfin (by decide), f32Sign_of_pos x hpos, hthousand, mul_assoc]
  rfl

/-- It is at least a half: the half is representable. -/
theorem half_le_fmul32_thousand (x : Word) (hlow : f32Le 0x3A03126F x = true) (hhigh : f32Le x 0x428311EC = true) :
    1 / 2 ≤ f32Rat (fmul32 x f32Thousand) := by
  obtain ⟨hpos, hfin, -⟩ := sample_bounds x hlow hhigh
  obtain ⟨hlower, -⟩ := millimetres_bounds x hlow hhigh
  have hhalf : magUnits 0x3F000000 = 2 ^ 148 := magUnits_scaled 125 (2 ^ 23) (by norm_num) (.inl le_rfl)
  have hround := magUnits_le_magUnits_roundMag 0x3F000000 (f32Units x * 1000 * 2 ^ 149) (2 ^ 149) (by norm_num) (by norm_num)
    (by rw [hhalf]; exact Nat.mul_le_mul_right _ hlower)
  rw [hhalf] at hround
  have hroundq : (2 : ℚ) ^ 148 ≤ magUnits (roundMag (f32Units x * 1000 * 2 ^ 149) (2 ^ 149)) := by exact_mod_cast hround
  rw [fmul32_thousand x hpos hfin, f32Rat_eq, f32Sign_roundPack, f32Mag_roundPack, if_neg Bool.false_ne_true, one_mul,
    le_div_iff₀ (by positivity)]
  exact le_trans (by norm_num) hroundq

/-- It is within 2^-9 of the millimetres, which are below 2^16. -/
theorem fmul32_thousand_error (x : Word) (hlow : f32Le 0x3A03126F x = true) (hhigh : f32Le x 0x428311EC = true) :
    f32IsFinite (fmul32 x f32Thousand) = true ∧ |f32Rat (fmul32 x f32Thousand) - f32Rat x * 1000| ≤ 1 / 2 ^ 9 := by
  obtain ⟨hpos, hfin, -⟩ := sample_bounds x hlow hhigh
  obtain ⟨-, hupper⟩ := millimetres_bounds x hlow hhigh
  have hlt : f32Units x * 1000 < 2 ^ (24 + 141) := by
    refine Nat.lt_of_mul_lt_mul_right (hupper.trans_lt (b := (65535 * 4 + 1) * 2 ^ 149) ?_)
    norm_num
  obtain ⟨hfinite, herr⟩ := roundPack_error (f32Units x * 1000 * 2 ^ 149) (2 ^ 149) 141 (by norm_num) (by norm_num)
    (Nat.mul_lt_mul_of_pos_right hlt (by norm_num))
  have hvalue : f32Rat x * 1000 = ((f32Units x * 1000 * 2 ^ 149 : Nat) : ℚ) / ((2 ^ 149 : Nat) : ℚ) / 2 ^ 149 := by
    rw [f32Rat_of_pos x hpos]
    push_cast
    ring
  rw [fmul32_thousand x hpos hfin, hvalue]
  exact ⟨hfinite, herr.trans (by norm_num)⟩

theorem f32Gt_zero_of_f32Rat_pos (u : Word) (hfin : f32IsFinite u = true) (h : 0 < f32Rat u) : f32Gt u 0 = true := by
  have hzero : f32Rat 0 = 0 := by rw [f32Rat, show f32SUnits 0 = 0 by decide, Int.cast_zero, zero_div]
  rw [← hzero] at h
  obtain ⟨-, hgt, -⟩ := comparisons_finite u 0 hfin (by decide)
  exact hgt.2 h

/-- R12 on a value above 0: an integer within a half. -/
theorem roundHalfAway_pos (t : Word) (hfin : f32IsFinite t = true) (hpos : f32Gt t 0 = true) :
    ∃ c : Int, roundHalfAway t = .int c ∧ f32Rat t - 1 / 2 < c ∧ (c : ℚ) ≤ f32Rat t + 1 / 2 := by
  have hnonneg : 0 ≤ f32Rat t := by rw [f32Rat_of_pos t hpos]; positivity
  refine ⟨⌊f32Rat t + 1 / 2⌋, ?_, ?_, Int.floor_le _⟩
  · rw [roundHalfAway_finite t hfin, f32Sign_of_pos t hpos, if_neg Bool.false_ne_true, abs_of_nonneg hnonneg]
  · have := Int.lt_floor_add_one (f32Rat t + 1 / 2)
    linarith

/-- The code of R107 is within half a millimetre and the product's rounding of the sample. -/
theorem fwdRawF32_error (x : Word) (hlow : f32Le 0x3A03126F x = true) (hhigh : f32Le x 0x428311EC = true) :
    1 ≤ (fwdRawF32 x).code.toNat ∧ |((fwdRawF32 x).code.toNat : ℚ) - f32Rat x * 1000| ≤ 1 / 2 + 1 / 2 ^ 9 := by
  obtain ⟨hfin, herr⟩ := fmul32_thousand_error x hlow hhigh
  have hhalf := half_le_fmul32_thousand x hlow hhigh
  have hmax := millimetres_le x hlow hhigh
  have hpos : f32Gt (fmul32 x f32Thousand) 0 = true := f32Gt_zero_of_f32Rat_pos _ hfin (by linarith)
  obtain ⟨c, hround, hclow, hchigh⟩ := roundHalfAway_pos _ hfin hpos
  rw [abs_le] at herr
  have hc1 : 1 ≤ c := by
    have : (0 : ℚ) < c := by linarith
    exact_mod_cast this
  have hc2 : c ≤ 65535 := by
    have : (c : ℚ) < 65536 := by linarith
    have : c < 65536 := by exact_mod_cast this
    omega
  have hcode : ((fwdRawF32 x).code.toNat : Int) = c := by
    rw [fwdRawF32_positive x (sample_bounds x hlow hhigh).1, saturateCode_code, hround, clampInt_int_of_mem c 1 65535 hc1 hc2]
  have hcodeq : ((fwdRawF32 x).code.toNat : ℚ) = c := by exact_mod_cast hcode
  refine ⟨by omega, ?_⟩
  rw [hcodeq, abs_le]
  constructor <;> linarith

/-- The depth of R117 is within 2^-18 metre of the code's millimetres. -/
theorem fdiv32_thousand_error (k : Nat) (hk : k ≤ 65535) :
    f32IsFinite (fdiv32 (f32OfNat k) f32Thousand) = true ∧
      |f32Rat (fdiv32 (f32OfNat k) f32Thousand) - (k : ℚ) / 1000| ≤ 1 / 2 ^ 18 := by
  have hlt : k * 2 ^ 149 < 2 ^ (24 + 132) * 1000 :=
    (Nat.mul_le_mul_right (2 ^ 149) hk).trans_lt (by norm_num)
  obtain ⟨hfin, herr⟩ := roundPack_error (k * 2 ^ 149 * 2 ^ 149) (1000 * 2 ^ 149) 132 (by norm_num) (by norm_num)
    (by rw [← mul_assoc (2 ^ (24 + 132))]; exact Nat.mul_lt_mul_of_pos_right hlt (by norm_num))
  have hvalue : (k : ℚ) / 1000 = ((k * 2 ^ 149 * 2 ^ 149 : Nat) : ℚ) / ((1000 * 2 ^ 149 : Nat) : ℚ) / 2 ^ 149 := by
    push_cast
    ring
  rw [fdiv32_ofNat_thousand k (hk.trans (by norm_num)), hvalue]
  exact ⟨hfin, herr.trans (by norm_num)⟩

theorem invRawF32_ne_zero (k : Half) (h : 1 ≤ k.toNat) :
    invRawF32 k = ⟨fdiv32 (f32OfNat k.toNat) f32Thousand, false, false, false⟩ := by
  have hne : k ≠ 0 := by rintro rfl; simp at h
  rw [invRawF32, if_neg hne]

/-- Settles O30: the errors of the two roundings and of the integer code add up. -/
theorem f32RawRoundTripError : Obligations.F32RawRoundTripError := by
  intro s hlaw hsrc hout hlow hhigh
  obtain ⟨hcode1, hcode⟩ := fwdRawF32_error _ hlow hhigh
  obtain ⟨hfin, hdepth⟩ := fdiv32_thousand_error (fwdRawF32 (s.block.get .din)).code.toNat
    (Nat.le_of_lt_succ (fwdRawF32 (s.block.get .din)).code.isLt)
  refine ⟨_, _, exec_fwd_rawF32 s hlaw hsrc, exec_inv_rawF32 _ ?_ ?_, ?_⟩
  · rwa [withDin_block, withBlock_block, lawTag_put_ne _ _ _ (by decide), lawTag_fwdCommit]
  · rwa [withDin_block, withBlock_block, rawOutFmt_put_ne _ _ _ (by decide), rawOutFmt_fwdCommit]
  · rw [withBlock_block, withDin_block, withBlock_block, get_fwdCommit_dout, get_invCommit_dout, dinHalf_put_din,
      invRawF32_ne_zero _ hcode1]
    refine ⟨hfin, ?_⟩
    rw [abs_le] at hcode hdepth ⊢
    constructor <;> linarith

end Sys2Proof.Machine
end

section
/-! PROOFS. Whole frames by the procedures' definitions: a payload's header reads back (R78 to R82), 16-bit frames come back exactly
(R124) and invalid pixels of float frames as invalid (R122). -/

namespace Sys2Proof.Machine

/-! The wire header reads back. -/

theorem readHeader_wireHeader_raw (order : Config.ByteOrder) (a b : Word) (bytes : List Byte) :
    readHeader order (wireHeader order 0 a b ++ bytes) = .ok (0, 0, 0, 1) := rfl

theorem readHeader_wireHeader_quantized (order : Config.ByteOrder) (a b : Word) (bytes : List Byte) :
    readHeader order (wireHeader order 1 a b ++ bytes) = .ok (1, a, b, 9) := by
  have hfirst : payloadWord (wireHeader order 1 a b ++ bytes) 1 = wireWord order a := packWord_wordByte _
  have hsecond : payloadWord (wireHeader order 1 a b ++ bytes) 5 = wireWord order b := packWord_wordByte _
  have hlength : ¬(wireHeader order 1 a b ++ bytes).length < 9 := by
    rw [List.length_append, show (wireHeader order 1 a b).length = 9 from rfl]
    omega
  obtain ⟨tail, htail⟩ : ∃ tail, wireHeader order 1 a b ++ bytes = 1 :: tail := ⟨_, rfl⟩
  rw [htail] at hfirst hsecond hlength ⊢
  rw [readHeader, if_neg (by decide), if_pos rfl, if_neg hlength, hfirst, hsecond, wireWord_wireWord, wireWord_wireWord]

/-- DECODE_FRAME of a header and a grid's bytes, under either law: some parameters, and the depth of each code under them. -/
theorem decodeFrame_of_wireHeader (order : Config.ByteOrder) (codec : Config.Codec) (m a b : Word) (law : Byte)
    (hlaw : law = 0 ∨ law = 1) (fmt : SampleFmt) (bytes : List Byte) (w h : Nat) (grid : List Half)
    (hgrid : codec.decompress bytes = some (w, h, grid)) (hdims : dimsOk codec w h grid = true) :
    ∃ a' b', decodeFrame order codec m (wireHeader order law a b ++ bytes) fmt =
      .decoded ⟨w, h, decodedData law fmt (grid.map (frameDepth law fmt a' b' m))⟩ := by
  rcases hlaw with rfl | rfl
  · have hdrop : (wireHeader order 0 a b ++ bytes).drop 1 = bytes := rfl
    exact ⟨0, 0, by simp only [decodeFrame, readHeader_wireHeader_raw, hdrop, hgrid, hdims, if_true]⟩
  · have hdrop : (wireHeader order 1 a b ++ bytes).drop 9 = bytes := rfl
    exact ⟨a, b, by simp only [decodeFrame, readHeader_wireHeader_quantized, hdrop, hgrid, hdims, if_true]⟩

/-! What an encoded payload is. -/

theorem encodeFrame_encoded (dp : Word → Word → Word × Word) (order : Config.ByteOrder) (codec : Config.Codec)
    (frame : Frame) (cfg : HostConfig) (f : SampleFmt) (words : List Word) (hwords : frameWords frame.data = some (f, words))
    (payload : List Byte) (fmt : SampleFmt) (h : encodeFrame dp order codec frame cfg = .encoded payload fmt) :
    fmt = f ∧ ∃ a b bytes, payload = wireHeader order (frameLaw f cfg.depthMax cfg.depthQuant) a b ++ bytes ∧
      codec.compress (words.map (frameCode (frameLaw f cfg.depthMax cfg.depthQuant) f a b cfg.depthMax)) frame.width
        frame.height cfg.pngLevel.val = some bytes := by
  simp only [encodeFrame, hwords] at h
  split at h
  · cases h
  · cases h
    exact ⟨rfl, _, _, _, rfl, ‹_›⟩

theorem frameLaw_cases (fmt : SampleFmt) (m q : Word) : frameLaw fmt m q = 0 ∨ frameLaw fmt m q = 1 := by
  cases fmt with
  | u16 => exact .inl rfl
  | f32 => exact (ite_eq_or_eq _ _ _).symm

/-- A frame of `w * h` samples makes a grid whose dimensions a codec that accepts them passes. -/
theorem dimsOk_of_length (codec : Config.Codec) (w h : Nat) (grid : List Half) (hbounds : codec.bounds w h = true)
    (hlength : grid.length = w * h) : dimsOk codec w h grid = true := by
  rw [dimsOk, hbounds, hlength, Bool.and_true, beq_self_eq_true]

/-! 16-bit frames. -/

theorem lowHalf_setWidth (x : Half) : lowHalf (x.setWidth 32) = x := extractLsb'_setWidth_half x

/-- The codes of a 16-bit frame are its samples. -/
theorem map_frameCode_u16 (a b m : Word) (samples : List Half) :
    (samples.map (·.setWidth 32)).map (frameCode 0 .u16 a b m) = samples := by
  have hcode : ∀ x : Half, frameCode 0 .u16 a b m (x.setWidth 32) = x := lowHalf_setWidth
  simp only [List.map_map, Function.comp_def, hcode, List.map_id']

/-- The samples of a decoded raw frame are its codes. -/
theorem map_frameDepth_u16 (a b m : Word) (grid : List Half) :
    decodedData 0 .u16 (grid.map (frameDepth 0 .u16 a b m)) = .u16 grid := by
  have hdepth : ∀ k : Half, lowHalf (frameDepth 0 .u16 a b m k) = k := lowHalf_setWidth
  rw [decodedData, if_neg (by decide)]
  simp only [List.map_map, Function.comp_def, hdepth, List.map_id']

/-- Settles O51: SELECT gives RAW for a 16-bit frame, and RAW hands samples and codes on as they are. -/
theorem u16FrameRoundTripIsExact : Obligations.U16FrameRoundTripIsExact := by
  intro dp order codec cfg m w h samples payload fmt hlossless hbounds hlength hencoded
  obtain ⟨rfl, a, b, bytes, rfl, hcompress⟩ := encodeFrame_encoded dp order codec ⟨w, h, .u16 samples⟩ cfg .u16 _ rfl _ _ hencoded
  simp only [frameLaw, map_frameCode_u16] at hcompress
  obtain ⟨a', b', hdecode⟩ := decodeFrame_of_wireHeader order codec m a b 0 (.inl rfl) .u16 bytes w h samples
    (hlossless _ _ _ _ _ hcompress) (dimsOk_of_length codec w h samples hbounds hlength)
  rw [frameLaw, hdecode, map_frameDepth_u16]

/-! Invalid pixels of float frames. -/

theorem f32Eq_zero_of_isZero (x : Word) (h : f32IsZero x = true) : f32Eq x 0 = true := by
  have hkey : f32Key x = 0 := by
    rw [f32Key, (f32IsZero_iff x).1 h]
    simp
  exact (f32Eq_zero_iff x).2 ⟨(f32IsZero_not_inf x h).2, hkey⟩

/-- An invalid sample has code 0 under either law (R122). -/
theorem frameCode_invalid (law : Byte) (a b m x : Word) (h : f32IsNaN x = true ∨ f32IsZero x = true) :
    frameCode law .f32 a b m x = 0 := by
  have hinvalid := h.imp_right (f32Eq_zero_of_isZero x)
  rw [frameCode]
  split
  · rw [fwdQuant_invalid x a b m hinvalid]
  · rw [fwdRawF32_invalid x hinvalid]

/-- Code 0 is the invalid depth under either law. -/
theorem frameDepth_zero (law : Byte) (a b m : Word) : frameDepth law .f32 a b m 0 = qnan := by
  rw [frameDepth]
  split <;> rfl

/-- Settles O52: through the codec the code of an invalid pixel is 0, whose depth is the invalid one. -/
theorem invalidPixelsSurviveTheFrame : Obligations.InvalidPixelsSurviveTheFrame := by
  intro dp order codec cfg m w h samples payload fmt hlossless hbounds hlength hencoded
  obtain ⟨rfl, a, b, bytes, rfl, hcompress⟩ := encodeFrame_encoded dp order codec ⟨w, h, .f32 samples⟩ cfg .f32 _ rfl _ _ hencoded
  generalize hl : frameLaw .f32 cfg.depthMax cfg.depthQuant = law at hcompress ⊢
  have hlaw : law = 0 ∨ law = 1 := hl ▸ frameLaw_cases .f32 cfg.depthMax cfg.depthQuant
  obtain ⟨a', b', hdecode⟩ := decodeFrame_of_wireHeader order codec m a b law hlaw .f32 bytes w h _
    (hlossless _ _ _ _ _ hcompress) (dimsOk_of_length codec w h _ hbounds (by rw [List.length_map, hlength]))
  refine ⟨_, hdecode.trans (by rw [decodedData, if_pos (.inr rfl)]), by simp only [List.length_map], fun i x hx hinvalid => ?_⟩
  rw [List.getElem?_map, List.getElem?_map, hx, Option.map_some, Option.map_some, frameCode_invalid law a b _ x hinvalid,
    frameDepth_zero, qnan]

end Sys2Proof.Machine
end

section
/-! PROOFS. Runs of the machine through accesses the host has issued (R61): what performing a list of accesses does to the register
file and which values it reads, composed access by access. -/

namespace Sys2Proof.Machine

/-! Runs add up. -/

theorem reaches_refl (s : State) : Reaches s s := ⟨0, rfl⟩

theorem reaches_trans {s t u : State} (h : Reaches s t) (h' : Reaches t u) : Reaches s u := by
  obtain ⟨m, hm⟩ := h
  obtain ⟨n, hn⟩ := h'
  exact ⟨m + n, (run_add m n s t hm).trans hn⟩

theorem reaches_of_step {s t : State} (h : step s = .next t) : Reaches s t := by
  have hcore : Sys2Proof.core.step s = .next t := h
  exact ⟨1, by simp only [Host.Core.run, hcore]⟩

/-! Accesses. -/

/-- The machine with some accesses done: what is left on the port, the values they read, and the register file they left. -/
def State.served (s : State) (rest : List Access) (values : List Word) (c : Block) : State where
  block := c
  host := { s.host with port := rest, reads := s.host.reads ++ values }

/-- From the register file `b` the accesses read `values` and leave `c`, whatever the host issued after them. -/
def Performs (accesses : List Access) (b : Block) (values : List Word) (c : Block) : Prop :=
  ∀ (s : State) (rest : List Access), s.block = b → s.host.port = accesses ++ rest → Reaches s (s.served rest values c)

/-- A step with one access next that answers the machine with that access served. -/
theorem performs_of_step {a : Access} {b c : Block} {values : List Word}
    (h : ∀ (s : State) (rest : List Access), s.block = b → s.host.port = a :: rest → step s = .next (s.served rest values c)) :
    Performs [a] b values c := fun s rest hb hport => reaches_of_step (h s rest hb hport)

theorem performs_nil (b : Block) : Performs [] b [] b := by
  rintro ⟨_, _, reads, _, _, _⟩ rest rfl rfl
  rw [State.served, List.append_nil]
  exact reaches_refl _

theorem Performs.append {as as' : List Access} {b c d : Block} {vs vs' : List Word} (h : Performs as b vs c)
    (h' : Performs as' c vs' d) : Performs (as ++ as') b (vs ++ vs') d := by
  intro s rest hb hport
  rw [List.append_assoc] at hport
  have hserved : (s.served (as' ++ rest) vs c).served rest vs' d = s.served rest (vs ++ vs') d := by
    simp only [State.served, List.append_assoc]
  rw [← hserved]
  exact reaches_trans (h s _ hb hport) (h' _ rest rfl rfl)

/-- A write to a register but CMD. -/
theorem performs_wr (r : RegName) (v : Word) (b : Block) (hr : r ≠ .cmd) : Performs [wr r v] b [] (hostWrite r v b) := by
  refine performs_of_step fun s rest hb hport => ?_
  rw [step_wr s r v rest hport hr, hb, State.served, List.append_nil]
  rfl

/-- A command. -/
theorem performs_cmd (i : Instr) (b : Block) : Performs [cmd i] b [] (commandBlock i b) := by
  refine performs_of_step fun s rest hb hport => ?_
  rw [step_legal_word s (encode i) rest i hport (decode_encode i), hb, State.served, List.append_nil]
  rfl

/-- A read. -/
theorem performs_rd (r : RegName) (b : Block) : Performs [rd r] b [b.get r] b := by
  refine performs_of_step fun s rest hb hport => ?_
  rw [step_rd s r rest hport, hb, State.served, ← hb]
  rfl

/-- A sample's or a code's three accesses: its word to DIN, a command, the read of DOUT (R162, R166). -/
theorem performs_sample (x : Word) (i : Instr) (b : Block) :
    Performs [wr .din x, cmd i, rd .dout] b [(commandBlock i (hostWrite .din x b)).get .dout]
      (commandBlock i (hostWrite .din x b)) :=
  (performs_wr .din x b (by decide)).append ((performs_cmd i _).append (performs_rd .dout _))

/-- Samples or codes one after the other: an invariant `P` of the register file that fixes each one's output. -/
theorem performs_samples {α : Type} (P : Block → Prop) (accesses : α → List Access) (value : α → Word)
    (hone : ∀ x b, P b → ∃ c, P c ∧ Performs (accesses x) b [value x] c) (xs : List α) (b : Block) (hb : P b) :
    ∃ c, P c ∧ Performs (xs.flatMap accesses) b (xs.map value) c := by
  induction xs generalizing b with
  | nil => exact ⟨b, hb, performs_nil b⟩
  | cons x xs ih =>
    obtain ⟨c, hc, hx⟩ := hone x b hb
    obtain ⟨d, hd, hxs⟩ := ih c hc
    exact ⟨d, hd, by simpa using hx.append hxs⟩

/-! The phases of a call. -/

/-- A phase opened with its accesses runs to where they are all done and their values read. -/
theorem reaches_phase_end (s : State) (phase : Phase) (accesses : List Access) (values : List Word) (c : Block)
    (h : Performs accesses s.block values c) :
    Reaches (s.openPhase phase accesses) ((s.openPhase phase []).served [] values c) :=
  h (s.openPhase phase accesses) [] rfl (List.append_nil _).symm

/-- The state in which a phase's accesses are done: the register file, the values read, the port empty, and the calls and results
of the machine `s` the call began on. -/
structure PhaseDone (s : State) (phase : Phase) (values : List Word) (c : Block) (u : State) : Prop where
  block : u.block = c
  port : u.host.port = []
  reads : u.host.reads = values
  phase : u.host.phase = phase
  calls : u.host.calls = s.host.calls
  results : u.host.results = s.host.results

/-- A phase opened on any state of the call runs to its end. -/
theorem PhaseDone.reaches {s u : State} (phase : Phase) {accesses : List Access} {values : List Word} {c : Block}
    (hcalls : u.host.calls = s.host.calls) (hresults : u.host.results = s.host.results)
    (h : Performs accesses u.block values c) :
    ∃ t, Reaches (u.openPhase phase accesses) t ∧ PhaseDone s phase values c t :=
  ⟨_, reaches_phase_end u phase accesses values c h, rfl, rfl, rfl, rfl, hcalls, hresults⟩

end Sys2Proof.Machine
end

section
/-! PROOFS. ENCODE_FRAME over the register port (R162 to R164, R169) returns what its definition gives. -/

namespace Sys2Proof.Machine

/-! What the commands of a frame answer, in the terms of the procedures' definitions. -/

theorem srcFmt_congr {b c : Block} (h : b.get .ctrl = c.get .ctrl) : b.srcFmt = c.srcFmt := by
  rw [Block.srcFmt, h, Block.srcFmt]

theorem rawOutFmt_congr {b c : Block} (h : b.get .ctrl = c.get .ctrl) : b.rawOutFmt = c.rawOutFmt := by
  rw [Block.rawOutFmt, h, Block.rawOutFmt]

/-- SELECT chooses the law of the frame (R91). -/
theorem lawTag_selectBlock (b : Block) :
    (selectBlock b).lawTag = frameLaw b.srcFmt (b.get .depthMax) (b.get .depthQuant) := by
  have hraw : ∀ c : Block, c.get .law = 0 → c.lawTag = 0 := fun c h => by rw [Block.lawTag, h]; rfl
  have hquantized : ∀ c : Block, c.get .law = 1 → c.lawTag = 1 := fun c h => by rw [Block.lawTag, h]; rfl
  rcases selectBlock_cases b with ⟨hsrc, hmax, hquant, h⟩ | ⟨hsrc, hnot, h⟩ | ⟨hsrc, h⟩ <;> rw [h, hsrc, frameLaw]
  · rw [if_pos (by rw [hmax, hquant]; rfl)]
    exact hquantized _ (by simp)
  · rw [if_neg (by rwa [Bool.and_eq_true])]
    exact hraw _ (by simp)
  · exact hraw _ (by simp)

/-- DERIVE gives the parameters of the frame (R95). -/
theorem get_deriveBlock_params (dp : Word → Word → Word × Word) (b : Block) :
    (deriveBlock dp b).get .paramA = (frameParams dp b.lawTag (b.get .depthMax) (b.get .depthQuant)).1 ∧
      (deriveBlock dp b).get .paramB = (frameParams dp b.lawTag (b.get .depthMax) (b.get .depthQuant)).2 := by
  simp [deriveBlock, frameParams]

/-- FWD gives the code of the frame's sample (R105). -/
theorem get_fwdBlock_dout (b : Block) (h : ¬(b.lawTag = 1 ∧ b.srcFmt = .u16)) :
    (fwdBlock b).get .dout = (frameCode b.lawTag b.srcFmt (b.get .paramA) (b.get .paramB) (b.get .depthMax)
      (b.get .din)).setWidth 32 := by
  rcases fwdBlock_cases b with ⟨hlaw, hsrc, -⟩ | ⟨hlaw, hsrc, hfwd⟩ | ⟨hlaw, hsrc, hfwd⟩ | ⟨hlaw, hsrc, hfwd⟩
  · exact absurd ⟨hlaw, hsrc⟩ h
  · rw [hfwd, get_fwdCommit_dout, hsrc, frameCode, if_pos hlaw]
  · rw [hfwd, get_fwdCommit_dout, hsrc, frameCode, if_neg hlaw]
  · rw [hfwd, get_fwdCommit_dout, hsrc, frameCode, if_neg hlaw, lowHalf, Block.dinHalf]

/-- The header read back after HENC is the wire header (R130, R131). -/
theorem headerFromReads_hencBlock (order : Config.ByteOrder) (b : Block) (h : b.lawTag = 0 ∨ b.lawTag = 1) :
    headerFromReads [(hencBlock order b).get .hdrLen, (hencBlock order b).get .hdrW0, (hencBlock order b).get .hdrW1,
      (hencBlock order b).get .hdrW2] = wireHeader order b.lawTag (b.get .paramA) (b.get .paramB) := by
  rcases h with hlaw | hlaw
  · obtain ⟨h0, h1, h2, hlen⟩ := get_hencBlock_raw order b hlaw
    rw [h0, h1, h2, hlen, hlaw]
    rfl
  · have hne : b.lawTag ≠ 0 := by rw [hlaw]; decide
    obtain ⟨-, -, -, hlen⟩ := get_hencBlock_quantized order b hne
    obtain ⟨htag, hA, hB⟩ := hdrByte_hencBlock_quantized order b hne
    generalize hencBlock order b = c at hlen htag hA hB ⊢
    have hbytes : headerFromReads [9, c.get .hdrW0, c.get .hdrW1, c.get .hdrW2] =
        c.hdrByte 0 :: ([c.hdrByte (1 + 0), c.hdrByte (1 + 1), c.hdrByte (1 + 2), c.hdrByte (1 + 3)] ++
          [c.hdrByte (5 + 0), c.hdrByte (5 + 1), c.hdrByte (5 + 2), c.hdrByte (5 + 3)]) := rfl
    rw [hlen, hbytes, htag, hA 0 (by norm_num), hA 1 (by norm_num), hA 2 (by norm_num), hA 3 (by norm_num),
      hB 0 (by norm_num), hB 1 (by norm_num), hB 2 (by norm_num), hB 3 (by norm_num), hlaw]
    rfl

/-! The register file while a frame is encoded. -/

/-- The law of a frame under a configuration (R91), its parameters (R95) and the code of one of its samples (R105). -/
def configLaw (cfg : HostConfig) (fmt : SampleFmt) : Byte := frameLaw fmt cfg.depthMax cfg.depthQuant

def configParams (cfg : HostConfig) (fmt : SampleFmt) : Word × Word :=
  frameParams Config.deriveParams (configLaw cfg fmt) cfg.depthMax cfg.depthQuant

def configCode (cfg : HostConfig) (fmt : SampleFmt) (x : Word) : Half :=
  frameCode (configLaw cfg fmt) fmt (configParams cfg fmt).1 (configParams cfg fmt).2 cfg.depthMax x

theorem configCode_eq (cfg : HostConfig) (fmt : SampleFmt) :
    configCode cfg fmt = frameCode (configLaw cfg fmt) fmt (configParams cfg fmt).1 (configParams cfg fmt).2 cfg.depthMax := rfl

/-- The configuration, the law and the parameters of the frame are in the registers. -/
structure EncodeReady (cfg : HostConfig) (fmt : SampleFmt) (c : Block) : Prop where
  srcFmt : c.srcFmt = fmt
  law : c.lawTag = configLaw cfg fmt
  paramA : c.get .paramA = (configParams cfg fmt).1
  paramB : c.get .paramB = (configParams cfg fmt).2
  depthMax : c.get .depthMax = cfg.depthMax
  effort : c.effort = cfg.pngLevel.val

/-- CTRL as ENCODE_FRAME writes it holds the format and the effort (R162). -/
theorem encodeCtrl_fields (cfg : HostConfig) (fmt : SampleFmt) :
    (encodeCtrl cfg fmt).getLsbD 0 = decide (fmt = .u16) ∧ ((encodeCtrl cfg fmt).extractLsb' 4 4).toNat = cfg.pngLevel.val := by
  have hf32 : ∀ n : Fin 10, (BitVec.ofNat 32 n.val <<< 4 ||| (0 : Word)).getLsbD 0 = false ∧
      ((BitVec.ofNat 32 n.val <<< 4 ||| (0 : Word)).extractLsb' 4 4).toNat = n.val := by decide
  have hu16 : ∀ n : Fin 10, (BitVec.ofNat 32 n.val <<< 4 ||| (1 : Word)).getLsbD 0 = true ∧
      ((BitVec.ofNat 32 n.val <<< 4 ||| (1 : Word)).extractLsb' 4 4).toNat = n.val := by decide
  cases fmt with
  | f32 => exact hf32 cfg.pngLevel
  | u16 => exact hu16 cfg.pngLevel

/-- The register file after the writes of the configuration. -/
def configured (cfg : HostConfig) (fmt : SampleFmt) (b : Block) : Block :=
  hostWrite .depthQuant cfg.depthQuant (hostWrite .depthMax cfg.depthMax (hostWrite .ctrl (encodeCtrl cfg fmt) b))

theorem srcFmt_configured (cfg : HostConfig) (fmt : SampleFmt) (b : Block) : (configured cfg fmt b).srcFmt = fmt := by
  obtain ⟨hbit, -⟩ := encodeCtrl_fields cfg fmt
  obtain ⟨hctrl, -, -⟩ := formats_hostWrite_ctrl (encodeCtrl cfg fmt) b
  have hsame : (configured cfg fmt b).srcFmt = (hostWrite .ctrl (encodeCtrl cfg fmt) b).srcFmt := rfl
  rw [hsame, Block.srcFmt, hctrl, hbit]
  cases fmt <;> rfl

theorem effort_configured (cfg : HostConfig) (fmt : SampleFmt) (b : Block) :
    (configured cfg fmt b).effort = cfg.pngLevel.val := by
  obtain ⟨-, heffort⟩ := encodeCtrl_fields cfg fmt
  have hsame : (configured cfg fmt b).effort = (hostWrite .ctrl (encodeCtrl cfg fmt) b).effort := rfl
  rw [hsame, effort_hostWrite_ctrl, heffort]
  exact min_eq_left (Nat.le_of_lt_succ cfg.pngLevel.isLt)

/-- SELECT and DERIVE on the configured register file. -/
theorem encodeReady_of_configured (cfg : HostConfig) (fmt : SampleFmt) (b : Block) :
    EncodeReady cfg fmt (deriveBlock Config.deriveParams (selectBlock (configured cfg fmt b))) := by
  have hmax : (selectBlock (configured cfg fmt b)).get .depthMax = cfg.depthMax :=
    onlyWrites_selectBlock _ .depthMax (by decide)
  have hquant : (selectBlock (configured cfg fmt b)).get .depthQuant = cfg.depthQuant :=
    onlyWrites_selectBlock _ .depthQuant (by decide)
  have hlaw : (selectBlock (configured cfg fmt b)).lawTag = configLaw cfg fmt := by
    rw [lawTag_selectBlock, srcFmt_configured]
    rfl
  have hctrl : (deriveBlock Config.deriveParams (selectBlock (configured cfg fmt b))).get .ctrl =
      (configured cfg fmt b).get .ctrl :=
    (onlyWrites_deriveBlock _ _ .ctrl (by decide)).trans (onlyWrites_selectBlock _ .ctrl (by decide))
  obtain ⟨hA, hB⟩ := get_deriveBlock_params Config.deriveParams (selectBlock (configured cfg fmt b))
  rw [hlaw, hmax, hquant] at hA hB
  exact {
    srcFmt := (srcFmt_congr hctrl).trans (srcFmt_configured cfg fmt b)
    law := (lawTag_congr (onlyWrites_deriveBlock _ _ .law (by decide))).trans hlaw
    paramA := hA
    paramB := hB
    depthMax := (onlyWrites_deriveBlock _ _ .depthMax (by decide)).trans hmax
    effort := (effort_eq_of_get_ctrl hctrl).trans (effort_configured cfg fmt b) }

theorem performs_encodeSetup (cfg : HostConfig) (fmt : SampleFmt) (b : Block) :
    Performs (encodeSetup cfg fmt) b [] (deriveBlock Config.deriveParams (selectBlock (configured cfg fmt b))) :=
  (performs_wr .ctrl _ b (by decide)).append <| (performs_wr .depthMax _ _ (by decide)).append <|
    (performs_wr .depthQuant _ _ (by decide)).append <| (performs_cmd .select _).append (performs_cmd .derive _)

/-- A sample's accesses read its code and leave the configuration, the law and the parameters (R162). -/
theorem performs_encodeSample (cfg : HostConfig) (fmt : SampleFmt) (x : Word) (b : Block) (h : EncodeReady cfg fmt b) :
    ∃ c, EncodeReady cfg fmt c ∧ Performs (encodeSample x) b [(configCode cfg fmt x).setWidth 32] c := by
  have hkept : ∀ r, r ≠ .din → r ∉ [RegName.dout, .status] → (fwdBlock (hostWrite .din x b)).get r = b.get r :=
    fun r hdin hr => (onlyWrites_fwdBlock _ r hr).trans (get_hostWrite_of_ne r .din x b hdin)
  have hctrl := hkept .ctrl (by decide) (by decide)
  have hready : EncodeReady cfg fmt (fwdBlock (hostWrite .din x b)) := {
    srcFmt := (srcFmt_congr hctrl).trans h.srcFmt
    law := (lawTag_congr (hkept .law (by decide) (by decide))).trans h.law
    paramA := (hkept .paramA (by decide) (by decide)).trans h.paramA
    paramB := (hkept .paramB (by decide) (by decide)).trans h.paramB
    depthMax := (hkept .depthMax (by decide) (by decide)).trans h.depthMax
    effort := (effort_eq_of_get_ctrl hctrl).trans h.effort }
  have hlaw : (hostWrite .din x b).lawTag = configLaw cfg fmt := h.law
  have hsrc : (hostWrite .din x b).srcFmt = fmt := h.srcFmt
  have hlegal : ¬((hostWrite .din x b).lawTag = 1 ∧ (hostWrite .din x b).srcFmt = .u16) := by
    rw [hlaw, hsrc]
    rintro ⟨hone, rfl⟩
    exact absurd (show (0 : Byte) = 1 from hone) (by decide)
  have hvalue := get_fwdBlock_dout (hostWrite .din x b) hlegal
  rw [hlaw, hsrc, show (hostWrite .din x b).get .paramA = (configParams cfg fmt).1 from h.paramA,
    show (hostWrite .din x b).get .paramB = (configParams cfg fmt).2 from h.paramB,
    show (hostWrite .din x b).get .depthMax = cfg.depthMax from h.depthMax,
    show (hostWrite .din x b).get .din = x from rfl] at hvalue
  exact ⟨_, hready, hvalue ▸ performs_sample x .fwd b⟩

/-- The header's accesses read HDR_LEN and the header words that HENC wrote (R162). -/
theorem performs_headerReads (b : Block) :
    Performs headerReads b [(hencBlock Config.headerByteOrder b).get .hdrLen, (hencBlock Config.headerByteOrder b).get .hdrW0,
      (hencBlock Config.headerByteOrder b).get .hdrW1, (hencBlock Config.headerByteOrder b).get .hdrW2]
      (hencBlock Config.headerByteOrder b) :=
  (performs_cmd .henc b).append <| (performs_rd .hdrLen _).append <| (performs_rd .hdrW0 _).append <|
    (performs_rd .hdrW1 _).append (performs_rd .hdrW2 _)

/-! The call. -/

/-- An idle host with a call waiting begins it. -/
theorem step_startCall (s : State) (call : Call) (rest : List Call) (hport : s.host.port = []) (hphase : s.host.phase = .idle)
    (hcalls : s.host.calls = call :: rest) : step s = startCall call s.dropCall := by
  rw [step_host s hport, hostAdvance, hphase, hcalls]

/-- A call that returns with nothing pending is finished. -/
theorem finishesCall_finish (s u : State) (rest : List Call) (r : CallResult) (hport : u.host.port = [])
    (hcalls : u.host.calls = rest) (hresults : u.host.results = s.host.results) : FinishesCall s (u.finish r) rest r :=
  ⟨hport, rfl, hcalls, by rw [finish_results, hresults]⟩

theorem PhaseDone.step_eq {s u : State} {phase : Phase} {values : List Word} {c : Block} (h : PhaseDone s phase values c u) :
    step u = hostAdvance u := step_host u h.port

theorem PhaseDone.finishes {s u : State} {phase : Phase} {values : List Word} {c : Block} (h : PhaseDone s phase values c u)
    (r : CallResult) : FinishesCall s (u.finish r) s.host.calls r :=
  finishesCall_finish s u _ r h.port h.calls h.results

/-- The configuration and the samples run to the grid of codes. -/
theorem performs_grid (cfg : HostConfig) (fmt : SampleFmt) (words : List Word) (b : Block) :
    ∃ c, EncodeReady cfg fmt c ∧ Performs (encodeSetup cfg fmt ++ words.flatMap encodeSample) b
      (words.map fun x => (configCode cfg fmt x).setWidth 32) c := by
  obtain ⟨c, hready, hsamples⟩ := performs_samples _ encodeSample _ (performs_encodeSample cfg fmt) words _
    (encodeReady_of_configured cfg fmt b)
  exact ⟨c, hready, (performs_encodeSetup cfg fmt b).append hsamples⟩

/-! The definition of ENCODE_FRAME, by what the codec answers (R163, R164). -/

section
variable {frame : Frame} {cfg : HostConfig} {fmt : SampleFmt} {words : List Word}
  (hwords : frameWords frame.data = some (fmt, words))
include hwords

theorem encodeFrame_noResult
    (h : Config.codec.compress (words.map (configCode cfg fmt)) frame.width frame.height cfg.pngLevel.val = none) :
    encodeFrame Config.deriveParams Config.headerByteOrder Config.codec frame cfg = .noResult := by
  simp only [configCode_eq, configParams, configLaw] at h
  simp only [encodeFrame, hwords, h]

theorem encodeFrame_payload {bytes : List Byte}
    (h : Config.codec.compress (words.map (configCode cfg fmt)) frame.width frame.height cfg.pngLevel.val = some bytes) :
    encodeFrame Config.deriveParams Config.headerByteOrder Config.codec frame cfg =
      .encoded (wireHeader Config.headerByteOrder (configLaw cfg fmt) (configParams cfg fmt).1 (configParams cfg fmt).2 ++ bytes)
        fmt := by
  simp only [configCode_eq, configParams, configLaw] at h ⊢
  simp only [encodeFrame, hwords, h]

end

/-- After the grid: no result, or the header and the payload. -/
theorem encode_of_gridDone (s u : State) (frame : Frame) (cfg : HostConfig) (fmt : SampleFmt) (words : List Word) (c : Block)
    (hwords : frameWords frame.data = some (fmt, words)) (hready : EncodeReady cfg fmt c)
    (hdone : PhaseDone s (.encodeGrid fmt frame.width frame.height)
      (words.map fun x => (configCode cfg fmt x).setWidth 32) c u) :
    ∃ t, Reaches u t ∧
      FinishesCall s t s.host.calls (encodeFrame Config.deriveParams Config.headerByteOrder Config.codec frame cfg) := by
  have hgrid : u.host.reads.map lowHalf = words.map (configCode cfg fmt) := by
    rw [hdone.reads, List.map_map]
    exact List.map_congr_left fun x _ => lowHalf_setWidth _
  have hstep : step u = .next (hostCompress fmt frame.width frame.height u) := by
    rw [hdone.step_eq, hostAdvance, hdone.phase]
  rw [hostCompress, hgrid, hdone.block, hready.effort] at hstep
  cases hcompress : Config.codec.compress (words.map (configCode cfg fmt)) frame.width frame.height cfg.pngLevel.val with
  | none =>
    rw [hcompress] at hstep
    rw [encodeFrame_noResult hwords hcompress]
    exact ⟨_, reaches_of_step hstep, hdone.finishes _⟩
  | some bytes =>
    rw [hcompress] at hstep
    obtain ⟨v, hv, hvdone⟩ := PhaseDone.reaches (.encodeHeader fmt bytes) hdone.calls hdone.results
      (performs_headerReads u.block)
    have hheader : headerFromReads v.host.reads = wireHeader Config.headerByteOrder (configLaw cfg fmt)
        (configParams cfg fmt).1 (configParams cfg fmt).2 := by
      rw [hvdone.reads, hdone.block, headerFromReads_hencBlock _ c (hready.law ▸ frameLaw_cases _ _ _), hready.law,
        hready.paramA, hready.paramB]
    have hvstep : step v = .next (v.finish (.encoded (headerFromReads v.host.reads ++ bytes) fmt)) := by
      rw [hvdone.step_eq, hostAdvance, hvdone.phase]
    rw [hheader] at hvstep
    rw [encodeFrame_payload hwords hcompress]
    exact ⟨_, reaches_trans (reaches_of_step hstep) (reaches_trans hv (reaches_of_step hvstep)), hvdone.finishes _⟩

/-- Settles O49: a frame of another encoding returns at once; any other runs through its grid and its header. -/
theorem encodeFrameRunsToItsResult : Obligations.EncodeFrameRunsToItsResult := by
  intro s frame cfg rest hport hphase hcalls hwf
  have hstart := step_startCall s _ rest hport hphase hcalls
  have hrest : s.dropCall.host.calls = rest := by rw [dropCall_calls, hcalls, List.tail_cons]
  cases hwords : frameWords frame.data with
  | none =>
    simp only [startCall, hwf, if_true, hwords] at hstart
    have hresult : encodeFrame Config.deriveParams Config.headerByteOrder Config.codec frame cfg = .noResult := by
      rw [encodeFrame, hwords]
    exact ⟨_, reaches_of_step hstart, hresult ▸ finishesCall_finish s s.dropCall rest _ hport hrest rfl, fun _ => rfl⟩
  | some fw =>
    obtain ⟨fmt, words⟩ := fw
    simp only [startCall, hwf, if_true, hwords] at hstart
    obtain ⟨c, hready, hperforms⟩ := performs_grid cfg fmt words s.dropCall.block
    obtain ⟨u, hu, hdone⟩ := PhaseDone.reaches (s := s.dropCall) (.encodeGrid fmt frame.width frame.height) rfl rfl hperforms
    obtain ⟨t, ht, hfinish⟩ := encode_of_gridDone _ u frame cfg fmt words c hwords hready hdone
    refine ⟨t, reaches_trans (reaches_of_step hstart) (reaches_trans hu ht), hrest ▸ hfinish, fun hother => ?_⟩
    rw [hother] at hwords
    cases hwords

end Sys2Proof.Machine
end

section
/-! PROOFS. DECODE_FRAME over the register port (R166 to R168) returns what its definition gives. -/

namespace Sys2Proof.Machine

/-! The payload's header in the header buffer (R166). -/

theorem wordByte_payloadWord (payload : List Byte) (i j : Nat) (hj : j < 4) :
    wordByte (payloadWord payload i) j = payload.getD (i + j) 0 := by
  obtain ⟨h0, h1, h2, h3⟩ := wordByte_packWord (payload.getD i 0) (payload.getD (i + 1) 0) (payload.getD (i + 2) 0)
    (payload.getD (i + 3) 0)
  interval_cases j
  · exact h0
  · exact h1
  · exact h2
  · exact h3

/-- CTRL as DECODE_FRAME writes it holds the output format (R166). -/
theorem getLsbD_decodeCtrl (ctrl : Word) (fmt : SampleFmt) : (decodeCtrl ctrl fmt).getLsbD 1 = decide (fmt = .f32) := by
  cases fmt <;> simp [decodeCtrl]

/-- The register file after the writes before HDEC. -/
def headerLoaded (payload : List Byte) (fmt : SampleFmt) (ctrl : Word) (b : Block) : Block :=
  hostWrite .ctrl (decodeCtrl ctrl fmt) (hostWrite .hdrAvail (BitVec.ofNat 32 (min payload.length 0xFFFFFFFF))
    (hostWrite .hdrW2 ((payload.getD 8 0).setWidth 32) (hostWrite .hdrW1 (payloadWord payload 4)
      (hostWrite .hdrW0 (payloadWord payload 0) b))))

section
variable (payload : List Byte) (fmt : SampleFmt) (ctrl : Word) (b : Block)

theorem rawOutFmt_headerLoaded : (headerLoaded payload fmt ctrl b).rawOutFmt = fmt := by
  obtain ⟨-, hbit, -⟩ := formats_hostWrite_ctrl (decodeCtrl ctrl fmt) (hostWrite .hdrAvail
    (BitVec.ofNat 32 (min payload.length 0xFFFFFFFF)) (hostWrite .hdrW2 ((payload.getD 8 0).setWidth 32)
      (hostWrite .hdrW1 (payloadWord payload 4) (hostWrite .hdrW0 (payloadWord payload 0) b))))
  rw [Block.rawOutFmt, headerLoaded, hbit, getLsbD_decodeCtrl]
  cases fmt <;> rfl

theorem hdrAvail_headerLoaded : ((headerLoaded payload fmt ctrl b).get .hdrAvail).toNat = min payload.length 0xFFFFFFFF := by
  have hget : (headerLoaded payload fmt ctrl b).get .hdrAvail = BitVec.ofNat 32 (min payload.length 0xFFFFFFFF) := rfl
  rw [hget, BitVec.toNat_ofNat]
  omega

/-- The header buffer holds the payload's first nine bytes, 0 past its end. -/
theorem hdrByte_headerLoaded (i : Nat) (hi : i < 9) : (headerLoaded payload fmt ctrl b).hdrByte i = payload.getD i 0 := by
  have h0 : (headerLoaded payload fmt ctrl b).get .hdrW0 = payloadWord payload 0 := rfl
  have h1 : (headerLoaded payload fmt ctrl b).get .hdrW1 = payloadWord payload 4 := rfl
  have h2 : (headerLoaded payload fmt ctrl b).get .hdrW2 = (payload.getD 8 0).setWidth 32 :=
    get_put_of_legal (hostWrite .hdrW1 (payloadWord payload 4) (hostWrite .hdrW0 (payloadWord payload 0) b)) .hdrW2 _ rfl
      (setWidth_and_implemented_hdrW2 _)
  obtain hlow | ⟨j, hj, rfl⟩ | rfl : i < 4 ∨ (∃ j < 4, i = 4 + j) ∨ i = 8 := by
    by_cases h4 : i < 4
    · exact .inl h4
    · by_cases h8 : i < 8
      · exact .inr (.inl ⟨i - 4, by omega, by omega⟩)
      · exact .inr (.inr (by omega))
  · rw [hdrByte_hdrW0 _ i hlow, h0, wordByte_payloadWord payload 0 i hlow, Nat.zero_add]
  · rw [hdrByte_hdrW1 _ j hj, h1, wordByte_payloadWord payload 4 j hj]
  · rw [hdrByte_hdrW2, h2, wordByte_setWidth_zero]

end

theorem performs_decodeSetup (payload : List Byte) (fmt : SampleFmt) (ctrl : Word) (b : Block) :
    Performs (decodeSetup payload fmt ctrl) b
      [(hdecBlock Config.headerByteOrder (headerLoaded payload fmt ctrl b)).get .status]
      (hdecBlock Config.headerByteOrder (headerLoaded payload fmt ctrl b)) :=
  (performs_wr .hdrW0 _ b (by decide)).append <| (performs_wr .hdrW1 _ _ (by decide)).append <|
    (performs_wr .hdrW2 _ _ (by decide)).append <| (performs_wr .hdrAvail _ _ (by decide)).append <|
      (performs_wr .ctrl _ _ (by decide)).append <| (performs_cmd .hdec _).append (performs_rd .status _)

/-! HDEC reads the header as the definition does (R135, R136). -/

/-- The error of a decode failure (R167). -/
def DecodeFailure.code : DecodeFailure → BitVec 4
  | .unsupportedFormat => 2
  | .payloadCorrupt => 3

/-- HDEC's registers hold what was read from a header, or its error. -/
def HeaderIn (c : Block) : Except DecodeFailure (Byte × Word × Word × Nat) → Prop
  | .error e => c.err = e.code
  | .ok (law, pa, pb, len) =>
    c.err = 0 ∧ c.lawTag = law ∧ c.get .paramA = pa ∧ c.get .paramB = pb ∧ (c.get .hdrLen).toNat = len

theorem headerIn_raiseError (b : Block) (e : DecodeFailure) (k : ErrorKind) (h : k.code = e.code) :
    HeaderIn (raiseError k b) (.error e) := (err_raiseError b k).trans h

theorem headerIn_acceptHeader_raw (b : Block) : HeaderIn (acceptHeader b 0 0 0 1) (.ok (0, 0, 0, 1)) := by
  obtain ⟨hlaw, hA, hB, hlen⟩ := get_acceptHeader b 0 0 0 1
  exact ⟨err_setErr _ _, by rw [Block.lawTag, hlaw]; rfl, hA, hB, by rw [hlen]; rfl⟩

theorem headerIn_acceptHeader_quantized (b : Block) (pa pb : Word) :
    HeaderIn (acceptHeader b 1 pa pb 9) (.ok (1, pa, pb, 9)) := by
  obtain ⟨hlaw, hA, hB, hlen⟩ := get_acceptHeader b 1 pa pb 9
  exact ⟨err_setErr _ _, by rw [Block.lawTag, hlaw]; rfl, hA, hB, by rw [hlen]; rfl⟩

/-- HDEC on a header buffer that holds the payload's first bytes. -/
theorem headerIn_hdecBlock (order : Config.ByteOrder) (payload : List Byte) (b : Block)
    (hbytes : ∀ i < 9, b.hdrByte i = payload.getD i 0) (havail : (b.get .hdrAvail).toNat = min payload.length 0xFFFFFFFF) :
    HeaderIn (hdecBlock order b) (readHeader order payload) := by
  cases payload with
  | nil =>
    rw [hdecBlock_error order b .payloadCorrupt (by rw [havail]; rfl)]
    exact headerIn_raiseError b _ _ rfl
  | cons tag tail =>
    have htag : b.hdrByte 0 = tag := hbytes 0 (by norm_num)
    have hlength : (tag :: tail).length = tail.length + 1 := List.length_cons
    rw [readHeader]
    rcases headerVerdict_cases (b.get .hdrAvail).toNat (b.hdrByte 0) with ⟨hn, -⟩ | ⟨-, h0, h1, h⟩ | ⟨-, h0, h⟩ |
      ⟨-, h1, hn, h⟩ | ⟨hn, h1, h⟩
    · omega
    · rw [htag] at h0 h1
      rw [if_neg h0, if_neg h1, hdecBlock_error order b _ h]
      exact headerIn_raiseError b _ _ rfl
    · rw [if_pos (htag ▸ h0), hdecBlock_raw order b h]
      exact headerIn_acceptHeader_raw b
    · have hone : tag = 1 := htag ▸ h1
      rw [if_neg (by rw [hone]; decide), if_pos hone, if_pos (by omega), hdecBlock_error order b _ h]
      exact headerIn_raiseError b _ _ rfl
    · have hone : tag = 1 := htag ▸ h1
      rw [if_neg (by rw [hone]; decide), if_pos hone, if_neg (by omega), hdecBlock_quantized order b h,
        hbytes 1 (by norm_num), hbytes 2 (by norm_num), hbytes 3 (by norm_num), hbytes 4 (by norm_num),
        hbytes 5 (by norm_num), hbytes 6 (by norm_num), hbytes 7 (by norm_num), hbytes 8 (by norm_num)]
      exact headerIn_acceptHeader_quantized b _ _

/-! The register file while the codes are decoded. -/

/-- INV gives the depth of the frame's code (R113). -/
theorem get_invBlock_dout (b : Block) :
    (invBlock b).get .dout =
      frameDepth b.lawTag b.rawOutFmt (b.get .paramA) (b.get .paramB) (b.get .depthMax) b.dinHalf := by
  rcases invBlock_cases b with ⟨hlaw, hinv⟩ | ⟨hlaw, hout, hinv⟩ | ⟨hlaw, hout, hinv⟩
  · rw [hinv, get_invCommit_dout]
    cases b.rawOutFmt <;> rw [frameDepth, if_pos hlaw]
  · rw [hinv, get_invCommit_dout, hout, frameDepth, if_neg hlaw]
  · rw [hinv, get_invCommit_dout, hout, frameDepth, if_neg hlaw]

/-- The law, the output format, the parameters `p` and DEPTH_MAX of the call are in the registers. -/
structure DecodeReady (law : Byte) (fmt : SampleFmt) (p : Word × Word) (m : Word) (c : Block) : Prop where
  law : c.lawTag = law
  rawOutFmt : c.rawOutFmt = fmt
  paramA : c.get .paramA = p.1
  paramB : c.get .paramB = p.2
  depthMax : c.get .depthMax = m

/-- A code's accesses read its depth and leave the law, the format, the parameters and DEPTH_MAX (R166). -/
theorem performs_decodeSample (law : Byte) (fmt : SampleFmt) (p : Word × Word) (m : Word) (k : Half) (b : Block)
    (h : DecodeReady law fmt p m b) :
    ∃ c, DecodeReady law fmt p m c ∧ Performs (decodeSample k) b [frameDepth law fmt p.1 p.2 m k] c := by
  have hkept : ∀ r, r ≠ .din → r ∉ [RegName.dout, .status] →
      (invBlock (hostWrite .din (k.setWidth 32) b)).get r = b.get r :=
    fun r hdin hr => (onlyWrites_invBlock _ r hr).trans (get_hostWrite_of_ne r .din _ b hdin)
  have hready : DecodeReady law fmt p m (invBlock (hostWrite .din (k.setWidth 32) b)) := {
    law := (lawTag_congr (hkept .law (by decide) (by decide))).trans h.law
    rawOutFmt := (rawOutFmt_congr (hkept .ctrl (by decide) (by decide))).trans h.rawOutFmt
    paramA := (hkept .paramA (by decide) (by decide)).trans h.paramA
    paramB := (hkept .paramB (by decide) (by decide)).trans h.paramB
    depthMax := (hkept .depthMax (by decide) (by decide)).trans h.depthMax }
  have hvalue := get_invBlock_dout (hostWrite .din (k.setWidth 32) b)
  rw [show (hostWrite .din (k.setWidth 32) b).lawTag = law from h.law,
    show (hostWrite .din (k.setWidth 32) b).rawOutFmt = fmt from h.rawOutFmt,
    show (hostWrite .din (k.setWidth 32) b).get .paramA = p.1 from h.paramA,
    show (hostWrite .din (k.setWidth 32) b).get .paramB = p.2 from h.paramB,
    show (hostWrite .din (k.setWidth 32) b).get .depthMax = m from h.depthMax,
    show (hostWrite .din (k.setWidth 32) b).dinHalf = k from dinHalf_put_din b k] at hvalue
  exact ⟨_, hready, hvalue ▸ performs_sample (k.setWidth 32) .inv b⟩

/-! The call, phase by phase. -/

/-- After the codes the frame is returned. -/
theorem decode_of_gridReady (s u : State) (law : Byte) (fmt : SampleFmt) (p : Word × Word) (m : Word) (w h : Nat)
    (grid : List Half) (hcalls : u.host.calls = s.host.calls) (hresults : u.host.results = s.host.results)
    (hready : DecodeReady law fmt p m u.block) :
    ∃ t, Reaches (u.openPhase (.decodeGrid fmt w h) (grid.flatMap decodeSample)) t ∧
      FinishesCall s t s.host.calls (.decoded ⟨w, h, decodedData law fmt (grid.map (frameDepth law fmt p.1 p.2 m))⟩) := by
  obtain ⟨c, hc, hperforms⟩ := performs_samples _ decodeSample _ (performs_decodeSample law fmt p m) grid _ hready
  obtain ⟨v, hv, hdone⟩ := PhaseDone.reaches (.decodeGrid fmt w h) hcalls hresults hperforms
  have hstep : step v =
      .next (v.finish (.decoded ⟨w, h, decodedData law fmt (grid.map (frameDepth law fmt p.1 p.2 m))⟩)) := by
    rw [hdone.step_eq, hostAdvance, hdone.phase, hdone.block, hdone.reads, hc.law]
  exact ⟨_, reaches_trans hv (reaches_of_step hstep), hdone.finishes _⟩

/-- After the header's length is read: the grid's bytes, or PayloadCorrupt (R166, R168, R194). -/
theorem decode_of_lengthDone (s u : State) (payload : List Byte) (law : Byte) (fmt : SampleFmt) (p : Word × Word) (m : Word)
    (len : Nat) (c : Block) (hlen : (c.get .hdrLen).toNat = len) (hready : DecodeReady law fmt p m c)
    (hread : readHeader Config.headerByteOrder payload = .ok (law, p.1, p.2, len))
    (hdone : PhaseDone s (.decodeLength payload fmt) [c.get .hdrLen] c u) :
    ∃ t, Reaches u t ∧
      FinishesCall s t s.host.calls (decodeFrame Config.headerByteOrder Config.codec m payload fmt) := by
  have hstep : step u = .next (hostDecompress payload fmt u) := by rw [hdone.step_eq, hostAdvance, hdone.phase]
  have hvalue : (u.host.reads.getD 0 0).toNat = len := by rw [hdone.reads]; exact hlen
  rw [hostDecompress, hvalue] at hstep
  simp only [decodeFrame, hread]
  cases hgrid : Config.codec.decompress (payload.drop len) with
  | none =>
    rw [hgrid] at hstep
    exact ⟨_, reaches_of_step hstep, hdone.finishes _⟩
  | some whg =>
    obtain ⟨w, h, grid⟩ := whg
    simp only [hgrid] at hstep ⊢
    by_cases hdims : dimsOk Config.codec w h grid = true
    · rw [if_pos hdims] at hstep ⊢
      obtain ⟨t, ht, hfinish⟩ := decode_of_gridReady s u law fmt p m w h grid hdone.calls hdone.results
        (hdone.block ▸ hready)
      exact ⟨t, reaches_trans (reaches_of_step hstep) ht, hfinish⟩
    · rw [if_neg hdims] at hstep ⊢
      exact ⟨_, reaches_of_step hstep, hdone.finishes _⟩

/-- The host's judgement of STATUS after HDEC (R166, R167), by the code in ERR. -/
theorem hostJudgeHeader_failed (payload : List Byte) (fmt : SampleFmt) (u : State) (e : DecodeFailure)
    (h : statusErr (u.host.reads.getD 0 0) = e.code) : hostJudgeHeader payload fmt u = u.finish (.decodeFailed e) := by
  cases e with
  | unsupportedFormat => rw [hostJudgeHeader, h]; rfl
  | payloadCorrupt => rw [hostJudgeHeader, h]; rfl

theorem hostJudgeHeader_accepted (payload : List Byte) (fmt : SampleFmt) (u : State)
    (h : statusErr (u.host.reads.getD 0 0) = 0) :
    hostJudgeHeader payload fmt u = u.openPhase (.decodeLength payload fmt) [rd .hdrLen] := by
  rw [hostJudgeHeader, h, if_neg (by decide), if_neg (by decide)]

/-- After HDEC: its typed error, or the header's length and the grid. -/
theorem decode_of_headerDone (s u : State) (payload : List Byte) (fmt : SampleFmt) (m : Word) (c : Block)
    (hheader : HeaderIn c (readHeader Config.headerByteOrder payload)) (hout : c.rawOutFmt = fmt) (hmax : c.get .depthMax = m)
    (hdone : PhaseDone s (.decodeHeader payload fmt) [c.get .status] c u) :
    ∃ t, Reaches u t ∧
      FinishesCall s t s.host.calls (decodeFrame Config.headerByteOrder Config.codec m payload fmt) := by
  have hstep : step u = .next (hostJudgeHeader payload fmt u) := by rw [hdone.step_eq, hostAdvance, hdone.phase]
  have herr : statusErr (u.host.reads.getD 0 0) = c.err := by rw [hdone.reads]; rfl
  cases hread : readHeader Config.headerByteOrder payload with
  | error e =>
    rw [hread] at hheader
    rw [hostJudgeHeader_failed payload fmt u e (herr.trans hheader)] at hstep
    simp only [decodeFrame, hread]
    exact ⟨_, reaches_of_step hstep, hdone.finishes _⟩
  | ok header =>
    obtain ⟨law, pa, pb, len⟩ := header
    rw [hread] at hheader
    obtain ⟨hok, hlaw, hA, hB, hlen⟩ := hheader
    rw [hostJudgeHeader_accepted payload fmt u (herr.trans hok)] at hstep
    have hready : DecodeReady law fmt (pa, pb) m c := ⟨hlaw, hout, hA, hB, hmax⟩
    obtain ⟨v, hv, hvdone⟩ := PhaseDone.reaches (.decodeLength payload fmt) hdone.calls hdone.results
      (show Performs [rd .hdrLen] u.block [c.get .hdrLen] c by rw [hdone.block]; exact performs_rd .hdrLen c)
    obtain ⟨t, ht, hfinish⟩ := decode_of_lengthDone s v payload law fmt (pa, pb) m len c hlen hready hread hvdone
    exact ⟨t, reaches_trans (reaches_of_step hstep) (reaches_trans hv ht), hfinish⟩

/-- Settles O50: the header is loaded and judged, then the grid decoded. -/
theorem decodeFrameRunsToItsResult : Obligations.DecodeFrameRunsToItsResult := by
  intro s payload fmt rest hport hphase hcalls
  have hstart := step_startCall s _ rest hport hphase hcalls
  have hrest : s.dropCall.host.calls = rest := by rw [dropCall_calls, hcalls, List.tail_cons]
  have hkept : ∀ r, r ∉ [RegName.law, .paramA, .paramB, .hdrLen, .status] → ∀ b,
      (hdecBlock Config.headerByteOrder b).get r = b.get r := fun r hr b => onlyWrites_hdecBlock _ b r hr
  obtain ⟨u, hu, hdone⟩ := PhaseDone.reaches (s := s.dropCall) (u := s.dropCall) (.decodeHeader payload fmt) rfl rfl
    (performs_decodeSetup payload fmt (s.block.get .ctrl) s.block)
  have hheader := headerIn_hdecBlock Config.headerByteOrder payload _
    (hdrByte_headerLoaded payload fmt (s.block.get .ctrl) s.block) (hdrAvail_headerLoaded payload fmt _ _)
  obtain ⟨t, ht, hfinish⟩ := decode_of_headerDone s.dropCall u payload fmt (s.block.get .depthMax) _ hheader
    ((rawOutFmt_congr (hkept .ctrl (by decide) _)).trans (rawOutFmt_headerLoaded payload fmt _ _))
    (hkept .depthMax (by decide) _) hdone
  exact ⟨t, reaches_trans (reaches_of_step hstart) (reaches_trans hu ht), hrest ▸ hfinish⟩

end Sys2Proof.Machine
end
